-- ==== Sys2Proof/Word.lean ====
section
/-! DEFINITION. Words, bytes and the two operand widths (00_scope.md R7, R8, R13). -/

namespace Sys2Proof

/-- A 16-bit word (R8): register contents, addresses, instruction words. -/
abbrev Word := BitVec 16

/-- An 8-bit byte (R8). -/
abbrev Byte := BitVec 8

/-- The operand size `n` of R13: 1 for a byte instruction, 2 for a word instruction. -/
inductive Width where
  | byte
  | word
  deriving DecidableEq, Repr

end Sys2Proof
end

