-- ==== Sys2Proof/Syntax.lean ====
section
/-! DEFINITION. The instruction set as syntax: one constructor per mnemonic of spec/opcode_table.json
(30_encoding.md R104, R105). Extension words are no part of an instruction: the addressing modes consume them
from the instruction stream while it runs (R100, R110). -/

namespace Sys2Proof

/-- The eight general registers (10_state.md R20): `sp` is `x[6]`, `pc` is `x[7]`. -/
inductive Reg where
  | r0 | r1 | r2 | r3 | r4 | r5 | sp | pc
  deriving DecidableEq, Repr

/-- The eight addressing modes, codes 0 to 7 (40_addressing_modes.md R130). -/
inductive Mode where
  | register
  | deferred
  | autoInc
  | autoIncDef
  | autoDec
  | autoDecDef
  | index
  | indexDef
  deriving DecidableEq, Repr

/-- A 6-bit operand field: mode and register (30_encoding.md R102). -/
structure Operand where
  mode : Mode
  reg : Reg
  deriving DecidableEq, Repr

/-- The instructions, in the order of the table of R105; `reserved` stands for a word of the reserved space
(R112), which raises the reserved-instruction trap. -/
inductive Instr where
  | halt
  | wait
  | rti
  | bpt
  | iot
  | reset
  | rtt
  | jmp (dst : Operand)
  | rts (r : Reg)
  | ccop (set : Bool) (m : BitVec 4)
  | swab (dst : Operand)
  | br (off : Byte)
  | bne (off : Byte)
  | beq (off : Byte)
  | bge (off : Byte)
  | blt (off : Byte)
  | bgt (off : Byte)
  | ble (off : Byte)
  | jsr (r : Reg) (dst : Operand)
  | clr (dst : Operand)
  | com (dst : Operand)
  | inc (dst : Operand)
  | dec (dst : Operand)
  | neg (dst : Operand)
  | adc (dst : Operand)
  | sbc (dst : Operand)
  | tst (dst : Operand)
  | ror (dst : Operand)
  | rol (dst : Operand)
  | asr (dst : Operand)
  | asl (dst : Operand)
  | mark (nn : BitVec 6)
  | sxt (dst : Operand)
  | mov (src dst : Operand)
  | cmp (src dst : Operand)
  | bit (src dst : Operand)
  | bic (src dst : Operand)
  | bis (src dst : Operand)
  | add (src dst : Operand)
  | xor (r : Reg) (dst : Operand)
  | sob (r : Reg) (off : BitVec 6)
  | bpl (off : Byte)
  | bmi (off : Byte)
  | bhi (off : Byte)
  | blos (off : Byte)
  | bvc (off : Byte)
  | bvs (off : Byte)
  | bcc (off : Byte)
  | bcs (off : Byte)
  | emt (num : Byte)
  | trap (num : Byte)
  | clrb (dst : Operand)
  | comb (dst : Operand)
  | incb (dst : Operand)
  | decb (dst : Operand)
  | negb (dst : Operand)
  | adcb (dst : Operand)
  | sbcb (dst : Operand)
  | tstb (dst : Operand)
  | rorb (dst : Operand)
  | rolb (dst : Operand)
  | asrb (dst : Operand)
  | aslb (dst : Operand)
  | mtps (src : Operand)
  | mfps (dst : Operand)
  | movb (src dst : Operand)
  | cmpb (src dst : Operand)
  | bitb (src dst : Operand)
  | bicb (src dst : Operand)
  | bisb (src dst : Operand)
  | sub (src dst : Operand)
  | reserved (w : Word)
  deriving DecidableEq, Repr

end Sys2Proof
end

