-- ==== Sys2Proof/WellFormed.lean ====
section
/-! DEFINITION. Which instruction terms are instructions: a `reserved` term carries a word of the reserved space
(30_encoding.md R112), and a byte form has no register-mode operand on SP or PC if it is to have a meaning
(10_state.md R24). Which instructions belong to the nine unnamed classes (47_unnamed_extensions.md R270). -/

namespace Sys2Proof

/-- The reserved ranges of R112, lowest and highest word of each, in the order of the rule. -/
def reservedRanges : List (Nat × Nat) :=
  [(0o000007, 0o000077), (0o000210, 0o000237), (0o006500, 0o006677), (0o007000, 0o007777),
   (0o070000, 0o073777), (0o075000, 0o076777), (0o106500, 0o106677), (0o107000, 0o107777),
   (0o170000, 0o177777)]

/-- R112: the word lies in one of the reserved ranges. -/
def isReservedWord (w : Word) : Bool :=
  reservedRanges.any fun r => decide (r.1 ≤ w.toNat) && decide (w.toNat ≤ r.2)

/-- A term is well formed when it stands for an instruction word: only `reserved` carries a constraint, its word
must be reserved (R112). Every operand field takes every mode and register (R21, R102). -/
def Instr.wf : Instr → Bool
  | .reserved w => isReservedWord w
  | _ => true

/-- Register mode on SP or PC, the operand that R24 refuses in a byte instruction. -/
def Operand.isSpPcRegister (o : Operand) : Bool :=
  decide (o.mode = .register) && (decide (o.reg = .sp) || decide (o.reg = .pc))

/-- The operand fields of a byte instruction, and none for any other instruction (R23, R24, R103). -/
def Instr.byteOperands : Instr → List Operand
  | .clrb d | .comb d | .incb d | .decb d | .negb d | .adcb d | .sbcb d | .tstb d
  | .rorb d | .rolb d | .asrb d | .aslb d | .mtps d | .mfps d => [d]
  | .movb s d | .cmpb s d | .bitb s d | .bicb s d | .bisb s d => [s, d]
  | _ => []

/-- R24: the instruction has a meaning unless it is a byte form with register-mode SP or PC. -/
def Instr.hasMeaning (i : Instr) : Bool :=
  i.byteOperands.all fun o => !o.isSpPcRegister

/-- R270: the instructions of the nine classes the document counts but does not name. -/
def Instr.isUnnamed : Instr → Bool
  | .adc _ | .adcb _ | .sbc _ | .sbcb _ | .sxt _ | .xor _ _ | .sob _ _ | .mfps _ | .mtps _ | .mark _ | .rtt => true
  | _ => false

end Sys2Proof
end

