-- ==== Sys2Proof/Decode.lean ====
section
/-! DEFINITION. Decoding (30_encoding.md R100 to R113) as a total function on words and on byte lists, and the
encoder. All bit patterns are the PDP-11's, as R105 has them. Fields are cut out as octal digits of the word. -/

namespace Sys2Proof

/-! ## Field codes -/

/-- The 3-bit register number (R20, R102). -/
def Reg.code : Reg → Nat
  | .r0 => 0 | .r1 => 1 | .r2 => 2 | .r3 => 3 | .r4 => 4 | .r5 => 5 | .sp => 6 | .pc => 7

/-- The register a 3-bit field names. -/
def Reg.ofCode : Nat → Reg
  | 0 => .r0 | 1 => .r1 | 2 => .r2 | 3 => .r3 | 4 => .r4 | 5 => .r5 | 6 => .sp | _ => .pc

/-- The 3-bit mode code (40_addressing_modes.md R130). -/
def Mode.code : Mode → Nat
  | .register => 0 | .deferred => 1 | .autoInc => 2 | .autoIncDef => 3
  | .autoDec => 4 | .autoDecDef => 5 | .index => 6 | .indexDef => 7

/-- The mode a 3-bit field names. -/
def Mode.ofCode : Nat → Mode
  | 0 => .register | 1 => .deferred | 2 => .autoInc | 3 => .autoIncDef
  | 4 => .autoDec | 5 => .autoDecDef | 6 => .index | _ => .indexDef

/-- The 6-bit operand field, mode in bits 5:3 and register in bits 2:0 (R102). -/
def Operand.code (o : Operand) : Nat := 8 * o.mode.code + o.reg.code

/-- The operand field in the six lowest bits of `n`. -/
def Operand.ofCode (n : Nat) : Operand := ⟨Mode.ofCode (n / 8 % 8), Reg.ofCode (n % 8)⟩

/-! ## Decoding one word -/

/-- The destination field, bits 5:0 (R102). -/
def dstField (n : Nat) : Operand := Operand.ofCode n

/-- The source field of a double-operand word, bits 11:6 (R102). -/
def srcField (n : Nat) : Operand := Operand.ofCode (n / 64)

/-- The register field of JSR, XOR and SOB, bits 8:6 (R101). -/
def regField (n : Nat) : Reg := Reg.ofCode (n / 64 % 8)

/-- The branch offset or trap number, bits 7:0 (R107, R108). -/
def byteField (n : Nat) : Byte := BitVec.ofNat 8 n

/-- The offset of SOB or the count of MARK, bits 5:0 (R101). -/
def sixField (n : Nat) : BitVec 6 := BitVec.ofNat 6 n

/-- Words 000000 to 000077: the instructions without operands (R105). -/
def decodeNoOperand (n : Nat) : Instr :=
  match n with
  | 0 => .halt
  | 1 => .wait
  | 2 => .rti
  | 3 => .bpt
  | 4 => .iot
  | 5 => .reset
  | 6 => .rtt
  | _ => .reserved (BitVec.ofNat 16 n)

/-- Words 000000 to 000377 (R105, R109). -/
def decodeLowest (n : Nat) : Instr :=
  match n / 64 with
  | 0 => decodeNoOperand n
  | 1 => .jmp (dstField n)
  | 2 =>
    if n % 64 < 8 then .rts (Reg.ofCode (n % 8))
    else if n % 64 < 32 then .reserved (BitVec.ofNat 16 n)
    else .ccop (decide (n / 16 % 2 = 1)) (BitVec.ofNat 4 n)
  | _ => .swab (dstField n)

/-- Words 005000 to 007777: single-operand words, and MARK (R105). -/
def decodeSingle (n : Nat) : Instr :=
  match n / 64 % 64 with
  | 40 => .clr (dstField n)
  | 41 => .com (dstField n)
  | 42 => .inc (dstField n)
  | 43 => .dec (dstField n)
  | 44 => .neg (dstField n)
  | 45 => .adc (dstField n)
  | 46 => .sbc (dstField n)
  | 47 => .tst (dstField n)
  | 48 => .ror (dstField n)
  | 49 => .rol (dstField n)
  | 50 => .asr (dstField n)
  | 51 => .asl (dstField n)
  | 52 => .mark (sixField n)
  | 55 => .sxt (dstField n)
  | _ => .reserved (BitVec.ofNat 16 n)

/-- Words 105000 to 107777: the byte forms, MTPS and MFPS (R103, R105). -/
def decodeSingleByte (n : Nat) : Instr :=
  match n / 64 % 64 with
  | 40 => .clrb (dstField n)
  | 41 => .comb (dstField n)
  | 42 => .incb (dstField n)
  | 43 => .decb (dstField n)
  | 44 => .negb (dstField n)
  | 45 => .adcb (dstField n)
  | 46 => .sbcb (dstField n)
  | 47 => .tstb (dstField n)
  | 48 => .rorb (dstField n)
  | 49 => .rolb (dstField n)
  | 50 => .asrb (dstField n)
  | 51 => .aslb (dstField n)
  | 52 => .mtps (dstField n)
  | 55 => .mfps (dstField n)
  | _ => .reserved (BitVec.ofNat 16 n)

/-- Words 000000 to 007777, by bits 11:8 (R105). -/
def decodeLow (n : Nat) : Instr :=
  match n / 256 % 16 with
  | 0 => decodeLowest n
  | 1 => .br (byteField n)
  | 2 => .bne (byteField n)
  | 3 => .beq (byteField n)
  | 4 => .bge (byteField n)
  | 5 => .blt (byteField n)
  | 6 => .bgt (byteField n)
  | 7 => .ble (byteField n)
  | 8 => .jsr (regField n) (dstField n)
  | 9 => .jsr (regField n) (dstField n)
  | _ => decodeSingle n

/-- Words 100000 to 107777, by bits 11:8 (R105). -/
def decodeHigh (n : Nat) : Instr :=
  match n / 256 % 16 with
  | 0 => .bpl (byteField n)
  | 1 => .bmi (byteField n)
  | 2 => .bhi (byteField n)
  | 3 => .blos (byteField n)
  | 4 => .bvc (byteField n)
  | 5 => .bvs (byteField n)
  | 6 => .bcc (byteField n)
  | 7 => .bcs (byteField n)
  | 8 => .emt (byteField n)
  | 9 => .trap (byteField n)
  | _ => decodeSingleByte n

/-- Words 070000 to 077777: XOR, SOB, and reserved words (R105, R112). -/
def decodeSeven (n : Nat) : Instr :=
  match n / 512 % 8 with
  | 4 => .xor (regField n) (dstField n)
  | 7 => .sob (regField n) (sixField n)
  | _ => .reserved (BitVec.ofNat 16 n)

/-- The instruction whose word, taken as a number, is `n`, by bits 15:12 (R101, R105). -/
def decodeNat (n : Nat) : Instr :=
  match n / 4096 with
  | 0 => decodeLow n
  | 1 => .mov (srcField n) (dstField n)
  | 2 => .cmp (srcField n) (dstField n)
  | 3 => .bit (srcField n) (dstField n)
  | 4 => .bic (srcField n) (dstField n)
  | 5 => .bis (srcField n) (dstField n)
  | 6 => .add (srcField n) (dstField n)
  | 7 => decodeSeven n
  | 8 => decodeHigh n
  | 9 => .movb (srcField n) (dstField n)
  | 10 => .cmpb (srcField n) (dstField n)
  | 11 => .bitb (srcField n) (dstField n)
  | 12 => .bicb (srcField n) (dstField n)
  | 13 => .bisb (srcField n) (dstField n)
  | 14 => .sub (srcField n) (dstField n)
  | _ => .reserved (BitVec.ofNat 16 n)

/-- R106: the decoder, total on all 65,536 words; a word that matches no row decodes to `reserved`. -/
def decode (w : Word) : Instr := decodeNat w.toNat

/-! ## Decoding bytes -/

/-- Why a byte list is no instruction: it is shorter than one instruction word (R100). No whole word is
rejected (R106). -/
inductive DecodeError where
  | truncated
  deriving DecidableEq, Repr

/-- Decode the instruction word at the head of a byte list, low byte first (20_memory.md R63), and give the rest
of the list. -/
def decodeBytes : List Byte → Except DecodeError (Instr × List Byte)
  | lo :: hi :: rest => .ok (decode (hi ++ lo), rest)
  | _ => .error .truncated

/-- The bytes of a number of `k` words, each word low byte first, the first word lowest. -/
def wordBytes : Nat → Nat → List Byte
  | 0, _ => []
  | k + 1, n => BitVec.ofNat 8 n :: BitVec.ofNat 8 (n / 256) :: wordBytes k (n / 65536)

/-- The instruction the decoder reads from a table word: `w` has `nbits` bits, bit 0 the least of the first
word; the words above are zero, up to the longest instruction of three words (R110). -/
def decodeTableWord (nbits w : Nat) : Option Instr :=
  match decodeBytes (wordBytes 3 (w % 2 ^ nbits)) with
  | .ok (i, _) => some i
  | .error _ => none

/-! ## Encoding -/

/-- The word of a double-operand instruction with `op` in bits 15:12 (R101). -/
def encodeDouble (op : Nat) (src dst : Operand) : Nat := 0o10000 * op + 0o100 * src.code + dst.code

/-- The word of a single-operand instruction with `op` in bits 15:6 (R101). -/
def encodeSingle (op : Nat) (dst : Operand) : Nat := 0o100 * op + dst.code

/-- The instruction word as a number (R101, R105). -/
def encodeNat : Instr → Nat
  | .halt => 0o000000
  | .wait => 0o000001
  | .rti => 0o000002
  | .bpt => 0o000003
  | .iot => 0o000004
  | .reset => 0o000005
  | .rtt => 0o000006
  | .jmp d => encodeSingle 0o0001 d
  | .rts r => 0o000200 + r.code
  | .ccop s m => 0o000240 + (if s then 0o20 else 0) + m.toNat
  | .swab d => encodeSingle 0o0003 d
  | .br off => 0o000400 + off.toNat
  | .bne off => 0o001000 + off.toNat
  | .beq off => 0o001400 + off.toNat
  | .bge off => 0o002000 + off.toNat
  | .blt off => 0o002400 + off.toNat
  | .bgt off => 0o003000 + off.toNat
  | .ble off => 0o003400 + off.toNat
  | .jsr r d => 0o004000 + 0o100 * r.code + d.code
  | .clr d => encodeSingle 0o0050 d
  | .com d => encodeSingle 0o0051 d
  | .inc d => encodeSingle 0o0052 d
  | .dec d => encodeSingle 0o0053 d
  | .neg d => encodeSingle 0o0054 d
  | .adc d => encodeSingle 0o0055 d
  | .sbc d => encodeSingle 0o0056 d
  | .tst d => encodeSingle 0o0057 d
  | .ror d => encodeSingle 0o0060 d
  | .rol d => encodeSingle 0o0061 d
  | .asr d => encodeSingle 0o0062 d
  | .asl d => encodeSingle 0o0063 d
  | .mark nn => 0o006400 + nn.toNat
  | .sxt d => encodeSingle 0o0067 d
  | .mov s d => encodeDouble 0o01 s d
  | .cmp s d => encodeDouble 0o02 s d
  | .bit s d => encodeDouble 0o03 s d
  | .bic s d => encodeDouble 0o04 s d
  | .bis s d => encodeDouble 0o05 s d
  | .add s d => encodeDouble 0o06 s d
  | .xor r d => 0o074000 + 0o100 * r.code + d.code
  | .sob r off => 0o077000 + 0o100 * r.code + off.toNat
  | .bpl off => 0o100000 + off.toNat
  | .bmi off => 0o100400 + off.toNat
  | .bhi off => 0o101000 + off.toNat
  | .blos off => 0o101400 + off.toNat
  | .bvc off => 0o102000 + off.toNat
  | .bvs off => 0o102400 + off.toNat
  | .bcc off => 0o103000 + off.toNat
  | .bcs off => 0o103400 + off.toNat
  | .emt num => 0o104000 + num.toNat
  | .trap num => 0o104400 + num.toNat
  | .clrb d => encodeSingle 0o1050 d
  | .comb d => encodeSingle 0o1051 d
  | .incb d => encodeSingle 0o1052 d
  | .decb d => encodeSingle 0o1053 d
  | .negb d => encodeSingle 0o1054 d
  | .adcb d => encodeSingle 0o1055 d
  | .sbcb d => encodeSingle 0o1056 d
  | .tstb d => encodeSingle 0o1057 d
  | .rorb d => encodeSingle 0o1060 d
  | .rolb d => encodeSingle 0o1061 d
  | .asrb d => encodeSingle 0o1062 d
  | .aslb d => encodeSingle 0o1063 d
  | .mtps d => encodeSingle 0o1064 d
  | .mfps d => encodeSingle 0o1067 d
  | .movb s d => encodeDouble 0o11 s d
  | .cmpb s d => encodeDouble 0o12 s d
  | .bitb s d => encodeDouble 0o13 s d
  | .bicb s d => encodeDouble 0o14 s d
  | .bisb s d => encodeDouble 0o15 s d
  | .sub s d => encodeDouble 0o16 s d
  | .reserved w => w.toNat

/-- The instruction word of an instruction (R101, R105). -/
def encode (i : Instr) : Word := BitVec.ofNat 16 (encodeNat i)

/-- The number of extension words an operand field consumes (R110). -/
def Operand.extensionWords (o : Operand) : Nat :=
  match o.mode with
  | .index | .indexDef => 1
  | .autoInc | .autoIncDef => if o.reg = .pc then 1 else 0
  | _ => 0

/-- The operand fields of an instruction, in the order their extension words come (R102, R110). -/
def Instr.operands : Instr → List Operand
  | .jmp d | .jsr _ d | .xor _ d | .swab d | .clr d | .com d | .inc d | .dec d | .neg d | .adc d | .sbc d | .tst d
  | .ror d | .rol d | .asr d | .asl d | .sxt d | .clrb d | .comb d | .incb d | .decb d | .negb d | .adcb d | .sbcb d
  | .tstb d | .rorb d | .rolb d | .asrb d | .aslb d | .mtps d | .mfps d => [d]
  | .mov s d | .cmp s d | .bit s d | .bic s d | .bis s d | .add s d | .movb s d | .cmpb s d | .bitb s d | .bicb s d
  | .bisb s d | .sub s d => [s, d]
  | _ => []

/-- The length of an instruction in bytes: 2, 4 or 6 (R110). -/
def Instr.lengthBytes (i : Instr) : Nat := 2 + 2 * (i.operands.map Operand.extensionWords).sum

/-! ## The opcode table -/

/-- One row of R105 or R112: a word `i` belongs to it when `i & mask = pattern`. -/
structure OpcodeRow where
  mnemonic : String
  pattern : Nat
  mask : Nat
  deriving DecidableEq, Repr

/-- R105: the row covers the word. -/
def OpcodeRow.covers (r : OpcodeRow) (w : Word) : Bool := decide (w.toNat &&& r.mask = r.pattern)

/-- Rows 1 to 12 of spec/opcode_table.json. -/
def opcodeRowsA : List OpcodeRow :=
  [⟨"HALT", 0o000000, 0o177777⟩,
   ⟨"WAIT", 0o000001, 0o177777⟩,
   ⟨"RTI", 0o000002, 0o177777⟩,
   ⟨"BPT", 0o000003, 0o177777⟩,
   ⟨"IOT", 0o000004, 0o177777⟩,
   ⟨"RESET", 0o000005, 0o177777⟩,
   ⟨"RTT", 0o000006, 0o177777⟩,
   ⟨"JMP", 0o000100, 0o177700⟩,
   ⟨"RTS", 0o000200, 0o177770⟩,
   ⟨"CCOP", 0o000240, 0o177740⟩,
   ⟨"SWAB", 0o000300, 0o177700⟩,
   ⟨"BR", 0o000400, 0o177400⟩]

/-- Rows 13 to 24 of spec/opcode_table.json. -/
def opcodeRowsB : List OpcodeRow :=
  [⟨"BNE", 0o001000, 0o177400⟩,
   ⟨"BEQ", 0o001400, 0o177400⟩,
   ⟨"BGE", 0o002000, 0o177400⟩,
   ⟨"BLT", 0o002400, 0o177400⟩,
   ⟨"BGT", 0o003000, 0o177400⟩,
   ⟨"BLE", 0o003400, 0o177400⟩,
   ⟨"JSR", 0o004000, 0o177000⟩,
   ⟨"CLR", 0o005000, 0o177700⟩,
   ⟨"COM", 0o005100, 0o177700⟩,
   ⟨"INC", 0o005200, 0o177700⟩,
   ⟨"DEC", 0o005300, 0o177700⟩,
   ⟨"NEG", 0o005400, 0o177700⟩]

/-- Rows 25 to 36 of spec/opcode_table.json. -/
def opcodeRowsC : List OpcodeRow :=
  [⟨"ADC", 0o005500, 0o177700⟩,
   ⟨"SBC", 0o005600, 0o177700⟩,
   ⟨"TST", 0o005700, 0o177700⟩,
   ⟨"ROR", 0o006000, 0o177700⟩,
   ⟨"ROL", 0o006100, 0o177700⟩,
   ⟨"ASR", 0o006200, 0o177700⟩,
   ⟨"ASL", 0o006300, 0o177700⟩,
   ⟨"MARK", 0o006400, 0o177700⟩,
   ⟨"SXT", 0o006700, 0o177700⟩,
   ⟨"MOV", 0o010000, 0o170000⟩,
   ⟨"CMP", 0o020000, 0o170000⟩,
   ⟨"BIT", 0o030000, 0o170000⟩]

/-- Rows 37 to 48 of spec/opcode_table.json. -/
def opcodeRowsD : List OpcodeRow :=
  [⟨"BIC", 0o040000, 0o170000⟩,
   ⟨"BIS", 0o050000, 0o170000⟩,
   ⟨"ADD", 0o060000, 0o170000⟩,
   ⟨"XOR", 0o074000, 0o177000⟩,
   ⟨"SOB", 0o077000, 0o177000⟩,
   ⟨"BPL", 0o100000, 0o177400⟩,
   ⟨"BMI", 0o100400, 0o177400⟩,
   ⟨"BHI", 0o101000, 0o177400⟩,
   ⟨"BLOS", 0o101400, 0o177400⟩,
   ⟨"BVC", 0o102000, 0o177400⟩,
   ⟨"BVS", 0o102400, 0o177400⟩,
   ⟨"BCC", 0o103000, 0o177400⟩]

/-- Rows 49 to 60 of spec/opcode_table.json. -/
def opcodeRowsE : List OpcodeRow :=
  [⟨"BCS", 0o103400, 0o177400⟩,
   ⟨"EMT", 0o104000, 0o177400⟩,
   ⟨"TRAP", 0o104400, 0o177400⟩,
   ⟨"CLRB", 0o105000, 0o177700⟩,
   ⟨"COMB", 0o105100, 0o177700⟩,
   ⟨"INCB", 0o105200, 0o177700⟩,
   ⟨"DECB", 0o105300, 0o177700⟩,
   ⟨"NEGB", 0o105400, 0o177700⟩,
   ⟨"ADCB", 0o105500, 0o177700⟩,
   ⟨"SBCB", 0o105600, 0o177700⟩,
   ⟨"TSTB", 0o105700, 0o177700⟩,
   ⟨"RORB", 0o106000, 0o177700⟩]

/-- Rows 61 to 72 of spec/opcode_table.json. -/
def opcodeRowsF : List OpcodeRow :=
  [⟨"ROLB", 0o106100, 0o177700⟩,
   ⟨"ASRB", 0o106200, 0o177700⟩,
   ⟨"ASLB", 0o106300, 0o177700⟩,
   ⟨"MTPS", 0o106400, 0o177700⟩,
   ⟨"MFPS", 0o106700, 0o177700⟩,
   ⟨"MOVB", 0o110000, 0o170000⟩,
   ⟨"CMPB", 0o120000, 0o170000⟩,
   ⟨"BITB", 0o130000, 0o170000⟩,
   ⟨"BICB", 0o140000, 0o170000⟩,
   ⟨"BISB", 0o150000, 0o170000⟩,
   ⟨"SUB", 0o160000, 0o170000⟩,
   ⟨"RESERVED", 0o000007, 0o177777⟩]

/-- Rows 73 to 84 of spec/opcode_table.json. -/
def opcodeRowsG : List OpcodeRow :=
  [⟨"RESERVED", 0o000010, 0o177770⟩,
   ⟨"RESERVED", 0o000020, 0o177760⟩,
   ⟨"RESERVED", 0o000040, 0o177740⟩,
   ⟨"RESERVED", 0o000210, 0o177770⟩,
   ⟨"RESERVED", 0o000220, 0o177760⟩,
   ⟨"RESERVED", 0o006500, 0o177700⟩,
   ⟨"RESERVED", 0o006600, 0o177700⟩,
   ⟨"RESERVED", 0o007000, 0o177000⟩,
   ⟨"RESERVED", 0o070000, 0o174000⟩,
   ⟨"RESERVED", 0o075000, 0o177000⟩,
   ⟨"RESERVED", 0o076000, 0o177000⟩,
   ⟨"RESERVED", 0o106500, 0o177700⟩]

/-- Rows 85 to 87 of spec/opcode_table.json. -/
def opcodeRowsH : List OpcodeRow :=
  [⟨"RESERVED", 0o106600, 0o177700⟩,
   ⟨"RESERVED", 0o107000, 0o177000⟩,
   ⟨"RESERVED", 0o170000, 0o170000⟩]

/-- spec/opcode_table.json: the rows of R105 and the reserved rows of R112. -/
def opcodeTable : List OpcodeRow :=
  opcodeRowsA ++ opcodeRowsB ++ opcodeRowsC ++ opcodeRowsD ++ opcodeRowsE ++ opcodeRowsF ++ opcodeRowsG ++ opcodeRowsH

/-- The mnemonic of an instruction, as spec/opcode_table.json spells it. -/
def Instr.mnemonic : Instr → String
  | .halt .. => "HALT"
  | .wait .. => "WAIT"
  | .rti .. => "RTI"
  | .bpt .. => "BPT"
  | .iot .. => "IOT"
  | .reset .. => "RESET"
  | .rtt .. => "RTT"
  | .jmp .. => "JMP"
  | .rts .. => "RTS"
  | .ccop .. => "CCOP"
  | .swab .. => "SWAB"
  | .br .. => "BR"
  | .bne .. => "BNE"
  | .beq .. => "BEQ"
  | .bge .. => "BGE"
  | .blt .. => "BLT"
  | .bgt .. => "BGT"
  | .ble .. => "BLE"
  | .jsr .. => "JSR"
  | .clr .. => "CLR"
  | .com .. => "COM"
  | .inc .. => "INC"
  | .dec .. => "DEC"
  | .neg .. => "NEG"
  | .adc .. => "ADC"
  | .sbc .. => "SBC"
  | .tst .. => "TST"
  | .ror .. => "ROR"
  | .rol .. => "ROL"
  | .asr .. => "ASR"
  | .asl .. => "ASL"
  | .mark .. => "MARK"
  | .sxt .. => "SXT"
  | .mov .. => "MOV"
  | .cmp .. => "CMP"
  | .bit .. => "BIT"
  | .bic .. => "BIC"
  | .bis .. => "BIS"
  | .add .. => "ADD"
  | .xor .. => "XOR"
  | .sob .. => "SOB"
  | .bpl .. => "BPL"
  | .bmi .. => "BMI"
  | .bhi .. => "BHI"
  | .blos .. => "BLOS"
  | .bvc .. => "BVC"
  | .bvs .. => "BVS"
  | .bcc .. => "BCC"
  | .bcs .. => "BCS"
  | .emt .. => "EMT"
  | .trap .. => "TRAP"
  | .clrb .. => "CLRB"
  | .comb .. => "COMB"
  | .incb .. => "INCB"
  | .decb .. => "DECB"
  | .negb .. => "NEGB"
  | .adcb .. => "ADCB"
  | .sbcb .. => "SBCB"
  | .tstb .. => "TSTB"
  | .rorb .. => "RORB"
  | .rolb .. => "ROLB"
  | .asrb .. => "ASRB"
  | .aslb .. => "ASLB"
  | .mtps .. => "MTPS"
  | .mfps .. => "MFPS"
  | .movb .. => "MOVB"
  | .cmpb .. => "CMPB"
  | .bitb .. => "BITB"
  | .bicb .. => "BICB"
  | .bisb .. => "BISB"
  | .sub .. => "SUB"
  | .reserved .. => "RESERVED"

end Sys2Proof
end

