-- ==== Sys2Proof/Config.lean ====
section
/-! DEFINITION. The implementation parameters (00_scope.md R5, 62_floppy_controller.md R381,
63_ide_controller.md R421) as plain data, and the free values and open functions as constants without a body.
A state carries its parameters (log 1), so a statement about every state is one about every parameter. -/

namespace Sys2Proof

/-! ## Bus parameters -/

/-- What a word access at an odd address does (20_memory.md R64, decision D10). -/
inductive OddWordAccess where
  | ignoreBit0
  | busError
  deriving DecidableEq, Repr

/-- What the fetch of an instruction word does at the address of a device. 70_reset_and_hazards.md R462 calls it a bus
error; 20_memory.md R66 and 60_exceptions.md R321, read alone, would let the device answer (log 37). -/
inductive DeviceFetch where
  | busError
  | deviceAnswers
  deriving DecidableEq, Repr

/-- RAM or ROM (R61, R69). -/
inductive MemKind where
  | ram
  | rom
  deriving DecidableEq, Repr

/-- One region of a memory map: the addresses from `base` on, `size` of them, are the cells from `cell` on of the
backing store (R61, R62). -/
structure Region where
  kind : MemKind
  base : Nat
  size : Nat
  cell : Nat
  deriving DecidableEq, Repr

/-- A memory map (R61): the first region that holds an address decides. -/
abbrev MemMap := List Region

/-- The device variants (61_bus_timebase.md R352); the IDE controller stands for both of its variants. -/
inductive DevId where
  | floppyController
  | ideController
  | keyboardController
  | videoController
  | videoControllerManager
  | systemTimer
  | memoryManager
  | peripheralPort
  | sel1RegisterSystemBits
  deriving DecidableEq, Repr

/-- An installed device (R351, R354): its word addresses, in the order of its registers, and whether it has a
timer hook. -/
structure DevEntry where
  dev : DevId
  addrs : List Word
  hasTimer : Bool
  deriving DecidableEq, Repr

/-- The three request lines (60_exceptions.md R310). -/
inductive IrqLine where
  | irq1
  | irq2
  deriving DecidableEq, Repr

/-- A request a device raises (R310): one of the two lines, or the virtual request with its vector. -/
inductive Raise where
  | line (l : IrqLine)
  | virq (v : Word)
  deriving DecidableEq, Repr

/-- A call a device receives (R354, R365), with the time it carries; `key` is a key press of the host (R364). -/
inductive DevCall where
  | init (t : Nat) (isHardwareReset : Bool)
  | read (t : Nat) (addr : Word)
  | write (t : Nat) (isByteMode : Bool) (addr value : Word)
  | timer (t : Nat)
  | key (t : Nat) (vector : Word)
  deriving DecidableEq, Repr

/-! ## Processor parameters -/

/-- UNNAMED_OPCODES (47_unnamed_extensions.md R270, decision D2, U11): the nine classes the document counts but does
not name are executed or refused. -/
inductive UnnamedOpcodes where
  | execute
  | refuse
  deriving DecidableEq, Repr

/-- V after SBC (93_implementation_defined.md U7): true overflow, or the handbooks' wording. -/
inductive SbcOverflow where
  | trueOverflow
  | operandIsSign
  deriving DecidableEq, Repr

/-- The vector addresses (R5, decisions D7 and D8). -/
structure Vectors where
  busError : Word
  reserved : Word
  bpt : Word
  iot : Word
  emt : Word
  trap : Word
  irq1 : Word
  irq2 : Word
  deriving DecidableEq, Repr

/-- The timing parameters (R470, decision D19). An instruction costs its entry of `table`, or `base`, and one tick
more, so every cost is at least 1; the same holds of an idle tick. -/
structure Timing where
  table : List (Word × Nat)
  base : Nat
  trapTime : Nat
  idleExtra : Nat
  deriving DecidableEq, Repr

/-! ## Floppy parameters -/

/-- The open constants of the floppy controller (R381, U14): sizes and lengths in words, physical times in nanoseconds
(61_bus_timebase.md R363), raw words, and the bit numbers of the control and status registers, each of the four
drive-select bits on its own. `writeEndByPosition` says how the words since the last write are counted (R394; log 18). -/
structure FloppyConstants where
  wordsPerTrack : Nat
  wordNs : Nat
  indexHoleNs : Nat
  gap1 : Nat
  gap2 : Nat
  gap3 : Nat
  sync : Nat
  gapFill : Word
  syncFill : Word
  idMark : List Word
  dataMark : List Word
  sizeCode : Byte
  selectA : Nat
  selectB : Nat
  selectC : Nat
  selectD : Nat
  motorBit : Nat
  sideBit : Nat
  dirBit : Nat
  stepBit : Nat
  gorBit : Nat
  wmBit : Nat
  dirOneIsInward : Bool
  track0Bit : Nat
  protectBit : Nat
  trBit : Nat
  crcBit : Nat
  indexBit : Nat
  crcFlagWords : Nat
  writeEndWords : Nat
  writeEndByPosition : Bool
  deriving DecidableEq, Repr

/-- The constants together with the clock their ticks are counted in. -/
structure FloppyParams extends FloppyConstants where
  clockHz : Nat
  deriving DecidableEq, Repr

/-! ## IDE parameters -/

/-- The commands of 63_ide_controller.md R427. -/
inductive IdeCommand where
  | identify
  | read
  | readMultiple
  | write
  | writeMultiple
  | setMultiple
  | recalibrate
  | initDriveParams
  | checkPowerMode
  | verify
  | flushCache
  | standby
  | idle
  | execDiagnostic
  deriving DecidableEq, Repr

/-- Where IDENTIFY puts its fields: word offsets (R421, R428). -/
structure IdentifyLayout where
  cylinders : Nat
  heads : Nat
  sectors : Nat
  serial : Nat
  serialWords : Nat
  model : Nat
  modelWords : Nat
  maxMultiple : Nat
  capabilities : Nat
  lbaBit : Nat
  totalLow : Nat
  totalHigh : Nat
  deriving DecidableEq, Repr

/-- The open constants of the IDE controller (R421): masks of the status and error bits, bit numbers of the
drive/head register (`headBit` the lowest bit of the head field, `headWidth` its width), command codes, IDENTIFY
layout, and whether the variant presents its registers inverted (R433). -/
structure IdeParams where
  bsy : Byte
  drdy : Byte
  drq : Byte
  err : Byte
  abrt : Byte
  driveBit : Nat
  lbaBit : Nat
  headBit : Nat
  headWidth : Nat
  commands : List (Byte × IdeCommand)
  layout : IdentifyLayout
  inverted : Bool
  deriving DecidableEq, Repr

/-- A drive geometry: cylinders, heads, sectors (R422, R426). -/
structure Geometry where
  cylinders : Nat
  heads : Nat
  sectors : Nat
  deriving DecidableEq, Repr

/-! ## All parameters -/

/-- The parameters a machine is built with (R5). No step changes them. -/
structure Params where
  oddWordAccess : OddWordAccess
  deviceFetch : DeviceFetch
  unnamedOpcodes : UnnamedOpcodes
  pswMask : Word
  vectors : Vectors
  startAddress : Word
  resetPsw : Word
  sbcOverflow : SbcOverflow
  timing : Timing
  clockHz : Nat
  maps : List MemMap
  devices : List DevEntry
  timerLine : IrqLine
  floppy : FloppyConstants
  ide : IdeParams
  deriving DecidableEq, Repr

/-! ## Free values and open functions

Constants without a body: nothing can be proved about their values. -/

/-- A value the spec leaves open, "any value" (93 U8), for each number of a draw (log 17). -/
opaque Config.freeWord : Nat → Word

/-- The byte of a disk image at an offset its file does not reach; the spec says nothing of it (log 22). -/
opaque Config.absentImageByte : Nat → Byte

/-- The raw word at a position of a track of which nothing is known (R397, U8; log 22). -/
opaque Config.blankTrackWord : Nat → Word

/-- The 16-bit check over a span of raw words (R381 `Crc`, open; log 22). -/
opaque Config.floppyCrc : List Word → Word

/-- The geometry of an AltPro header, if the image has one (R426, a parameter function; log 29). -/
opaque Config.altProGeometry : List Byte → Option Geometry

/-- What a device without a described behaviour answers to a read: a word, or none for BUS_ERROR, as a function of
the calls it has received, the read the last of them (R354, R365, R366; log 14). -/
opaque Config.deviceRead : DevId → List DevCall → Option Word

/-- Whether such a device takes a written value (R354, R356; log 14). -/
opaque Config.deviceCommits : DevId → List DevCall → Bool

/-- The requests such a device raises during its last call (R310, R354; log 14). -/
opaque Config.deviceRaises : DevId → List DevCall → List Raise

/-- The memory map the memory manager has selected after its calls (20_memory.md R62; log 16). -/
opaque Config.managerMap : List DevCall → Nat

end Sys2Proof
end

