-- ==== Sys2Proof/Machine/Clock.lean ====
section
/-! DEFINITION. The conversion between nanoseconds and ticks (61_bus_timebase.md R363), and the constants that are
derived by it. -/

namespace Sys2Proof

/-- R363: nanoseconds to ticks of a clock. -/
def nsToTicks (clockHz ns : Nat) : Nat := ns * clockHz / 1000000000

/-- R363: ticks of a clock to nanoseconds. -/
def ticksToNs (clockHz ticks : Nat) : Nat := ticks * 1000000000 / clockHz

/-- `clockTicksPerWord` (62_floppy_controller.md R381), derived from the clock and a physical time (R363). -/
def FloppyParams.ticksPerWord (p : FloppyParams) : Nat := nsToTicks p.clockHz p.wordNs

/-- `clockTicksPerIndexHole` (R381), derived likewise. -/
def FloppyParams.ticksPerIndexHole (p : FloppyParams) : Nat := nsToTicks p.clockHz p.indexHoleNs

/-- The floppy controller's constants on the clock of the machine. -/
def Params.floppyParams (p : Params) : FloppyParams := { p.floppy with clockHz := p.clockHz }

end Sys2Proof
end

