-- ==== Sys2Proof/Machine/Memory.lean ====
section
/-! DEFINITION. The backing store of RAM and ROM: a list of (cell number, byte) pairs in one canonical form
(20_memory.md R60, R61), and the byte order of words (R63). -/

namespace Sys2Proof.Machine

/-- The bytes of RAM and ROM that differ from what an unlisted cell reads as, by cell number. -/
abbrev Memory := List Host.Cell

/-- What an unlisted cell reads as. DESIGN CHOICE (log 3): the spec leaves the contents of RAM after power-on
unspecified (10_state.md R50). -/
def Memory.blank : Byte := 0

/-- The byte of cell `p`. -/
def Memory.get : Memory → Nat → Byte
  | [], _ => Memory.blank
  | (q, b) :: m, p => if q = p then b else Memory.get m p

/-- `b :: rest` at cell `p`, or just `rest` when `b` is what an unlisted cell reads as. -/
def Memory.put (p : Nat) (b : Byte) (rest : Memory) : Memory :=
  if b = Memory.blank then rest else (p, b) :: rest

/-- Write byte `b` to cell `p`, keeping the canonical form. -/
def Memory.set : Memory → Nat → Byte → Memory
  | [], p, b => Memory.put p b []
  | (q, c) :: m, p, b =>
    if p < q then Memory.put p b ((q, c) :: m)
    else if p = q then Memory.put p b m
    else (q, c) :: Memory.set m p b

/-- Every listed cell is at least `lo`, the cells rise strictly, and none holds the unlisted value. -/
def Memory.wfFrom : Nat → Memory → Bool
  | _, [] => true
  | lo, (q, b) :: m => decide (lo ≤ q) && !decide (b = Memory.blank) && Memory.wfFrom (q + 1) m

/-- The canonical form. -/
def Memory.wf (m : Memory) : Bool := Memory.wfFrom 0 m

/-- The low byte of a word, bits 7:0 (R63). -/
def lowByte (w : Word) : Byte := w.setWidth 8

/-- The high byte of a word, bits 15:8 (R63). -/
def highByte (w : Word) : Byte := (w >>> 8).setWidth 8

/-- A word from its two bytes, `hi ++ lo` (R7, R63). -/
def joinBytes (hi lo : Byte) : Word := hi ++ lo

/-- The word whose low byte is in cell `p`: little-endian (R63). -/
def Memory.getWord (m : Memory) (p : Nat) : Word := joinBytes (m.get (p + 1)) (m.get p)

/-- Write a word with its low byte to cell `p` (R63). -/
def Memory.setWord (m : Memory) (p : Nat) (w : Word) : Memory :=
  (m.set p (lowByte w)).set (p + 1) (highByte w)

/-- The cells outside those that `drop` names. -/
def Memory.without (drop : Nat → Bool) : Memory → Memory
  | [] => []
  | (q, b) :: m => if drop q then Memory.without drop m else (q, b) :: Memory.without drop m

end Sys2Proof.Machine
end

