-- ==== Sys2Proof/Machine/Floppy.lean ====
section
/-! DEFINITION. The floppy controller (62_floppy_controller.md): its state, rotation, registers, synchronous read,
write, flush, track building, mount and unmount. Everything is a function of the `cpuTime` of an access (R380). -/

namespace Sys2Proof.Machine

/-! ## State (R382) -/

/-- The drives A to D. -/
inductive DriveLetter where
  | a | b | c | d
  deriving DecidableEq, Repr

/-- The synchronous-read state (R391). -/
inductive SyncState where
  | idle
  | searching
  | found
  deriving DecidableEq, Repr

/-- The write state (R393). -/
inductive WriteState where
  | idle
  | writing
  deriving DecidableEq, Repr

/-- One entry of a track buffer: the raw word, its first byte in bits 15:8 (R386), and its marker tag. -/
structure RawWord where
  word : Word
  marker : Bool
  deriving DecidableEq, Repr

/-- A drive (R382): the mounted image, the head's track and side, the track buffer. With no image the buffer is empty:
its contents are unspecified and it tags no marker (R397). -/
structure FloppyDrive where
  image : Option (List Byte)
  writeProtect : Bool
  track : Nat
  side : Bool
  lastTrack : Nat
  buffer : List RawWord
  dirty : Bool
  deriving DecidableEq, Repr

/-- The controller (R382). Head positions that are compared with the present one are kept as counts of words since
time 0, of which the position is the remainder by `WORDS_PER_TRACK` (log 19). -/
structure Floppy where
  selected : Option DriveLetter
  motor : Bool
  side : Bool
  syncState : SyncState
  lastDataWord : Nat
  markerPos : Nat
  readyWord : Nat
  wordsAfterMarker : Nat
  crcFlag : Bool
  writeState : WriteState
  lastWriteTime : Nat
  lastMarkerPos : Nat
  wm : Bool
  driveA : FloppyDrive
  driveB : FloppyDrive
  driveC : FloppyDrive
  driveD : FloppyDrive
  deriving DecidableEq, Repr

/-- A drive with nothing mounted (log 23). -/
def FloppyDrive.empty : FloppyDrive :=
  { image := none, writeProtect := false, track := 0, side := false, lastTrack := 0, buffer := [], dirty := false }

/-- The controller after power-on with nothing mounted (R399; log 19, log 23). -/
def Floppy.powerOn : Floppy :=
  { selected := none, motor := false, side := false, syncState := .idle, lastDataWord := 0, markerPos := 0
    readyWord := 0, wordsAfterMarker := 0, crcFlag := false, writeState := .idle, lastWriteTime := 0
    lastMarkerPos := 0, wm := false
    driveA := .empty, driveB := .empty, driveC := .empty, driveD := .empty }

/-- One drive. -/
def Floppy.drive (f : Floppy) : DriveLetter → FloppyDrive
  | .a => f.driveA | .b => f.driveB | .c => f.driveC | .d => f.driveD

/-- Replace one drive. -/
def Floppy.setDrive (f : Floppy) (l : DriveLetter) (x : FloppyDrive) : Floppy :=
  match l with
  | .a => { f with driveA := x }
  | .b => { f with driveB := x }
  | .c => { f with driveC := x }
  | .d => { f with driveD := x }

/-- Change the selected drive, if one is selected. -/
def Floppy.modifySelected (f : Floppy) (g : FloppyDrive → FloppyDrive) : Floppy :=
  match f.selected with
  | none => f
  | some l => f.setDrive l (g (f.drive l))

/-- The selected drive's track buffer; empty when no drive is selected. -/
def Floppy.buffer (f : Floppy) : List RawWord :=
  match f.selected with
  | none => []
  | some l => (f.drive l).buffer

/-! ## Constants (R381) -/

/-- Sectors on a track. -/
def sectorsPerTrack : Nat := 10

/-- Data bytes in a sector. -/
def bytesPerSector : Nat := 512

/-- Tracks a side may have. -/
def maxTracks : Nat := 82

/-- Ticks of one rotation: `WORDS_PER_TRACK * clockTicksPerWord` (decision D31). -/
def ticksPerTrack (p : FloppyParams) : Nat := p.wordsPerTrack * p.ticksPerWord

/-! ## Rotation (R384, R385) -/

/-- How many raw words have passed the head by time `t`. -/
def wordCount (p : FloppyParams) (t : Nat) : Nat := t / p.ticksPerWord

/-- R384: the head position. -/
def headPos (p : FloppyParams) (t : Nat) : Nat := wordCount p t % p.wordsPerTrack

/-- R385: the index pulse. -/
def indexActive (p : FloppyParams) (t : Nat) : Bool := decide (t % ticksPerTrack p < p.ticksPerIndexHole)

/-! ## Words and spans of a track -/

/-- Exchange the two bytes of a word: the medium is big-endian, the register little-endian (R392, R393). -/
def swapBytes (w : Word) : Word := joinBytes (lowByte w) (highByte w)

/-- The raw word at position `i`; unspecified where the buffer has none (R397). -/
def trackWord (buf : List RawWord) (i : Nat) : Word :=
  match buf[i]? with
  | some r => r.word
  | none => Config.blankTrackWord i

/-- The raw words from position `start` on, `n` of them, around the track. -/
def trackSpan (p : FloppyParams) (buf : List RawWord) (start n : Nat) : List Word :=
  (List.range n).map fun k => trackWord buf ((start + k) % p.wordsPerTrack)

/-- The words from position `i` up to the one before `j`, in rotation order. -/
def trackBetween (p : FloppyParams) (buf : List RawWord) (i j : Nat) : List Word :=
  trackSpan p buf i ((j + p.wordsPerTrack - i) % p.wordsPerTrack)

/-- The entry at position `i` carries the marker tag. -/
def markerAt (buf : List RawWord) (i : Nat) : Bool :=
  match buf[i]? with
  | some r => r.marker
  | none => false

/-! ## Track layout and image (R386, R397) -/

/-- R386: the image offset of sector `s` (from 1) of track `k`, side `h`. -/
def imageOffset (k h s : Nat) : Nat := ((k * 2 + h) * sectorsPerTrack + (s - 1)) * bytesPerSector

/-- The byte of an image at an offset; open where the file has none (log 22). -/
def imageByte (img : List Byte) (i : Nat) : Byte :=
  match img[i]? with
  | some b => b
  | none => Config.absentImageByte i

/-- `n` raw words of an image from byte `off` on, first byte in bits 15:8 (R386). -/
def imageWords (img : List Byte) (off n : Nat) : List Word :=
  (List.range n).map fun i => joinBytes (imageByte img (off + 2 * i)) (imageByte img (off + 2 * i + 1))

/-- The bytes of raw words, first byte from bits 15:8 (R386). -/
def rawBytes (ws : List Word) : List Byte := ws.flatMap fun w => [highByte w, lowByte w]

/-- An untagged run of one raw word. -/
def fillWords (n : Nat) (w : Word) : List RawWord := List.replicate n ⟨w, false⟩

/-- An area that begins with a marker: its first word tagged, its CRC after it (R386, R397). -/
def markedArea (body : List Word) : List RawWord :=
  match body with
  | [] => [⟨Config.floppyCrc [], false⟩]
  | w :: ws => ⟨w, true⟩ :: (ws.map fun x => ⟨x, false⟩) ++ [⟨Config.floppyCrc (w :: ws), false⟩]

/-- The two header words: track and side, sector and size code (log 21). -/
def headerWords (p : FloppyParams) (k h s : Nat) : List Word :=
  [joinBytes (BitVec.ofNat 8 k) (BitVec.ofNat 8 h), joinBytes (BitVec.ofNat 8 s) p.sizeCode]

/-- One sector of a track: SYNC, ID area, GAP2, SYNC, DATA area, GAP3 (R386). -/
def sectorArea (p : FloppyParams) (img : List Byte) (k h s : Nat) : List RawWord :=
  fillWords p.sync p.syncFill ++ markedArea (p.idMark ++ headerWords p k h s) ++ fillWords p.gap2 p.gapFill
    ++ fillWords p.sync p.syncFill ++ markedArea (p.dataMark ++ imageWords img (imageOffset k h s) 256)
    ++ fillWords p.gap3 p.gapFill

/-- R386, R397: the track buffer of track `k`, side `h`; the final gap fills the track. -/
def buildTrack (p : FloppyParams) (img : List Byte) (k h : Nat) : List RawWord :=
  (fillWords p.gap1 p.gapFill ++ (List.range sectorsPerTrack).flatMap (fun i => sectorArea p img k h (i + 1))
    ++ fillWords p.wordsPerTrack p.gapFill).take p.wordsPerTrack

/-- The side as a number. -/
def sideNumber (side : Bool) : Nat := if side then 1 else 0

/-- Reconstruct the buffer of a drive, for its track and side, from its image (R397). -/
def FloppyDrive.rebuild (p : FloppyParams) (x : FloppyDrive) : FloppyDrive :=
  match x.image with
  | none => { x with buffer := [] }
  | some img => { x with buffer := buildTrack p img x.track (sideNumber x.side) }

/-! ## Flush (R395) -/

/-- The buffer holds, from position `i` on, a tagged word and the words of marker `m`. -/
def markAt (buf : List RawWord) (m : List Word) (i : Nat) : Bool :=
  markerAt buf i && decide (((buf.drop i).take m.length).map RawWord.word = m)

/-- The words of the buffer from `i` up to `j - 1`. -/
def bufferWords (buf : List RawWord) (i j : Nat) : List Word := ((buf.drop i).take (j - i)).map RawWord.word

/-- The check word at position `j` is the CRC of the words from `i` to `j - 1`. -/
def crcGood (buf : List RawWord) (i j : Nat) : Bool :=
  match buf[j]? with
  | some r => decide (r.word = Config.floppyCrc (bufferWords buf i j))
  | none => false

/-- Overwrite bytes of an image (R395). DESIGN CHOICE: an area that runs past the end of the image is left, and the image
is not extended (R395 is silent; log 21 for a flush, log 27 for an IDE drive). -/
def overwriteImage (img : List Byte) (off : Nat) (bs : List Byte) : List Byte :=
  if off + bs.length ≤ img.length then img.take off ++ bs ++ img.drop (off + bs.length) else img

/-- Write back the sector whose ID marker is at position `i`, if header and data CRC validate (R395). DESIGN CHOICE: the
scan runs once from position 0 to the end of the buffer and does not wrap, so that a sector whose ID or data area
crosses the end of the raw track is skipped (log 21). -/
def flushSector (p : FloppyParams) (buf : List RawWord) (img : List Byte) (i : Nat) : List Byte :=
  let hp := i + p.idMark.length
  if markAt buf p.idMark i && crcGood buf i (hp + 2) then
    let k := (highByte (trackWord buf hp)).toNat
    let h := (lowByte (trackWord buf hp)).toNat
    let s := (highByte (trackWord buf (hp + 1))).toNat
    match (List.range' (hp + 3) (buf.length - (hp + 3))).find? (markAt buf p.dataMark) with
    | none => img
    | some j =>
      let dp := j + p.dataMark.length
      if crcGood buf j (dp + 256) && decide (h < 2) && decide (1 ≤ s) && decide (s ≤ sectorsPerTrack) then
        overwriteImage img (imageOffset k h s) (rawBytes (bufferWords buf dp (dp + 256)))
      else img
  else img

/-- R395: flush a drive that is dirty: scan for markers in order and write the valid sectors to the image. -/
def FloppyDrive.flush (p : FloppyParams) (x : FloppyDrive) : FloppyDrive :=
  if x.dirty then
    match x.image with
    | none => { x with dirty := false }
    | some img =>
      { x with image := some ((List.range x.buffer.length).foldl (flushSector p x.buffer) img), dirty := false }
  else x

/-- Flush, then reconstruct the buffer for a side. -/
def FloppyDrive.reload (p : FloppyParams) (side : Bool) (x : FloppyDrive) : FloppyDrive :=
  ({ (x.flush p) with side := side } : FloppyDrive).rebuild p

/-! ## Bringing the state up to a time (R380, R391, R394) -/

/-- The first marker that has passed the head after word `last`, among the next `n` words, as a word count. -/
def findMarker (p : FloppyParams) (buf : List RawWord) (last n : Nat) : Option Nat :=
  (List.range' (last + 1) n).find? fun q => markerAt buf (q % p.wordsPerTrack)

/-- R391: advance the synchronous read to `t`; after more than a rotation the scan covers the track once. -/
def Floppy.advanceSync (p : FloppyParams) (t : Nat) (f : Floppy) : Floppy :=
  match f.syncState with
  | .searching =>
    match findMarker p f.buffer f.lastDataWord (min (wordCount p t - f.lastDataWord) p.wordsPerTrack) with
    | some q =>
      { f with syncState := .found, markerPos := q % p.wordsPerTrack, readyWord := q + 1, wordsAfterMarker := 0 }
    | none => { f with lastDataWord := wordCount p t }
  | _ => f

/-- R394: the words that have elapsed since the last write, counted by time or by the difference of the positions, as
the parameter says (log 18). -/
def Floppy.elapsedWords (p : FloppyParams) (t : Nat) (f : Floppy) : Nat :=
  if p.writeEndByPosition then (headPos p t + p.wordsPerTrack - headPos p f.lastWriteTime) % p.wordsPerTrack
  else (t - f.lastWriteTime) / p.ticksPerWord

/-- Put a word into the track buffer; the drive needs a flush if `dirty`. -/
def FloppyDrive.putWord (i : Nat) (r : RawWord) (dirty : Bool) (x : FloppyDrive) : FloppyDrive :=
  { x with buffer := x.buffer.set i r, dirty := dirty }

/-- R394, R382, R395: advance the write to `t`; once enough words have passed, store the CRC after the last written
word, end the write, and flush the drive. -/
def Floppy.advanceWrite (p : FloppyParams) (t : Nat) (f : Floppy) : Floppy :=
  if f.writeState = .writing ∧ p.writeEndWords ≤ f.elapsedWords p t then
    let q := (headPos p f.lastWriteTime + 1) % p.wordsPerTrack
    let crc := Config.floppyCrc (trackBetween p f.buffer f.lastMarkerPos q)
    { (f.modifySelected fun x => (x.putWord q ⟨crc, false⟩ x.dirty).flush p) with writeState := .idle }
  else f

/-- R380: what every access does first, one that is rejected too (log 20). -/
def Floppy.advance (p : FloppyParams) (t : Nat) (f : Floppy) : Floppy :=
  (f.advanceSync p t).advanceWrite p t

/-- R391: the head has reached the word that is ready and it has not been read. -/
def Floppy.dataReady (p : FloppyParams) (t : Nat) (f : Floppy) : Bool :=
  decide (f.syncState = .found) && decide (f.readyWord ≤ wordCount p t)

/-! ## Registers

The functions of one register act on a state that `Floppy.advance` has brought up to `t`. -/

/-- A word with one bit set when `b`. -/
def bitIf (b : Bool) (i : Nat) : Word := if b then 1 <<< i else 0

/-- R390: what a read of the control register returns; it changes nothing more. -/
def Floppy.controlWord (p : FloppyParams) (t : Nat) (f : Floppy) : Word :=
  let sel := f.selected.map f.drive
  let track0 := match sel with | some x => decide (x.track = 0) | none => false
  let protect := match sel with | some x => x.writeProtect | none => false
  bitIf track0 p.track0Bit ||| bitIf protect p.protectBit ||| bitIf (f.dataReady p t) p.trBit
    ||| bitIf f.crcFlag p.crcBit ||| bitIf (f.selected.isSome && f.motor && indexActive p t) p.indexBit

/-- The select bits (R381, each OPEN) and their drives. -/
def selectBits (p : FloppyParams) : List (Nat × DriveLetter) :=
  [(p.selectA, .a), (p.selectB, .b), (p.selectC, .c), (p.selectD, .d)]

/-- R387: the drive of the lowest set select bit: of the set bits the one with the least number. DESIGN CHOICE: where
two drives have the same bit, the one with the earlier letter (log 18). -/
def selectOf (p : FloppyParams) (v : Word) : Option DriveLetter :=
  (((selectBits p).filter fun b => v.getLsbD b.1).foldl (init := none) fun (best : Option (Nat × DriveLetter)) b =>
    match best with
    | none => some b
    | some a => if b.1 < a.1 then some b else some a).map Prod.snd

/-- R387: a change of drive flushes the old one, ends any write, and builds the new drive's track (R397). -/
def Floppy.select (p : FloppyParams) (new : Option DriveLetter) (f : Floppy) : Floppy :=
  if new = f.selected then f
  else
    ({ (f.modifySelected (FloppyDrive.flush p)) with selected := new, writeState := .idle }).modifySelected
      (FloppyDrive.reload p f.side)

/-- R387: a change of side. -/
def Floppy.setSide (p : FloppyParams) (side : Bool) (f : Floppy) : Floppy :=
  if side = f.side then f
  else ({ f with side := side }).modifySelected (FloppyDrive.reload p side)

/-- R387: where a step pulse moves the head: one track, within [0, lastTrack]. -/
def stepTrack (inward : Bool) (x : FloppyDrive) : Nat := min (if inward then x.track + 1 else x.track - 1) x.lastTrack

/-- R387: a step pulse on a drive. -/
def FloppyDrive.step (p : FloppyParams) (inward : Bool) (x : FloppyDrive) : FloppyDrive :=
  if stepTrack inward x = x.track then x
  else ({ (x.flush p) with track := stepTrack inward x } : FloppyDrive).rebuild p

/-- R387: write the control register. -/
def Floppy.writeControl (p : FloppyParams) (v : Word) (f : Floppy) : Floppy :=
  let f := f.select p (selectOf p v)
  let f := ({ f with motor := v.getLsbD p.motorBit }).setSide p (v.getLsbD p.sideBit)
  let f :=
    if v.getLsbD p.stepBit then
      f.modifySelected (FloppyDrive.step p (v.getLsbD p.dirBit == p.dirOneIsInward))
    else f
  { f with
    syncState := if v.getLsbD p.gorBit then .searching else f.syncState
    wm := v.getLsbD p.wmBit }

/-- R392: read the data register; `none` where the track's contents are unspecified. DESIGN CHOICE: the CRC flag is
computed only while the read is in progress (FOUND), not by a read after it has ended (log 38). -/
def Floppy.readData (p : FloppyParams) (t : Nat) (f : Floppy) : Option Word × Floppy :=
  let here := headPos p t
  let n := f.wordsAfterMarker + 1
  let g : Floppy := { f with lastDataWord := wordCount p t }
  let g : Floppy :=
    if f.syncState = .found then
      { g with
        wordsAfterMarker := n
        readyWord := wordCount p t + 1
        crcFlag :=
          if p.crcFlagWords ≤ n then
            decide (Config.floppyCrc (trackBetween p f.buffer f.markerPos here) = trackWord f.buffer here)
          else f.crcFlag }
    else g
  (f.buffer[here]?.map fun r => swapBytes r.word, g)

/-- R393: the selected drive takes data writes: it has an image and is not write-protected. -/
def Floppy.writable (f : Floppy) : Bool :=
  match f.selected with
  | none => false
  | some l => (f.drive l).image.isSome && !(f.drive l).writeProtect

/-- R393: write the data register; false for "not written". -/
def Floppy.writeData (p : FloppyParams) (t : Nat) (v : Word) (f : Floppy) : Bool × Floppy :=
  if f.writable then
    let here := headPos p t
    let f : Floppy := if f.writeState = .idle then { f with writeState := .writing, syncState := .idle } else f
    let f := f.modifySelected (FloppyDrive.putWord here ⟨swapBytes v, f.wm⟩ true)
    (true, { f with
      lastMarkerPos := if f.wm then here else f.lastMarkerPos
      lastWriteTime := t })
  else (false, f)

/-- A read of register 0 (control) or 1 (data) (R380, R400). -/
def Floppy.read (p : FloppyParams) (reg t : Nat) (f : Floppy) : Option Word × Floppy :=
  let f := f.advance p t
  if reg = 0 then (some (f.controlWord p t), f) else f.readData p t

/-- A write of register 0 (control) or 1 (data) (R380). Byte writes are rejected (20_memory.md R68, R400; log 24). -/
def Floppy.write (p : FloppyParams) (reg t : Nat) (isByteMode : Bool) (v : Word) (f : Floppy) : Bool × Floppy :=
  let f := f.advance p t
  if isByteMode then (false, f)
  else if reg = 0 then (true, f.writeControl p v)
  else f.writeData p t v

/-- R399: `init`. Images, write-protect flags and head tracks stay. -/
def Floppy.init (p : FloppyParams) (f : Floppy) : Floppy :=
  { (f.modifySelected (FloppyDrive.flush p)) with
    selected := none, motor := false, side := false, syncState := .idle, writeState := .idle, crcFlag := false
    wm := false }

/-- The positions and times of the controller counted from time 0 again, as after power-on (log 19). -/
def Floppy.restartClock (f : Floppy) : Floppy :=
  { f with lastDataWord := 0, markerPos := 0, readyWord := 0, wordsAfterMarker := 0, lastWriteTime := 0, lastMarkerPos := 0 }

/-! ## Host operations (R398) -/

/-- Bytes of one track, both sides. -/
def trackBytes : Nat := sectorsPerTrack * bytesPerSector * 2

/-- R398: an image that can be mounted: at most `MAX_TRACKS` tracks, and at least one (log 23). -/
def mountable (img : List Byte) : Bool := decide (trackBytes ≤ img.length) && decide (img.length ≤ maxTracks * trackBytes)

/-- R398: the last track of an image. -/
def lastTrackOf (img : List Byte) : Nat := img.length / trackBytes - 1

/-- R398: flush, then take the image out. -/
def FloppyDrive.unmount (p : FloppyParams) (x : FloppyDrive) : FloppyDrive :=
  { (x.flush p) with image := none, buffer := [] }

/-- R398: mount an image; a failed mount leaves the drive unmounted. DESIGN CHOICE: the write-protect flag comes from
the host with the mount, and is kept by an unmount and by a mount that fails (log 23). -/
def FloppyDrive.mount (p : FloppyParams) (img : List Byte) (protect : Bool) (x : FloppyDrive) : FloppyDrive :=
  let y := x.unmount p
  if mountable img then
    ({ y with image := some img, writeProtect := protect, lastTrack := lastTrackOf img } : FloppyDrive).rebuild p
  else y

end Sys2Proof.Machine
end

