-- ==== Sys2Proof/Machine/Ide.lean ====
section
/-! DEFINITION. The IDE controller (63_ide_controller.md): task registers, sector addressing, commands, data
register, end of transfer, abort and reset. -/

namespace Sys2Proof.Machine

/-! ## State (R422, R423) -/

/-- The status bits (R421). -/
structure IdeStatus where
  bsy : Bool
  drdy : Bool
  drq : Bool
  err : Bool
  deriving DecidableEq, Repr

/-- What happens when the transfer buffer is exhausted (R422, R430). DESIGN CHOICE: when `forceStop` is installed is not in
the document (R430, 91_not_in_source.md), and the model installs it nowhere (log 39). -/
inductive EndFn where
  | stop
  | writeSector
  | readNext
  | forceStop
  deriving DecidableEq, Repr

/-- An attached drive (R423): what it reports, its identification strings, its image. -/
structure IdeDrive where
  cylinders : Nat
  heads : Nat
  sectors : Nat
  totalSectors : Nat
  serial : List Byte
  model : List Byte
  image : List Byte
  deriving DecidableEq, Repr

/-- One interface (R422). `multi` says whether the command in flight is one of the MULTIPLE forms (R430);
`multiple = 0` stands for "never set". -/
structure IdeInterface where
  sectorCount : Byte
  sectorNumber : Byte
  cylLow : Byte
  cylHigh : Byte
  driveHead : Byte
  error : Byte
  features : Byte
  status : IdeStatus
  drive : Option IdeDrive
  buf : List Byte
  off : Nat
  fin : Nat
  endFn : EndFn
  multiple : Nat
  blk : Nat
  multi : Bool
  geometry : Geometry
  deriving DecidableEq, Repr

/-- The controller: two interfaces and the one the drive bit selects (`false` for 0). -/
structure Ide where
  current : Bool
  ifc0 : IdeInterface
  ifc1 : IdeInterface
  deriving DecidableEq, Repr

/-- The selected interface (R424). -/
def Ide.cur (d : Ide) : IdeInterface := if d.current then d.ifc1 else d.ifc0

/-- Replace the selected interface. -/
def Ide.setCur (d : Ide) (i : IdeInterface) : Ide :=
  if d.current then { d with ifc1 := i } else { d with ifc0 := i }

/-! ## Constants (R421) -/

/-- Bytes in a sector. -/
def sectorBytes : Nat := 512

/-- The largest multiple sector count. -/
def maxMultiple : Nat := 16

/-! ## The transfer buffer -/

/-- Byte `i` of the buffer; a byte never written reads 0 (log 26). -/
def bufferByte (buf : List Byte) (i : Nat) : Byte := buf.getD i 0

/-- Write byte `i` of the buffer. -/
def setBufferByte (buf : List Byte) (i : Nat) (b : Byte) : List Byte :=
  if i < buf.length then buf.set i b else buf ++ List.replicate (i - buf.length) 0 ++ [b]

/-- Put bytes at the front of the buffer; the rest stays. -/
def fillBuffer (buf bs : List Byte) : List Byte := bs ++ buf.drop bs.length

/-! ## Sector addressing (R425) -/

/-- The head field of the drive/head register; its place is a parameter (R421). -/
def IdeInterface.head (p : IdeParams) (i : IdeInterface) : Nat := i.driveHead.toNat / 2 ^ p.headBit % 2 ^ p.headWidth

/-- LBA mode is selected. -/
def IdeInterface.lbaMode (p : IdeParams) (i : IdeInterface) : Bool := i.driveHead.getLsbD p.lbaBit

/-- R425: the sector address. A CHS sector number of 0 has none; `addressable` is asked first. -/
def IdeInterface.lba (p : IdeParams) (i : IdeInterface) : Nat :=
  if i.lbaMode p then
    i.head p * 0x1000000 + i.cylHigh.toNat * 0x10000 + i.cylLow.toNat * 0x100 + i.sectorNumber.toNat
  else
    ((i.cylHigh.toNat * 0x100 + i.cylLow.toNat) * i.geometry.heads + i.head p) * i.geometry.sectors
      + i.sectorNumber.toNat - 1

/-- The drive/head register with its head field replaced. -/
def withHead (p : IdeParams) (r : Byte) (h : Nat) : Byte :=
  (r &&& ~~~(BitVec.ofNat 8 (2 ^ p.headWidth - 1) <<< p.headBit)) ||| BitVec.ofNat 8 (h % 2 ^ p.headWidth) <<< p.headBit

/-- R425: `SetLba`, the inverse. -/
def IdeInterface.setLba (p : IdeParams) (n : Nat) (i : IdeInterface) : IdeInterface :=
  if i.lbaMode p then
    { i with
      sectorNumber := BitVec.ofNat 8 n
      cylLow := BitVec.ofNat 8 (n / 0x100)
      cylHigh := BitVec.ofNat 8 (n / 0x10000)
      driveHead := withHead p i.driveHead (n / 0x1000000) }
  else
    let s := i.geometry.sectors
    let h := i.geometry.heads
    { i with
      sectorNumber := BitVec.ofNat 8 (n % s + 1)
      cylLow := BitVec.ofNat 8 (n / s / h)
      cylHigh := BitVec.ofNat 8 (n / s / h / 0x100)
      driveHead := withHead p i.driveHead (n / s % h) }

/-- R427: the sector count, 0 standing for 256. -/
def IdeInterface.count (i : IdeInterface) : Nat := if i.sectorCount = 0 then 256 else i.sectorCount.toNat

/-- D40: the `n` sectors from the address on exist, and a CHS sector number is not 0. -/
def IdeInterface.addressable (p : IdeParams) (n : Nat) (i : IdeInterface) : Bool :=
  match i.drive with
  | none => false
  | some d => (i.lbaMode p || !decide (i.sectorNumber = 0)) && decide (i.lba p + n ≤ d.totalSectors)

/-- The bytes of `n` sectors of a drive from address `a` on. -/
def IdeDrive.readSectors (d : IdeDrive) (a n : Nat) : List Byte :=
  (List.range (n * sectorBytes)).map fun k => imageByte d.image (a * sectorBytes + k)

/-- One drive write of `bs` at address `a`; an area the image does not reach is left (log 27). -/
def IdeDrive.writeSectors (d : IdeDrive) (a : Nat) (bs : List Byte) : IdeDrive :=
  { d with image := overwriteImage d.image (a * sectorBytes) bs }

/-! ## Abort, start, end of transfer (R427, R430, R431) -/

/-- R431. -/
def IdeInterface.abort (p : IdeParams) (i : IdeInterface) : IdeInterface :=
  { i with error := p.abrt, status := { i.status with err := true, drq := false, drdy := true } }

/-- R427: `Start(ifc, len, fn)`. -/
def IdeInterface.start (len : Nat) (fn : EndFn) (i : IdeInterface) : IdeInterface :=
  { i with off := 0, fin := len, endFn := fn, status := { i.status with drq := true } }

/-- The number of sectors of the next block when `n` remain: 1, or `min(multiple, n)` for the MULTIPLE forms
(R427, R430). -/
def IdeInterface.block (n : Nat) (i : IdeInterface) : Nat := if i.multi then min i.multiple n else 1

/-- Begin a block of a READ form: read the sectors into the buffer; abort outside the drive (R427, R430, D40). -/
def IdeInterface.startRead (p : IdeParams) (n : Nat) (i : IdeInterface) : IdeInterface :=
  match i.drive with
  | none => i.abort p
  | some d =>
    if i.addressable p (i.block n) then
      ({ i with blk := i.block n, buf := fillBuffer i.buf (d.readSectors (i.lba p) (i.block n)) }).start
        (sectorBytes * i.block n) .readNext
    else i.abort p

/-- Begin a block of a WRITE form; abort outside the drive (R427, R430, D40). -/
def IdeInterface.startWrite (p : IdeParams) (n : Nat) (i : IdeInterface) : IdeInterface :=
  if i.addressable p (i.block n) then
    ({ i with blk := i.block n }).start (sectorBytes * i.block n) .writeSector
  else i.abort p

/-- R430: after a block, advance the address and count down the sector count, modulo 256. -/
def IdeInterface.advanceBlock (p : IdeParams) (i : IdeInterface) : IdeInterface :=
  { i.setLba p (i.lba p + i.blk) with sectorCount := BitVec.ofNat 8 i.count - BitVec.ofNat 8 i.blk }

/-- R430: `EndTransfer`. The count is exhausted when the block just moved was the last of it: DESIGN CHOICE for a count
that the program has rewritten to less than the block (log 27). A block outside the drive, or a CHS sector number of 0,
aborts the command (D40; log 27). -/
def IdeInterface.endTransfer (p : IdeParams) (i : IdeInterface) : IdeInterface :=
  match i.endFn with
  | .stop | .forceStop => { i with status := { i.status with drq := false } }
  | .writeSector =>
    if i.addressable p i.blk then
      let bs := (List.range (i.blk * sectorBytes)).map (bufferByte i.buf)
      let j := { i with drive := i.drive.map fun (d : IdeDrive) => d.writeSectors (i.lba p) bs }.advanceBlock p
      if i.blk < i.count then j.startWrite p (i.count - i.blk)
      else { j with status := { j.status with drq := false } }
    else i.abort p
  | .readNext =>
    if i.addressable p i.blk then
      let j := i.advanceBlock p
      if i.blk < i.count then j.startRead p (i.count - i.blk)
      else { j with status := { j.status with drq := false } }
    else i.abort p

/-! ## IDENTIFY (R428) -/

/-- A word of a string field: two characters, the first in the high byte. -/
def stringWord (cs : List Byte) (k : Nat) : Word := joinBytes (cs.getD (2 * k) 0x20) (cs.getD (2 * k + 1) 0x20)

/-- Word `j` of the IDENTIFY data; unlisted words are 0. -/
def identifyWord (l : IdentifyLayout) (d : IdeDrive) (j : Nat) : Word :=
  if j = l.cylinders then BitVec.ofNat 16 d.cylinders
  else if j = l.heads then BitVec.ofNat 16 d.heads
  else if j = l.sectors then BitVec.ofNat 16 d.sectors
  else if l.serial ≤ j ∧ j < l.serial + l.serialWords then stringWord d.serial (j - l.serial)
  else if l.model ≤ j ∧ j < l.model + l.modelWords then stringWord d.model (j - l.model)
  else if j = l.maxMultiple then BitVec.ofNat 16 maxMultiple
  else if j = l.capabilities then 1 <<< l.lbaBit
  else if j = l.totalLow then BitVec.ofNat 16 d.totalSectors
  else if j = l.totalHigh then BitVec.ofNat 16 (d.totalSectors / 65536)
  else 0

/-- The 512 bytes of the IDENTIFY data, words little-endian. -/
def identifyBytes (l : IdentifyLayout) (d : IdeDrive) : List Byte :=
  (List.range 256).flatMap fun j => [lowByte (identifyWord l d j), highByte (identifyWord l d j)]

/-! ## Reset of the task registers (R426, R432) -/

/-- R426: the geometry, from an AltPro header or the drive's default. -/
def negotiate (d : IdeDrive) : Geometry :=
  match Config.altProGeometry d.image with
  | some g => g
  | none => ⟨d.cylinders, d.heads, d.sectors⟩

/-- R432: the task registers. -/
def IdeInterface.resetTask (i : IdeInterface) : IdeInterface :=
  { i with
    sectorCount := 1, sectorNumber := 1, cylLow := 0, cylHigh := 0, driveHead := 0, error := 1, features := 0
    status := { bsy := false, drdy := i.drive.isSome, drq := false, err := false }
    off := 0, fin := 0, endFn := .stop }

/-- R432: `init` and attach also clear `multiple` and renegotiate the geometry. -/
def IdeInterface.init (i : IdeInterface) : IdeInterface :=
  { i.resetTask with
    multiple := 0
    geometry := match i.drive with
      | none => i.geometry
      | some d => negotiate d }

/-- An interface with no drive, before `init` (log 26). -/
def IdeInterface.blank : IdeInterface :=
  { sectorCount := 0, sectorNumber := 0, cylLow := 0, cylHigh := 0, driveHead := 0, error := 0, features := 0
    status := { bsy := false, drdy := false, drq := false, err := false }
    drive := none, buf := [], off := 0, fin := 0, endFn := .stop, multiple := 0, blk := 0, multi := false
    geometry := ⟨0, 0, 0⟩ }

/-- R432: `init` of the controller; interface 0 is selected again (log 26). -/
def Ide.init (d : Ide) : Ide := { current := false, ifc0 := d.ifc0.init, ifc1 := d.ifc1.init }

/-- The controller after power-on with no drive attached. -/
def Ide.powerOn : Ide := Ide.init { current := false, ifc0 := .blank, ifc1 := .blank }

/-! ## Commands (R427) -/

/-- A power of two from 1 to 16. -/
def isMultipleCount (n : Nat) : Bool := decide (n = 1) || decide (n = 2) || decide (n = 4) || decide (n = 8) || decide (n = 16)

/-- The command a code stands for (R421). -/
def commandOf (p : IdeParams) (c : Byte) : Option IdeCommand := p.commands.lookup c

/-- R427: run a command on an interface. -/
def IdeInterface.command (p : IdeParams) (c : Byte) (i : IdeInterface) : IdeInterface :=
  let i : IdeInterface := { i with error := 0, status := { bsy := false, drdy := true, drq := false, err := false } }
  match i.drive with
  | none => i.abort p
  | some d =>
    match commandOf p c with
    | none => i.abort p
    | some .identify =>
      ({ i with buf := fillBuffer i.buf (identifyBytes p.layout d) }).start sectorBytes .stop
    | some .read => ({ i with multi := false }).startRead p i.count
    | some .readMultiple => if i.multiple = 0 then i.abort p else ({ i with multi := true }).startRead p i.count
    | some .write => ({ i with multi := false }).startWrite p i.count
    | some .writeMultiple => if i.multiple = 0 then i.abort p else ({ i with multi := true }).startWrite p i.count
    | some .setMultiple =>
      if isMultipleCount i.sectorCount.toNat then { i with multiple := i.sectorCount.toNat } else i.abort p
    | some .recalibrate | some .initDriveParams | some .checkPowerMode | some .verify | some .flushCache
    | some .standby | some .idle => i
    | some .execDiagnostic => i.resetTask

/-! ## Data register (R429) -/

/-- R429: read the data register; `none` for an unspecified word. -/
def IdeInterface.readData (p : IdeParams) (i : IdeInterface) : Option Word × IdeInterface :=
  if i.status.drq then
    let w := joinBytes (bufferByte i.buf (i.off + 1)) (bufferByte i.buf i.off)
    let j := { i with off := i.off + 2 }
    (some w, if j.off = j.fin then j.endTransfer p else j)
  else (none, i)

/-- R429: write the data register; false for "not written". -/
def IdeInterface.writeData (p : IdeParams) (v : Word) (i : IdeInterface) : Bool × IdeInterface :=
  if i.status.drq then
    let j := { i with
      buf := setBufferByte (setBufferByte i.buf i.off (lowByte v)) (i.off + 1) (highByte v)
      off := i.off + 2 }
    (true, if j.off = j.fin then j.endTransfer p else j)
  else (false, i)

/-! ## Registers (R424, R433)

Register numbers: 0 data, 1 error and features, 2 sector count, 3 sector number, 4 cylinder low, 5 cylinder high,
6 drive/head, 7 status and command. R421 counts nine registers and leaves their addresses OPEN: DESIGN CHOICE, a ninth
or later address of the table is status and command too (log 25). -/

/-- The status register as a byte (R421). -/
def statusByte (p : IdeParams) (s : IdeStatus) : Byte :=
  (if s.bsy then p.bsy else 0) ||| (if s.drdy then p.drdy else 0) ||| (if s.drq then p.drq else 0)
    ||| (if s.err then p.err else 0)

/-- R433: a task register, in the low byte. -/
def IdeInterface.taskRegister (p : IdeParams) (reg : Nat) (i : IdeInterface) : Byte :=
  match reg with
  | 1 => i.error
  | 2 => i.sectorCount
  | 3 => i.sectorNumber
  | 4 => i.cylLow
  | 5 => i.cylHigh
  | 6 => i.driveHead
  | _ => statusByte p i.status

/-- The word as the variant presents it (R433). DESIGN CHOICE: an inverted variant inverts all 16 bits, the high byte of
a task register and the data word too, and a written word likewise (log 25). -/
def present (p : IdeParams) (w : Word) : Word := if p.inverted then ~~~w else w

/-- A read of a register; `none` for an unspecified value (R429, R433). -/
def Ide.read (p : IdeParams) (reg : Nat) (d : Ide) : Option Word × Ide :=
  if d.cur.drive.isNone then (none, d)
  else if reg = 0 then
    let r := d.cur.readData p
    (r.1.map (present p), d.setCur r.2)
  else (some (present p ((d.cur.taskRegister p reg).setWidth 16)), d)

/-- R424, R433: store a byte in a task register, or run a command. -/
def IdeInterface.writeTask (p : IdeParams) (reg : Nat) (b : Byte) (i : IdeInterface) : IdeInterface :=
  match reg with
  | 1 => { i with features := b }
  | 2 => { i with sectorCount := b }
  | 3 => { i with sectorNumber := b }
  | 4 => { i with cylLow := b }
  | 5 => { i with cylHigh := b }
  | 6 => { i with driveHead := b }
  | _ => i.command p b

/-- A write of a register. Byte writes are rejected (20_memory.md R68; log 24). The drive bit of a drive/head write
selects the interface that stores it (R424; log 26). -/
def Ide.write (p : IdeParams) (reg : Nat) (isByteMode : Bool) (v : Word) (d : Ide) : Bool × Ide :=
  let v := present p v
  if isByteMode then (false, d)
  else if reg = 0 then
    let r := d.cur.writeData p v
    (r.1, d.setCur r.2)
  else if reg = 6 then
    let d := { d with current := (lowByte v).getLsbD p.driveBit }
    (true, d.setCur (d.cur.writeTask p 6 (lowByte v)))
  else (true, d.setCur (d.cur.writeTask p reg (lowByte v)))

/-- R426, R432: attach a drive to an interface. -/
def IdeInterface.attach (drv : IdeDrive) (i : IdeInterface) : IdeInterface := ({ i with drive := some drv }).init

end Sys2Proof.Machine
end

