-- ==== Sys2Proof/Machine/Platform.lean ====
section
/-! DEFINITION. The parameters of the machine that State.reset stands for. Each value is a default of
00_scope.md R5, a value the spec offers from general knowledge of the BK-0010, or a choice of the model where the
spec leaves the parameter OPEN (log 4 to log 6, log 11, log 18, log 25). No step depends on these definitions: a
state carries its own parameters. -/

namespace Sys2Proof.Machine

/-- R5: the default vectors; IRQ1 is OPEN and takes the example value of 95_test_vectors.md (log 6). -/
def defaultVectors : Vectors :=
  { busError := 0o004, reserved := 0o010, bpt := 0o014, iot := 0o020, emt := 0o030, trap := 0o034
    irq1 := 0o064, irq2 := 0o100 }

/-- The timing of State.reset: one tick an instruction and an idle step, none a trap entry (log 11). -/
def defaultTiming : Timing := { table := [], base := 0, trapTime := 0, idleExtra := 0 }

/-- The memory map of a BK-0010 (20_memory.md R74, from general knowledge; log 4). -/
def bk0010Map : MemMap :=
  [⟨.ram, 0, 0o100000, 0⟩, ⟨.rom, 0o100000, 0o077600, 0o100000⟩]

/-- The devices of a BK-0010 with a floppy controller, at the addresses of 61_bus_timebase.md R366 and
62_floppy_controller.md R381 (from general knowledge; log 4). -/
def bk0010Devices : List DevEntry :=
  [⟨.keyboardController, [0o177660, 0o177662], false⟩, ⟨.videoController, [0o177664], false⟩,
   ⟨.systemTimer, [0o177706, 0o177710, 0o177712], true⟩, ⟨.peripheralPort, [0o177714], false⟩,
   ⟨.sel1RegisterSystemBits, [0o177716], false⟩, ⟨.floppyController, [0o177130, 0o177132], false⟩]

/-- The floppy constants the spec offers from general knowledge (62_floppy_controller.md R381), and choices where
it offers none (log 18). -/
def defaultFloppy : FloppyConstants :=
  { wordsPerTrack := 3125, wordNs := 64000, indexHoleNs := 2000000
    gap1 := 16, gap2 := 11, gap3 := 18, sync := 6, gapFill := 0x4e4e, syncFill := 0
    idMark := [0xa1a1, 0xa1fe], dataMark := [0xa1a1, 0xa1fb], sizeCode := 2
    selectA := 0, selectB := 1, selectC := 2, selectD := 3, motorBit := 4, sideBit := 5, dirBit := 6, stepBit := 7
    gorBit := 8, wmBit := 9, dirOneIsInward := true
    track0Bit := 0, protectBit := 2, trBit := 7, crcBit := 14, indexBit := 15
    crcFlagWords := 2, writeEndWords := 2, writeEndByPosition := false }

/-- The IDENTIFY layout of 63_ide_controller.md R421 (from general knowledge; log 25). -/
def defaultLayout : IdentifyLayout :=
  { cylinders := 1, heads := 3, sectors := 6, serial := 10, serialWords := 10, model := 27, modelWords := 20
    maxMultiple := 47, capabilities := 49, lbaBit := 9, totalLow := 60, totalHigh := 61 }

/-- The command codes of R421 (from general knowledge; log 25). -/
def defaultCommands : List (Byte × IdeCommand) :=
  [(0xec, .identify), (0x20, .read), (0x30, .write), (0xc4, .readMultiple), (0xc5, .writeMultiple),
   (0xc6, .setMultiple), (0x10, .recalibrate), (0x91, .initDriveParams), (0xe5, .checkPowerMode), (0x40, .verify),
   (0xe7, .flushCache), (0xe0, .standby), (0xe1, .idle), (0x90, .execDiagnostic)]

/-- The IDE constants of R421 (from general knowledge; log 25). -/
def defaultIde : IdeParams :=
  { bsy := 0x80, drdy := 0x40, drq := 0x08, err := 0x01, abrt := 0x04, driveBit := 4, lbaBit := 6, headBit := 0
    headWidth := 4, commands := defaultCommands, layout := defaultLayout, inverted := false }

/-- The parameters of the machine that State.reset stands for (log 4). -/
def defaultParams : Params :=
  { oddWordAccess := .ignoreBit0, deviceFetch := .busError, unnamedOpcodes := .execute
    pswMask := 0o377, vectors := defaultVectors, startAddress := 0o100000, resetPsw := 0o340
    sbcOverflow := .trueOverflow, timing := defaultTiming, clockHz := 3000000, maps := [bk0010Map], devices := bk0010Devices
    timerLine := .irq2, floppy := defaultFloppy, ide := defaultIde }

/-- The value of SP in State.reset: the start value of the spec's vectors (95_test_vectors.md, Conventions; log 2). -/
def resetSp : Word := 0o001000

end Sys2Proof.Machine
end

