-- ==== Sys2Proof/Machine/State.lean ====
section
/-! DEFINITION. The state of the machine as plain data (10_state.md, and the device states of 62 and 63), the
reasons a step can stop, and the state after power-on (R50, 70_reset_and_hazards.md R450). -/

namespace Sys2Proof.Machine

/-- The eight general registers, 16 bits each (R20); `pc` is `x[7]`, `sp` is `x[6]`. -/
structure Regs where
  r0 : Word
  r1 : Word
  r2 : Word
  r3 : Word
  r4 : Word
  r5 : Word
  sp : Word
  pc : Word
  deriving DecidableEq, Repr

/-- The run states (R40). -/
inductive RunState where
  | running
  | halted
  | waiting
  deriving DecidableEq, Repr

/-- The request latches (R41 to R44). -/
structure Requests where
  busError : Bool
  reserved : Bool
  trace : Bool
  irq1 : Bool
  irq2 : Bool
  virq : Option Word
  deriving DecidableEq, Repr

/-- A call to a device whose behaviour the spec does not give (log 14). -/
structure DevEvent where
  dev : DevId
  call : DevCall
  deriving DecidableEq, Repr

/-- The state: the processor (R20 to R45), memory (20_memory.md R60 to R62), the devices (61, 62, 63), and the
model's own `freeCount` (log 17) and `params` (log 1). -/
structure State where
  regs : Regs
  psw : Word
  runState : RunState
  req : Requests
  cpuTime : Nat
  mem : Memory
  mapSel : Nat
  floppy : Floppy
  ide : Ide
  timerLast : Nat
  devLog : List DevEvent
  freeCount : Nat
  params : Params
  deriving DecidableEq, Repr

/-- Why the machine stops with a fault. -/
inductive Fault where
  /-- Raised by a failed push in JSR or in a trap entry, and by a failed vector read in a trap entry
  (20_memory.md R70, 60_exceptions.md R322, R326; U1). It carries the faulted state, kept for inspection. Safe: the
  spec itself makes it the model's fault outcome. -/
  | doubleBusError (s : State)
  deriving DecidableEq, Repr

/-- Why an instruction has no meaning. -/
inductive Refusal where
  /-- Raised by an arm of `exec` whose instruction has no meaning yet. Safe. -/
  | notModelled (mnemonic : String)
  /-- Raised by a byte instruction with register-mode SP or PC as an operand, before it has any effect (10_state.md
  R24, U3, decision D21). Safe. -/
  | byteRegisterSpPc
  /-- Raised by an instruction of the nine unnamed classes, before it has any effect, in a machine whose parameter
  UNNAMED_OPCODES is `refuse` (47_unnamed_extensions.md R270, 30_encoding.md R106, U11): the model then gives the
  encoding no meaning; it is not a trap. Safe. -/
  | unnamedOpcode
  deriving DecidableEq, Repr

/-- The `init` calls of power-on to the installed devices whose behaviour the spec does not give. -/
def resetLog : List DevEvent :=
  [⟨.keyboardController, .init 0 true⟩, ⟨.videoController, .init 0 true⟩, ⟨.systemTimer, .init 0 true⟩,
   ⟨.peripheralPort, .init 0 true⟩, ⟨.sel1RegisterSystemBits, .init 0 true⟩]

/-- The machine right after power-on reset (R50, R450). PC, PSW, run state, latches and `cpuTime` are the spec's;
the registers, memory and device values the spec leaves unspecified are named in log 2, log 3 and log 26. -/
def State.reset : State :=
  { regs := { r0 := 0, r1 := 0, r2 := 0, r3 := 0, r4 := 0, r5 := 0, sp := resetSp, pc := defaultParams.startAddress }
    psw := defaultParams.resetPsw &&& defaultParams.pswMask
    runState := .running
    req := { busError := false, reserved := false, trace := false, irq1 := false, irq2 := false, virq := none }
    cpuTime := 0
    mem := []
    mapSel := 0
    floppy := .powerOn
    ide := .powerOn
    timerLast := 0
    devLog := resetLog
    freeCount := 0
    params := defaultParams }

end Sys2Proof.Machine
end

