-- ==== Sys2Proof/Machine/Bus.lean ====
section
/-! DEFINITION. The bus router, the device contract and the time base (61_bus_timebase.md), and the two memory
primitives `MemRead` and `MemWrite` (20_memory.md R66, R67). -/

namespace Sys2Proof.Machine

/-! ## Addresses and the memory map (R61, R62, R64) -/

/-- The word address, `a & 0o177776` (R64, R66). -/
def evenAddr (a : Word) : Word := a &&& 0o177776

/-- Bit 0 of an address. -/
def isOdd (a : Word) : Bool := a.getLsbD 0

/-- IO_LO (R61): the lowest device address; the highest, IO_HI, is the highest word address. -/
def ioLow : Nat := 0o160000

/-- The region holds an address. -/
def Region.holds (n : Nat) (r : Region) : Bool := decide (r.base ≤ n) && decide (n < r.base + r.size)

/-- The kind of memory at an address and its cell of the backing store; none for no memory. -/
def mapCell (m : MemMap) (n : Nat) : Option (MemKind × Nat) :=
  (m.find? (Region.holds n)).map fun r => (r.kind, r.cell + (n - r.base))

/-- The map the memory manager has selected (R62). DESIGN CHOICE: a selection that names none of the platform's maps
shows no memory, so that every access off the devices is a bus error (log 16). -/
def State.map (s : State) : MemMap := s.params.maps.getD s.mapSel []

/-- RAM or ROM at a word address, with the cell of its low byte. -/
def State.cellOf (s : State) (wa : Word) : Option (MemKind × Nat) := mapCell s.map wa.toNat

/-! ## The device table (R350, R351) -/

/-- The device registered at a word address, and the number of the register there. -/
def deviceAt (ds : List DevEntry) (wa : Word) : Option (DevId × Nat) :=
  if ioLow ≤ wa.toNat then ds.findSome? fun e => (e.addrs.idxOf? wa).map fun k => (e.dev, k) else none

/-- The device registered at a word address of this machine. -/
def State.device (s : State) (wa : Word) : Option (DevId × Nat) := deviceAt s.params.devices wa

/-! ## Requests, free values, calls (60_exceptions.md R310) -/

/-- R310: raise a request; a second virtual request replaces the vector. -/
def State.raise (s : State) : Raise → State
  | .line .irq1 => { s with req := { s.req with irq1 := true } }
  | .line .irq2 => { s with req := { s.req with irq2 := true } }
  | .virq v => { s with req := { s.req with virq := some v } }

/-- Raise several requests in order. -/
def State.raiseAll (rs : List Raise) (s : State) : State := rs.foldl State.raise s

/-- R247, R450: the three interrupt latches cleared. -/
def State.clearIrqs (s : State) : State := { s with req := { s.req with irq1 := false, irq2 := false, virq := none } }

/-- A fresh "any value" (93 U8; log 17). -/
def State.fresh (s : State) : Word × State := (Config.freeWord s.freeCount, { s with freeCount := s.freeCount + 1 })

/-- The calls a device has received. -/
def State.history (s : State) (d : DevId) : List DevCall :=
  (s.devLog.filter fun e => decide (e.dev = d)).map DevEvent.call

/-- Record a call. -/
def State.logCall (s : State) (d : DevId) (c : DevCall) : State := { s with devLog := s.devLog ++ [⟨d, c⟩] }

/-- The memory manager selects a map when it takes a written value or is initialised (R62; log 16). -/
def State.reselect (s : State) (d : DevId) : State :=
  if d = .memoryManager then { s with mapSel := Config.managerMap (s.history d) } else s

/-- A call to a device whose behaviour the spec does not give: recorded, and its requests raised (R354, R366). -/
def State.callOpen (s : State) (d : DevId) (c : DevCall) : State :=
  let s := s.logCall d c
  s.raiseAll (Config.deviceRaises d (s.history d))

/-! ## The device operations (R354 to R357, R360, R361) -/

/-- R354, R355: `read`. A device with a state machine of its own may answer an unspecified word, which is a free
value. -/
def State.devRead (s : State) (d : DevId) (reg : Nat) (wa : Word) : Option Word × State :=
  match d with
  | .floppyController =>
    match s.floppy.read s.params.floppyParams reg s.cpuTime with
    | (some w, f) => (some w, { s with floppy := f })
    | (none, f) => ((some (({ s with floppy := f } : State).fresh).1), (({ s with floppy := f } : State).fresh).2)
  | .ideController =>
    match s.ide.read s.params.ide reg with
    | (some w, i) => (some w, { s with ide := i })
    | (none, i) => ((some (({ s with ide := i } : State).fresh).1), (({ s with ide := i } : State).fresh).2)
  | _ => (Config.deviceRead d ((s.callOpen d (.read s.cpuTime wa)).history d), s.callOpen d (.read s.cpuTime wa))

/-- R354, R356: `write`; whether the device took the value. A write that a device without a described behaviour rejects
is a no-op (20_memory.md R68): only the call is recorded (log 14). -/
def State.devWrite (s : State) (d : DevId) (reg : Nat) (isByteMode : Bool) (addr value : Word) : Bool × State :=
  match d with
  | .floppyController =>
    let r := s.floppy.write s.params.floppyParams reg s.cpuTime isByteMode value
    (r.1, { s with floppy := r.2 })
  | .ideController =>
    let r := s.ide.write s.params.ide reg isByteMode value
    (r.1, { s with ide := r.2 })
  | _ =>
    if Config.deviceCommits d ((s.logCall d (.write s.cpuTime isByteMode addr value)).history d) then
      (true, (s.callOpen d (.write s.cpuTime isByteMode addr value)).reselect d)
    else (false, s.logCall d (.write s.cpuTime isByteMode addr value))

/-- R354, R357: `init`. -/
def State.devInit (isHardwareReset : Bool) (s : State) (d : DevId) : State :=
  match d with
  | .floppyController => { s with floppy := s.floppy.init s.params.floppyParams }
  | .ideController => { s with ide := s.ide.init }
  | .systemTimer => { (s.logCall d (.init s.cpuTime isHardwareReset)) with timerLast := s.cpuTime }
  | _ => (s.logCall d (.init s.cpuTime isHardwareReset)).reselect d

/-- R247, R450: `init` of every device, in table order (U15; log 31). -/
def State.initDevices (isHardwareReset : Bool) (s : State) : State :=
  (s.params.devices.map DevEntry.dev).foldl (State.devInit isHardwareReset) s

/-- R366: ticks between two requests of the system timer. -/
def timerPeriod (p : Params) : Nat := p.clockHz / 50

/-- R360, R366: the system timer's hook. -/
def State.systemTimerHook (s : State) : State :=
  if timerPeriod s.params ≤ s.cpuTime - s.timerLast then
    { (s.raise (.line s.params.timerLine)) with timerLast := s.timerLast + timerPeriod s.params }
  else s

/-- R360: the timer hook of an installed device; the floppy and IDE controllers act on accesses only (R380, R420). -/
def State.devTimer (s : State) (e : DevEntry) : State :=
  if e.hasTimer then
    match e.dev with
    | .floppyController | .ideController => s
    | .systemTimer => s.systemTimerHook
    | d => s.callOpen d (.timer s.cpuTime)
  else s

/-- R320, R360: every timer hook, in table order. -/
def State.runTimers (s : State) : State := s.params.devices.foldl State.devTimer s

/-! ## The memory primitives (R66 to R69) -/

/-- R64, R66, R67: the access is refused by the alignment rule. -/
def State.misaligned (s : State) (w : Width) (a : Word) : Bool :=
  decide (w = .word) && isOdd a && decide (s.params.oddWordAccess = .busError)

/-- R66: one word read cycle at a word address; none for BUS_ERROR. -/
def State.loadWord (s : State) (wa : Word) : Option Word × State :=
  match s.device wa with
  | some (d, k) => s.devRead d k wa
  | none =>
    match s.cellOf wa with
    | some (_, p) => (some (s.mem.getWord p), s)
    | none => (none, s)

/-- R66: the part of the word a read returns: the word, or the byte of the address, zero-extended. -/
def lane (w : Width) (a v : Word) : Word :=
  match w with
  | .word => v
  | .byte => if isOdd a then (highByte v).setWidth 16 else (lowByte v).setWidth 16

/-- R66: `MemRead(addr, n)`; none for BUS_ERROR. -/
def State.load (s : State) (w : Width) (a : Word) : Option Word × State :=
  if s.misaligned w a then (none, s)
  else
    let r := s.loadWord (evenAddr a)
    (r.1.map (lane w a), r.2)

/-- R67: the 16 bits a device sees: the byte on the lane of its address. -/
def writeLane (w : Width) (a v : Word) : Word :=
  match w with
  | .word => v
  | .byte => if isOdd a then joinBytes (lowByte v) 0 else joinBytes 0 (lowByte v)

/-- R67: the address a device sees. -/
def writeAddr (w : Width) (a : Word) : Word :=
  match w with
  | .word => evenAddr a
  | .byte => a

/-- R67: a write to RAM at the cell `p` of the word address. -/
def Memory.storeAt (m : Memory) (w : Width) (a : Word) (p : Nat) (v : Word) : Memory :=
  match w with
  | .word => m.setWord p v
  | .byte => m.set (if isOdd a then p + 1 else p) (lowByte v)

/-- R67: `MemWrite(addr, n, v)`; false for BUS_ERROR. A device's rejection is no error (R68), a ROM write is
ignored (R69). -/
def State.store (s : State) (w : Width) (a v : Word) : Bool × State :=
  if s.misaligned w a then (false, s)
  else
    match s.device (evenAddr a) with
    | some (d, k) => (true, (s.devWrite d k (decide (w = .byte)) (writeAddr w a) (writeLane w a v)).2)
    | none =>
      match s.cellOf (evenAddr a) with
      | some (.ram, p) => (true, { s with mem := s.mem.storeAt w a p v })
      | some (.rom, _) => (true, s)
      | none => (false, s)

/-- The cells a store changes: none for a device, ROM, or a refused access (R67, R69). -/
def State.storeCells (s : State) (w : Width) (a : Word) : List Nat :=
  if s.misaligned w a then []
  else
    match s.device (evenAddr a), s.cellOf (evenAddr a) with
    | none, some (.ram, p) =>
      match w with
      | .word => [p, p + 1]
      | .byte => [if isOdd a then p + 1 else p]
    | _, _ => []

end Sys2Proof.Machine
end

