-- ==== Sys2Proof/Machine/Ops.lean ====
section
/-! DEFINITION. The named operations over registers, status word and stack: results of an operation, raising a bus
error or a reserved instruction (00_scope.md R11, R12), Push and Pop (20_memory.md R70, R71), trap entry and return
(60_exceptions.md R322, R324). -/

namespace Sys2Proof.Machine

/-! ## Registers (10_state.md R20 to R23) -/

/-- Read a register. -/
def Regs.get (x : Regs) : Reg → Word
  | .r0 => x.r0 | .r1 => x.r1 | .r2 => x.r2 | .r3 => x.r3
  | .r4 => x.r4 | .r5 => x.r5 | .sp => x.sp | .pc => x.pc

/-- Write a register. -/
def Regs.set (x : Regs) (r : Reg) (v : Word) : Regs :=
  match r with
  | .r0 => { x with r0 := v } | .r1 => { x with r1 := v } | .r2 => { x with r2 := v } | .r3 => { x with r3 := v }
  | .r4 => { x with r4 := v } | .r5 => { x with r5 := v } | .sp => { x with sp := v } | .pc => { x with pc := v }

/-- R22: `x[r]`. -/
def State.reg (s : State) (r : Reg) : Word := s.regs.get r

/-- R22: `x[r] <- v`. -/
def State.setReg (s : State) (r : Reg) (v : Word) : State := { s with regs := s.regs.set r v }

/-- R23: the byte of a register, zero-extended. -/
def regByte (v : Word) : Word := v &&& 0x00ff

/-- R23: a register whose low byte is replaced. -/
def mergeByte (old v : Word) : Word := (old &&& 0xff00) ||| (v &&& 0x00ff)

/-- The advance of PC past one word (R26). -/
def State.advancePc (s : State) : State := s.setReg .pc (s.reg .pc + 2)

/-! ## The status word as a whole (R31) -/

/-- R31: the bits of PSW that hold state; bits 7:0 always do. -/
def State.pswBits (s : State) : Word := s.params.pswMask ||| 0x00ff

/-- R31: load all of PSW. -/
def State.setPsw (s : State) (v : Word) : State := { s with psw := v &&& s.pswBits }

/-! ## Results of an operation (00_scope.md R10 to R12) -/

/-- What an operation of an instruction's pseudocode ends in: a value and a state; an abandoned instruction, the
latch set; the fault outcome; or a refusal. -/
inductive Res (α : Type) where
  | ok (v : α) (s : State)
  | abandoned (s : State)
  | fault (f : Fault)
  | refused (r : Refusal)
  deriving DecidableEq, Repr

/-- Go on with the value and the state, or end as the first operation ended. -/
def Res.andThen {α β : Type} (x : Res α) (f : α → State → Res β) : Res β :=
  match x with
  | .ok v s => f v s
  | .abandoned s => .abandoned s
  | .fault e => .fault e
  | .refused r => .refused r

/-- The outcome of a whole instruction: an abandoned instruction is a next state too (R11). -/
def Res.outcome (x : Res Unit) : Host.Outcome State Fault Refusal :=
  match x with
  | .ok _ s => .next s
  | .abandoned s => .next s
  | .fault e => .fault e
  | .refused r => .refused r

/-- R11: `raise BusError`. -/
def State.raiseBusError (s : State) : State := { s with req := { s.req with busError := true } }

/-- R12: `raise ReservedInstruction`. -/
def State.raiseReserved (s : State) : State := { s with req := { s.req with reserved := true } }

/-- R11: `MemRead!`. -/
def State.read (s : State) (w : Width) (a : Word) : Res Word :=
  match s.load w a with
  | (some v, t) => .ok v t
  | (none, t) => .abandoned t.raiseBusError

/-- R11: `MemWrite!`. -/
def State.write (s : State) (w : Width) (a v : Word) : Res Unit :=
  match s.store w a v with
  | (true, t) => .ok () t
  | (false, t) => .abandoned t.raiseBusError

/-! ## The stack (20_memory.md R70, R71) -/

/-- R70: `Push(v)`; a failed write is a double bus error, SP decremented. -/
def State.push (s : State) (v : Word) : Res Unit :=
  match (s.setReg .sp (s.reg .sp - 2)).store .word (s.reg .sp - 2) v with
  | (true, t) => .ok () t
  | (false, t) => .fault (.doubleBusError t)

/-- R71: `Pop()`; a failed read leaves SP as it was. -/
def State.pop (s : State) : Res Word :=
  (s.read .word (s.reg .sp)).andThen fun v t => .ok v (t.setReg .sp (t.reg .sp + 2))

/-! ## Trap entry and return (60_exceptions.md R322, R324) -/

/-- R322: a word of a vector pair; a failed read is a double bus error. -/
def State.readVector (s : State) (a : Word) : Res Word :=
  match s.load .word a with
  | (some v, t) => .ok v t
  | (none, t) => .fault (.doubleBusError t)

/-- R322: `TrapEntry(vec)`. -/
def State.trapEntry (s : State) (vec : Word) : Res Unit :=
  (s.push s.psw).andThen fun _ s1 =>
  (s1.push (s.reg .pc)).andThen fun _ s2 =>
  (s2.readVector vec).andThen fun npc s3 =>
  (s3.readVector (vec + 2)).andThen fun npsw s4 =>
  .ok () { ((s4.setReg .pc npc).setPsw npsw) with runState := .running }

/-- R244, R279, R324: pop PC, then PSW, and load both. -/
def State.trapReturn (s : State) : Res Unit :=
  s.pop.andThen fun npc s1 =>
  s1.pop.andThen fun npsw s2 =>
  .ok () ((s2.setReg .pc npc).setPsw npsw)

end Sys2Proof.Machine
end

