-- ==== Sys2Proof/Machine/Flags.lean ====
section
/-! DEFINITION. The condition codes (10_state.md R30 to R34) and the result and flags of every arithmetic, logic and
shift operation (41, 42, 47). Operands and results are words; a byte operand is zero-extended, and a result is taken
modulo `mask + 1`. -/

namespace Sys2Proof.Machine

/-! ## The status word (R30) -/

/-- The carry flag, bit 0. -/
def State.flagC (s : State) : Bool := s.psw.getLsbD 0

/-- The overflow flag, bit 1. -/
def State.flagV (s : State) : Bool := s.psw.getLsbD 1

/-- The zero flag, bit 2. -/
def State.flagZ (s : State) : Bool := s.psw.getLsbD 2

/-- The negative flag, bit 3. -/
def State.flagN (s : State) : Bool := s.psw.getLsbD 3

/-- The trace flag, bit 4. -/
def State.flagT (s : State) : Bool := s.psw.getLsbD 4

/-- R314: the interrupt mask, bit 7. -/
def State.masked (s : State) : Bool := s.psw.getLsbD 7

/-- The four condition codes as the bits they have in PSW (R30). -/
def ccBits (n z v c : Bool) : Word :=
  (if n then 8 else 0) ||| (if z then 4 else 0) ||| (if v then 2 else 0) ||| (if c then 1 else 0)

/-- PSW with its four condition codes replaced, bits 15:4 kept. -/
def withCc (psw : Word) (n z v c : Bool) : Word := (psw &&& 0xfff0) ||| ccBits n z v c

/-- R32 (a): write N, Z, V and C together. -/
def State.setCc (s : State) (n z v c : Bool) : State := { s with psw := withCc s.psw n z v c }

/-! ## Widths (00_scope.md R8) -/

/-- `mask(w) = 2^w - 1`. -/
def widthMask : Width → Word
  | .byte => 0x00ff
  | .word => 0xffff

/-- `sign(w) = 2^(w-1)`. -/
def widthSign : Width → Word
  | .byte => 0x0080
  | .word => 0x8000

/-- The top bit of a `w`-bit value, `v[w-1]`. -/
def topBit (w : Width) (v : Word) : Bool :=
  match w with
  | .byte => v.getLsbD 7
  | .word => v.getLsbD 15

/-- `sext_8`. -/
def sext8 (v : Word) : Word := (v.setWidth 8).signExtend 16

/-- A flag as a word, 0 or 1. -/
def bitWord (b : Bool) : Word := if b then 1 else 0

/-! ## Results -/

/-- The result of an operation with the condition codes it sets. -/
structure Alu where
  value : Word
  n : Bool
  z : Bool
  v : Bool
  c : Bool
  deriving DecidableEq, Repr

/-- R32: write the condition codes of a result. -/
def State.setAlu (s : State) (r : Alu) : State := s.setCc r.n r.z r.v r.c

/-- A result with N and Z taken from it at its width, and V and C given. -/
def aluResult (w : Width) (r : Word) (v c : Bool) : Alu := ⟨r, topBit w r, decide (r = 0), v, c⟩

/-- R161: MOV, MOVB, and R276: MFPS; C kept. -/
def aluMove (w : Width) (v : Word) (c : Bool) : Alu := aluResult w v false c

/-- R162: CMP, CMPB: source minus destination. -/
def aluCmp (w : Width) (s d : Word) (_ : Bool) : Alu :=
  let r := (s - d) &&& widthMask w
  aluResult w r (decide (((s ^^^ d) &&& (~~~d ^^^ r) &&& widthSign w) ≠ 0)) (decide (s.toNat < d.toNat))

/-- R163: BIT, BITB. -/
def aluBit (w : Width) (s d : Word) (c : Bool) : Alu := aluResult w (s &&& d) false c

/-- R164: BIC, BICB. -/
def aluBic (w : Width) (s d : Word) (c : Bool) : Alu := aluResult w (d &&& ~~~s) false c

/-- R165: BIS, BISB. -/
def aluBis (w : Width) (s d : Word) (c : Bool) : Alu := aluResult w (d ||| s) false c

/-- R166: ADD. -/
def aluAdd (s d : Word) (_ : Bool) : Alu :=
  let r := s + d
  aluResult .word r (decide ((~~~(s ^^^ d) &&& (s ^^^ r) &&& 0o100000) ≠ 0)) (decide (0o177777 < s.toNat + d.toNat))

/-- R167: SUB: destination minus source. -/
def aluSub (s d : Word) (_ : Bool) : Alu :=
  let r := d - s
  aluResult .word r (decide (((s ^^^ d) &&& (~~~s ^^^ r) &&& 0o100000) ≠ 0)) (decide (d.toNat < s.toNat))

/-- R274: XOR. -/
def aluXor (s d : Word) (c : Bool) : Alu := aluResult .word (s ^^^ d) false c

/-- R181: CLR, CLRB. -/
def aluClr : Alu := ⟨0, false, true, false, false⟩

/-- R182: COM, COMB. -/
def aluCom (w : Width) (d : Word) (_ : Bool) : Alu := aluResult w (~~~d &&& widthMask w) false true

/-- R183: INC, INCB. -/
def aluInc (w : Width) (d : Word) (c : Bool) : Alu :=
  aluResult w ((d + 1) &&& widthMask w) (decide (d = widthSign w - 1)) c

/-- R184: DEC, DECB. -/
def aluDec (w : Width) (d : Word) (c : Bool) : Alu :=
  aluResult w ((d - 1) &&& widthMask w) (decide (d = widthSign w)) c

/-- R185: NEG, NEGB. -/
def aluNeg (w : Width) (d : Word) (_ : Bool) : Alu :=
  let r := (0 - d) &&& widthMask w
  aluResult w r (decide (r = widthSign w)) (decide (r ≠ 0))

/-- R186: TST, TSTB. -/
def aluTst (w : Width) (d : Word) (_ : Bool) : Alu := aluResult w d false false

/-- The flags of a shift: C the bit shifted out, V the exclusive or of the new N and the new C (R187 to R190). -/
def aluShift (w : Width) (r : Word) (c : Bool) : Alu := aluResult w r (topBit w r ^^ c) c

/-- R187: ASR, ASRB. -/
def aluAsr (w : Width) (d : Word) (_ : Bool) : Alu := aluShift w ((d >>> 1) ||| (d &&& widthSign w)) (d.getLsbD 0)

/-- R188: ASL, ASLB. -/
def aluAsl (w : Width) (d : Word) (_ : Bool) : Alu := aluShift w ((d <<< 1) &&& widthMask w) (topBit w d)

/-- R189: ROR, RORB. -/
def aluRor (w : Width) (d : Word) (c : Bool) : Alu :=
  aluShift w ((d >>> 1) ||| (if c then widthSign w else 0)) (d.getLsbD 0)

/-- R190: ROL, ROLB. -/
def aluRol (w : Width) (d : Word) (c : Bool) : Alu :=
  aluShift w (((d <<< 1) ||| bitWord c) &&& widthMask w) (topBit w d)

/-- R191: SWAB: N and Z from the low byte of the result. -/
def aluSwab (d : Word) (_ : Bool) : Alu :=
  let r := swapBytes d
  ⟨r, r.getLsbD 7, decide (r &&& 0x00ff = 0), false, false⟩

/-- R271: ADC, ADCB. -/
def aluAdc (w : Width) (d : Word) (c : Bool) : Alu :=
  aluResult w ((d + bitWord c) &&& widthMask w) (c && decide (d = widthSign w - 1)) (c && decide (d = widthMask w))

/-- R272: SBC, SBCB; V as the parameter of U7 says. -/
def aluSbc (m : SbcOverflow) (w : Width) (d : Word) (c : Bool) : Alu :=
  let v := match m with
    | .trueOverflow => c && decide (d = widthSign w)
    | .operandIsSign => decide (d = widthSign w)
  aluResult w ((d - bitWord c) &&& widthMask w) v (c && decide (d = 0))

end Sys2Proof.Machine
end

