-- ==== Sys2Proof/Machine/Operands.lean ====
section
/-! DEFINITION. The eight addressing modes and operand access (40_addressing_modes.md R130 to R147). -/

namespace Sys2Proof.Machine

/-- R132: a location, a register or a memory address. -/
inductive Loc where
  | reg (r : Reg)
  | mem (a : Word)
  deriving DecidableEq, Repr

/-- R132: a location and the pending post-action, a step up of a register. -/
structure Place where
  loc : Loc
  post : Option (Reg × Word)
  deriving DecidableEq, Repr

/-- R131: the step of modes 2 and 4: 1 for a byte operand through R0 to R5, else 2. -/
def stepSize (w : Width) (r : Reg) : Word :=
  if w = .byte ∧ r ≠ .sp ∧ r ≠ .pc then 1 else 2

/-- R132: read the extension word at PC and advance PC. -/
def State.fetchExtension (s : State) : Res Word :=
  (s.read .word (s.reg .pc)).andThen fun d t => .ok d t.advancePc

/-- R132: `Resolve(m, r, n)`. -/
def State.resolve (s : State) (w : Width) (o : Operand) : Res Place :=
  match o.mode with
  | .register => .ok ⟨.reg o.reg, none⟩ s
  | .deferred => .ok ⟨.mem (s.reg o.reg), none⟩ s
  | .autoInc => .ok ⟨.mem (s.reg o.reg), some (o.reg, stepSize w o.reg)⟩ s
  | .autoIncDef => (s.read .word (s.reg o.reg)).andThen fun a t => .ok ⟨.mem a, some (o.reg, 2)⟩ t
  | .autoDec =>
    .ok ⟨.mem (s.reg o.reg - stepSize w o.reg), none⟩ (s.setReg o.reg (s.reg o.reg - stepSize w o.reg))
  | .autoDecDef =>
    ((s.setReg o.reg (s.reg o.reg - 2)).read .word (s.reg o.reg - 2)).andThen fun a t => .ok ⟨.mem a, none⟩ t
  | .index => s.fetchExtension.andThen fun d t => .ok ⟨.mem (t.reg o.reg + d), none⟩ t
  | .indexDef =>
    s.fetchExtension.andThen fun d t => (t.read .word (t.reg o.reg + d)).andThen fun a u => .ok ⟨.mem a, none⟩ u

/-- R132: do the post-action. -/
def State.doPost (s : State) (p : Place) : State :=
  match p.post with
  | none => s
  | some (r, k) => s.setReg r (s.reg r + k)

/-- R140: `ReadLoc`. A byte is zero-extended. -/
def State.readLoc (s : State) (w : Width) (l : Loc) : Res Word :=
  match l with
  | .reg r =>
    match w with
    | .word => .ok (s.reg r) s
    | .byte => .ok (regByte (s.reg r)) s
  | .mem a => s.read w a

/-- R140: `WriteLoc`. -/
def State.writeLoc (s : State) (w : Width) (l : Loc) (v : Word) : Res Unit :=
  match l with
  | .reg r =>
    match w with
    | .word => .ok () (s.setReg r v)
    | .byte => .ok () (s.setReg r (mergeByte (s.reg r) v))
  | .mem a => s.write w a v

/-- R141: `SrcRead`. -/
def State.srcRead (s : State) (w : Width) (o : Operand) : Res Word :=
  (s.resolve w o).andThen fun p t => (t.readLoc w p.loc).andThen fun v u => .ok v (u.doPost p)

/-- R142: `DstRead`: the place, its post-action pending, and the value. -/
def State.dstRead (s : State) (w : Width) (o : Operand) : Res (Place × Word) :=
  (s.resolve w o).andThen fun p t => (t.readLoc w p.loc).andThen fun v u => .ok (p, v) u

/-- R143: `DstWrite`. -/
def State.dstWrite (s : State) (w : Width) (p : Place) (v : Word) : Res Unit :=
  (s.writeLoc w p.loc v).andThen fun _ t => .ok () (t.doPost p)

/-- R144: `DstStore`: a destination written without being read. -/
def State.dstStore (s : State) (w : Width) (o : Operand) (v : Word) : Res Unit :=
  (s.resolve w o).andThen fun p t => t.dstWrite w p v

/-- R145: `EffAddr`: the address of an operand; register mode raises ReservedInstruction. -/
def State.effAddr (s : State) (o : Operand) : Res Word :=
  if o.mode = .register then .abandoned s.raiseReserved
  else
    (s.resolve .word o).andThen fun p t =>
      match p.loc with
      | .mem a => .ok a (t.doPost p)
      | .reg _ => .abandoned t.raiseReserved

end Sys2Proof.Machine
end

