-- ==== Sys2Proof/Machine/Shapes.lean ====
section
/-! DEFINITION. The shapes the operand instructions share (41_double_operand.md R160, 42_single_operand.md R180): the
operand accesses in their order, then the condition codes together as the last action. -/

namespace Sys2Proof.Machine

/-- R24: a byte instruction with register-mode SP or PC is refused, before it has any effect. -/
def guardBytes (w : Width) (os : List Operand) (x : Res Unit) : Res Unit :=
  if w = .byte ∧ os.any Operand.isSpPcRegister = true then .refused .byteRegisterSpPc else x

/-- Source and destination are read, the destination is written (BIC, BIS, ADD, SUB: R164 to R167). -/
def doubleOp (w : Width) (src dst : Operand) (f : Word → Word → Bool → Alu) (s : State) : Res Unit :=
  guardBytes w [src, dst] <|
  (s.srcRead w src).andThen fun a s1 =>
  (s1.dstRead w dst).andThen fun pd s2 =>
  (s2.dstWrite w pd.1 (f a pd.2 s2.flagC).value).andThen fun _ s3 =>
  .ok () (s3.setAlu (f a pd.2 s2.flagC))

/-- Source and destination are read, nothing is written (CMP, BIT: R162, R163). -/
def compareOp (w : Width) (src dst : Operand) (f : Word → Word → Bool → Alu) (s : State) : Res Unit :=
  guardBytes w [src, dst] <|
  (s.srcRead w src).andThen fun a s1 =>
  (s1.dstRead w dst).andThen fun pd s2 =>
  .ok () ((s2.doPost pd.1).setAlu (f a pd.2 s2.flagC))

/-- The destination is read and written (R182 to R185, R187 to R191, R271, R272). -/
def singleOp (w : Width) (dst : Operand) (f : Word → Bool → Alu) (s : State) : Res Unit :=
  guardBytes w [dst] <|
  (s.dstRead w dst).andThen fun pd s1 =>
  (s1.dstWrite w pd.1 (f pd.2 s1.flagC).value).andThen fun _ s2 =>
  .ok () (s2.setAlu (f pd.2 s1.flagC))

/-- The destination is read and not written (TST: R186). -/
def testOp (w : Width) (dst : Operand) (f : Word → Bool → Alu) (s : State) : Res Unit :=
  guardBytes w [dst] <|
  (s.dstRead w dst).andThen fun pd s1 =>
  .ok () ((s1.doPost pd.1).setAlu (f pd.2 s1.flagC))

/-- A value is stored to a destination that is not read (CLR, SXT: R181, R273). -/
def storeOp (w : Width) (dst : Operand) (r : Alu) (s : State) : Res Unit :=
  guardBytes w [dst] <|
  (s.dstStore w dst r.value).andThen fun _ s1 =>
  .ok () (s1.setAlu r)

/-- Store a byte value: all 16 bits, sign-extended, of a register; else the byte (MOVB, MFPS: R161, R276). -/
def State.storeByteExtended (s : State) (dst : Operand) (v : Word) : Res Unit :=
  if dst.mode = .register then .ok () (s.setReg dst.reg (sext8 v)) else s.dstStore .byte dst v

/-- R210: branch by a signed 8-bit word offset from the advanced PC when the condition holds. -/
def branchIf (cond : Bool) (off : Byte) (s : State) : Res Unit :=
  .ok () (if cond then s.setReg .pc (s.reg .pc + 2 * off.signExtend 16) else s)

end Sys2Proof.Machine
end

