-- ==== Sys2Proof/Machine/Branches.lean ====
section
/-! DEFINITION. Branch instructions (43_branches.md R210 to R226). -/

namespace Sys2Proof.Machine

/-- R211: BR, always taken. -/
def execBr (off : Byte) (s : State) : Host.Outcome State Fault Refusal :=
  (branchIf true off s).outcome

/-- R212: BNE, taken when Z = 0. -/
def execBne (off : Byte) (s : State) : Host.Outcome State Fault Refusal :=
  (branchIf (!s.flagZ) off s).outcome

/-- R213: BEQ, taken when Z = 1. -/
def execBeq (off : Byte) (s : State) : Host.Outcome State Fault Refusal :=
  (branchIf s.flagZ off s).outcome

/-- R214: BGE, taken when N xor V = 0. -/
def execBge (off : Byte) (s : State) : Host.Outcome State Fault Refusal :=
  (branchIf (!(s.flagN ^^ s.flagV)) off s).outcome

/-- R215: BLT, taken when N xor V = 1. -/
def execBlt (off : Byte) (s : State) : Host.Outcome State Fault Refusal :=
  (branchIf (s.flagN ^^ s.flagV) off s).outcome

/-- R216: BGT, taken when Z or (N xor V) = 0. -/
def execBgt (off : Byte) (s : State) : Host.Outcome State Fault Refusal :=
  (branchIf (!(s.flagZ || (s.flagN ^^ s.flagV))) off s).outcome

/-- R217: BLE, taken when Z or (N xor V) = 1. -/
def execBle (off : Byte) (s : State) : Host.Outcome State Fault Refusal :=
  (branchIf (s.flagZ || (s.flagN ^^ s.flagV)) off s).outcome

/-- R218: BPL, taken when N = 0. -/
def execBpl (off : Byte) (s : State) : Host.Outcome State Fault Refusal :=
  (branchIf (!s.flagN) off s).outcome

/-- R219: BMI, taken when N = 1. -/
def execBmi (off : Byte) (s : State) : Host.Outcome State Fault Refusal :=
  (branchIf s.flagN off s).outcome

/-- R220: BHI, taken when C or Z = 0. -/
def execBhi (off : Byte) (s : State) : Host.Outcome State Fault Refusal :=
  (branchIf (!(s.flagC || s.flagZ)) off s).outcome

/-- R221: BLOS, taken when C or Z = 1. -/
def execBlos (off : Byte) (s : State) : Host.Outcome State Fault Refusal :=
  (branchIf (s.flagC || s.flagZ) off s).outcome

/-- R222: BVC, taken when V = 0. -/
def execBvc (off : Byte) (s : State) : Host.Outcome State Fault Refusal :=
  (branchIf (!s.flagV) off s).outcome

/-- R223: BVS, taken when V = 1. -/
def execBvs (off : Byte) (s : State) : Host.Outcome State Fault Refusal :=
  (branchIf s.flagV off s).outcome

/-- R224: BCC, taken when C = 0. -/
def execBcc (off : Byte) (s : State) : Host.Outcome State Fault Refusal :=
  (branchIf (!s.flagC) off s).outcome

/-- R225: BCS, taken when C = 1. -/
def execBcs (off : Byte) (s : State) : Host.Outcome State Fault Refusal :=
  (branchIf s.flagC off s).outcome

end Sys2Proof.Machine
end

