-- ==== Sys2Proof/Machine/ConditionCodes.lean ====
section
/-! DEFINITION. The condition-code operators (46_condition_codes.md R261, R262). -/

namespace Sys2Proof.Machine

/-- R261: the status word with the flags of `m` set or cleared; the bits of `m` have the flags' places in PSW. -/
def ccopPsw (psw : Word) (set : Bool) (m : BitVec 4) : Word :=
  if set then psw ||| m.setWidth 16 else psw &&& ~~~(m.setWidth 16)

/-- R261: a condition-code operator. -/
def execCcop (set : Bool) (m : BitVec 4) (s : State) : Host.Outcome State Fault Refusal :=
  .next { s with psw := ccopPsw s.psw set m }

end Sys2Proof.Machine
end

