-- ==== Sys2Proof/Machine/DoubleOperand.lean ====
section
/-! DEFINITION. Double-operand instructions (41_double_operand.md R160 to R168). -/

namespace Sys2Proof.Machine

/-- R161: MOV. The destination is not read. -/
def execMov (src dst : Operand) (s : State) : Host.Outcome State Fault Refusal :=
  ((s.srcRead .word src).andThen fun v s1 =>
    (s1.dstStore .word dst v).andThen fun _ s2 => .ok () (s2.setAlu (aluMove .word v s2.flagC))).outcome

/-- R161: MOVB. A register destination takes the sign-extended byte in all 16 bits. -/
def execMovb (src dst : Operand) (s : State) : Host.Outcome State Fault Refusal :=
  (guardBytes .byte [src, dst] <|
    (s.srcRead .byte src).andThen fun v s1 =>
    (s1.storeByteExtended dst v).andThen fun _ s2 => .ok () (s2.setAlu (aluMove .byte v s2.flagC))).outcome

/-- R162: CMP. -/
def execCmp (src dst : Operand) (s : State) : Host.Outcome State Fault Refusal :=
  (compareOp .word src dst (aluCmp .word) s).outcome

/-- R162: CMPB. -/
def execCmpb (src dst : Operand) (s : State) : Host.Outcome State Fault Refusal :=
  (compareOp .byte src dst (aluCmp .byte) s).outcome

/-- R163: BIT. -/
def execBit (src dst : Operand) (s : State) : Host.Outcome State Fault Refusal :=
  (compareOp .word src dst (aluBit .word) s).outcome

/-- R163: BITB. -/
def execBitb (src dst : Operand) (s : State) : Host.Outcome State Fault Refusal :=
  (compareOp .byte src dst (aluBit .byte) s).outcome

/-- R164: BIC. -/
def execBic (src dst : Operand) (s : State) : Host.Outcome State Fault Refusal :=
  (doubleOp .word src dst (aluBic .word) s).outcome

/-- R164: BICB. -/
def execBicb (src dst : Operand) (s : State) : Host.Outcome State Fault Refusal :=
  (doubleOp .byte src dst (aluBic .byte) s).outcome

/-- R165: BIS. -/
def execBis (src dst : Operand) (s : State) : Host.Outcome State Fault Refusal :=
  (doubleOp .word src dst (aluBis .word) s).outcome

/-- R165: BISB. -/
def execBisb (src dst : Operand) (s : State) : Host.Outcome State Fault Refusal :=
  (doubleOp .byte src dst (aluBis .byte) s).outcome

/-- R166: ADD. -/
def execAdd (src dst : Operand) (s : State) : Host.Outcome State Fault Refusal :=
  (doubleOp .word src dst aluAdd s).outcome

/-- R167: SUB. -/
def execSub (src dst : Operand) (s : State) : Host.Outcome State Fault Refusal :=
  (doubleOp .word src dst aluSub s).outcome

end Sys2Proof.Machine
end

