-- ==== Sys2Proof/Machine/JumpSubroutine.lean ====
section
/-! DEFINITION. Jump and subroutine instructions (44_jump_subroutine.md R230 to R234). -/

namespace Sys2Proof.Machine

/-- R231: JMP. -/
def execJmp (dst : Operand) (s : State) : Host.Outcome State Fault Refusal :=
  ((s.effAddr dst).andThen fun a s1 => .ok () (s1.setReg .pc a)).outcome

/-- R232: JSR: push the linkage register, take the return address into it, jump. -/
def execJsr (r : Reg) (dst : Operand) (s : State) : Host.Outcome State Fault Refusal :=
  ((s.effAddr dst).andThen fun a s1 =>
    (s1.push (s1.reg r)).andThen fun _ s2 =>
    .ok () ((s2.setReg r (s2.reg .pc)).setReg .pc a)).outcome

/-- R233: RTS. -/
def execRts (r : Reg) (s : State) : Host.Outcome State Fault Refusal :=
  (s.pop.andThen fun v s1 => .ok () ((s1.setReg .pc (s1.reg r)).setReg r v)).outcome

end Sys2Proof.Machine
end

