-- ==== Sys2Proof/Machine/SingleOperand.lean ====
section
/-! DEFINITION. Single-operand instructions (42_single_operand.md R180 to R192). -/

namespace Sys2Proof.Machine

/-- R181: CLR. The destination is not read. -/
def execClr (dst : Operand) (s : State) : Host.Outcome State Fault Refusal :=
  (storeOp .word dst aluClr s).outcome

/-- R181: CLRB. The destination is not read. -/
def execClrb (dst : Operand) (s : State) : Host.Outcome State Fault Refusal :=
  (storeOp .byte dst aluClr s).outcome

/-- R182: COM. -/
def execCom (dst : Operand) (s : State) : Host.Outcome State Fault Refusal :=
  (singleOp .word dst (aluCom .word) s).outcome

/-- R182: COMB. -/
def execComb (dst : Operand) (s : State) : Host.Outcome State Fault Refusal :=
  (singleOp .byte dst (aluCom .byte) s).outcome

/-- R183: INC. -/
def execInc (dst : Operand) (s : State) : Host.Outcome State Fault Refusal :=
  (singleOp .word dst (aluInc .word) s).outcome

/-- R183: INCB. -/
def execIncb (dst : Operand) (s : State) : Host.Outcome State Fault Refusal :=
  (singleOp .byte dst (aluInc .byte) s).outcome

/-- R184: DEC. -/
def execDec (dst : Operand) (s : State) : Host.Outcome State Fault Refusal :=
  (singleOp .word dst (aluDec .word) s).outcome

/-- R184: DECB. -/
def execDecb (dst : Operand) (s : State) : Host.Outcome State Fault Refusal :=
  (singleOp .byte dst (aluDec .byte) s).outcome

/-- R185: NEG. -/
def execNeg (dst : Operand) (s : State) : Host.Outcome State Fault Refusal :=
  (singleOp .word dst (aluNeg .word) s).outcome

/-- R185: NEGB. -/
def execNegb (dst : Operand) (s : State) : Host.Outcome State Fault Refusal :=
  (singleOp .byte dst (aluNeg .byte) s).outcome

/-- R186: TST. -/
def execTst (dst : Operand) (s : State) : Host.Outcome State Fault Refusal :=
  (testOp .word dst (aluTst .word) s).outcome

/-- R186: TSTB. -/
def execTstb (dst : Operand) (s : State) : Host.Outcome State Fault Refusal :=
  (testOp .byte dst (aluTst .byte) s).outcome

/-- R187: ASR. -/
def execAsr (dst : Operand) (s : State) : Host.Outcome State Fault Refusal :=
  (singleOp .word dst (aluAsr .word) s).outcome

/-- R187: ASRB. -/
def execAsrb (dst : Operand) (s : State) : Host.Outcome State Fault Refusal :=
  (singleOp .byte dst (aluAsr .byte) s).outcome

/-- R188: ASL. -/
def execAsl (dst : Operand) (s : State) : Host.Outcome State Fault Refusal :=
  (singleOp .word dst (aluAsl .word) s).outcome

/-- R188: ASLB. -/
def execAslb (dst : Operand) (s : State) : Host.Outcome State Fault Refusal :=
  (singleOp .byte dst (aluAsl .byte) s).outcome

/-- R189: ROR. -/
def execRor (dst : Operand) (s : State) : Host.Outcome State Fault Refusal :=
  (singleOp .word dst (aluRor .word) s).outcome

/-- R189: RORB. -/
def execRorb (dst : Operand) (s : State) : Host.Outcome State Fault Refusal :=
  (singleOp .byte dst (aluRor .byte) s).outcome

/-- R190: ROL. -/
def execRol (dst : Operand) (s : State) : Host.Outcome State Fault Refusal :=
  (singleOp .word dst (aluRol .word) s).outcome

/-- R190: ROLB. -/
def execRolb (dst : Operand) (s : State) : Host.Outcome State Fault Refusal :=
  (singleOp .byte dst (aluRol .byte) s).outcome

/-- R191: SWAB. -/
def execSwab (dst : Operand) (s : State) : Host.Outcome State Fault Refusal :=
  (singleOp .word dst aluSwab s).outcome

end Sys2Proof.Machine
end

