-- ==== Sys2Proof/Machine/TrapsSystem.lean ====
section
/-! DEFINITION. Trap and system instructions (45_traps_system.md R240 to R248). -/

namespace Sys2Proof.Machine

/-- R240: EMT. The trap number is not used (30_encoding.md R108). -/
def execEmt (_num : Byte) (s : State) : Host.Outcome State Fault Refusal :=
  (s.trapEntry s.params.vectors.emt).outcome

/-- R241: TRAP. -/
def execTrap (_num : Byte) (s : State) : Host.Outcome State Fault Refusal :=
  (s.trapEntry s.params.vectors.trap).outcome

/-- R242: IOT. -/
def execIot (s : State) : Host.Outcome State Fault Refusal :=
  (s.trapEntry s.params.vectors.iot).outcome

/-- R243: BPT. -/
def execBpt (s : State) : Host.Outcome State Fault Refusal :=
  (s.trapEntry s.params.vectors.bpt).outcome

/-- R244: RTI. -/
def execRti (s : State) : Host.Outcome State Fault Refusal :=
  s.trapReturn.outcome

/-- R245: HALT. -/
def execHalt (s : State) : Host.Outcome State Fault Refusal :=
  .next { s with runState := .halted }

/-- R246: WAIT. -/
def execWait (s : State) : Host.Outcome State Fault Refusal :=
  .next { s with runState := .waiting }

/-- R247: RESET: every device is initialised, the three request latches are cleared. -/
def execReset (s : State) : Host.Outcome State Fault Refusal :=
  .next (s.initDevices false).clearIrqs

end Sys2Proof.Machine
end

