-- ==== Sys2Proof/Machine/Unnamed.lean ====
section
/-! DEFINITION. The opcode classes the document counts but does not name (47_unnamed_extensions.md R270 to R279), each
executed or refused as the parameter UNNAMED_OPCODES says (log 8), and the reserved space (30_encoding.md R112). -/

namespace Sys2Proof.Machine

/-- R106, R270: an instruction of an unnamed class runs, or is refused before it has any effect. -/
def guardUnnamed (s : State) (x : Res Unit) : Res Unit :=
  match s.params.unnamedOpcodes with
  | .execute => x
  | .refuse => .refused .unnamedOpcode

/-- R271: ADC. -/
def execAdc (dst : Operand) (s : State) : Host.Outcome State Fault Refusal :=
  (guardUnnamed s (singleOp .word dst (aluAdc .word) s)).outcome

/-- R271: ADCB. -/
def execAdcb (dst : Operand) (s : State) : Host.Outcome State Fault Refusal :=
  (guardUnnamed s (singleOp .byte dst (aluAdc .byte) s)).outcome

/-- R272: SBC. -/
def execSbc (dst : Operand) (s : State) : Host.Outcome State Fault Refusal :=
  (guardUnnamed s (singleOp .word dst (aluSbc s.params.sbcOverflow .word) s)).outcome

/-- R272: SBCB. -/
def execSbcb (dst : Operand) (s : State) : Host.Outcome State Fault Refusal :=
  (guardUnnamed s (singleOp .byte dst (aluSbc s.params.sbcOverflow .byte) s)).outcome

/-- R273: what SXT stores and sets: all ones when N is set, else 0; N and C kept. -/
def aluSxt (n c : Bool) : Alu := ⟨if n then 0o177777 else 0, n, !n, false, c⟩

/-- R273: SXT. The destination is not read. -/
def execSxt (dst : Operand) (s : State) : Host.Outcome State Fault Refusal :=
  (guardUnnamed s (storeOp .word dst (aluSxt s.flagN s.flagC) s)).outcome

/-- R274: XOR. The source register is read before the destination is resolved. -/
def execXor (r : Reg) (dst : Operand) (s : State) : Host.Outcome State Fault Refusal :=
  (guardUnnamed s (singleOp .word dst (aluXor (s.reg r)) s)).outcome

/-- R275: SOB. -/
def execSob (r : Reg) (off : BitVec 6) (s : State) : Host.Outcome State Fault Refusal :=
  let t := s.setReg r (s.reg r - 1)
  (guardUnnamed s (.ok () (if t.reg r = 0 then t else t.setReg .pc (t.reg .pc - 2 * off.setWidth 16)))).outcome

/-- R276: MFPS. The flags are set from the value moved, after it has been read. -/
def execMfps (dst : Operand) (s : State) : Host.Outcome State Fault Refusal :=
  (guardUnnamed s <| guardBytes .byte [dst] <|
    (s.storeByteExtended dst (s.psw &&& 0x00ff)).andThen fun _ s1 =>
    .ok () (s1.setAlu (aluMove .byte (s.psw &&& 0x00ff) s1.flagC))).outcome

/-- R277: the status word with bits 7:5 and 3:0 taken from a byte; T is kept. -/
def mtpsPsw (psw v : Word) : Word := (psw &&& 0xff10) ||| (v &&& 0x00ef)

/-- R277: MTPS. -/
def execMtps (src : Operand) (s : State) : Host.Outcome State Fault Refusal :=
  (guardUnnamed s <| guardBytes .byte [src] <|
    (s.srcRead .byte src).andThen fun v s1 => .ok () { s1 with psw := mtpsPsw s1.psw v }).outcome

/-- R278: MARK. -/
def execMark (nn : BitVec 6) (s : State) : Host.Outcome State Fault Refusal :=
  let a := s.reg .pc + 2 * nn.setWidth 16
  (guardUnnamed s <| (s.read .word a).andThen fun v s1 =>
    .ok () (((s1.setReg .sp (a + 2)).setReg .pc (s1.reg .r5)).setReg .r5 v)).outcome

/-- R279: RTT. That its trace check is skipped is the step's (60_exceptions.md R312). -/
def execRtt (s : State) : Host.Outcome State Fault Refusal :=
  (guardUnnamed s s.trapReturn).outcome

/-- R106, R112: a word of the reserved space raises ReservedInstruction. -/
def execReserved (_w : Word) (s : State) : Host.Outcome State Fault Refusal :=
  .next s.raiseReserved

end Sys2Proof.Machine
end

