-- ==== Sys2Proof/Machine/Cycle.lean ====
section
/-! DEFINITION. The parts of one step (60_exceptions.md R300 to R321): the events at its top and their priority,
idle ticks, fetch, the trace check, and the cost in ticks (70_reset_and_hazards.md R470). -/

namespace Sys2Proof.Machine

/-! ## Events at the top of a step (R301, R318, R320) -/

/-- What the dispatch can take. -/
inductive Event where
  | busError
  | reserved
  | trace
  | irq1
  | irq2
  | virq (v : Word)
  deriving DecidableEq, Repr

/-- R314, R318: the event the dispatch takes, in the order bus error, reserved instruction, trace, and the unmasked
interrupts IRQ1, IRQ2, VIRQ. -/
def State.pendingEvent (s : State) : Option Event :=
  if s.req.busError then some .busError
  else if s.req.reserved then some .reserved
  else if s.req.trace then some .trace
  else if s.masked then none
  else if s.req.irq1 then some .irq1
  else if s.req.irq2 then some .irq2
  else s.req.virq.map .virq

/-- R315, R320: the latch of the event taken is cleared before trap entry. -/
def State.accept (s : State) (e : Event) : State :=
  match e with
  | .busError => { s with req := { s.req with busError := false } }
  | .reserved => { s with req := { s.req with reserved := false } }
  | .trace => { s with req := { s.req with trace := false } }
  | .irq1 => { s with req := { s.req with irq1 := false } }
  | .irq2 => { s with req := { s.req with irq2 := false } }
  | .virq _ => { s with req := { s.req with virq := none } }

/-- R301: the vector of an event; a virtual request brings its own. -/
def eventVector (v : Vectors) : Event → Word
  | .busError => v.busError
  | .reserved => v.reserved
  | .trace => v.bpt
  | .irq1 => v.irq1
  | .irq2 => v.irq2
  | .virq a => a

/-- R320: take an event. -/
def State.takeEvent (s : State) (e : Event) : Host.Outcome State Fault Refusal :=
  ((s.accept e).trapEntry (eventVector s.params.vectors e)).outcome

/-! ## Time (R45, R320, R470) -/

/-- R470: the cost of an instruction, at least 1. -/
def execTime (t : Timing) (w : Word) : Nat := (t.table.lookup w).getD t.base + 1

/-- The cost of an idle tick, at least 1 (decision D37). -/
def idleTime (t : Timing) : Nat := t.idleExtra + 1

/-- R320: `cpuTime <- t + cost`, the last action of a step. -/
def charge (now cost : Nat) (x : Host.Outcome State Fault Refusal) : Host.Outcome State Fault Refusal :=
  match x with
  | .next s => .next { s with cpuTime := now + cost }
  | .fault f => .fault f
  | .refused r => .refused r

/-! ## Idle ticks (R316, R317) -/

/-- R317: any pending request, masked or not, ends the wait. -/
def State.endWait (s : State) : State :=
  if s.req.irq1 ∨ s.req.irq2 ∨ s.req.virq.isSome then { s with runState := .running } else s

/-! ## Fetch, decode, execute (R312, R321) -/

/-- R312: the instructions after which the trace check is skipped. -/
def untraced : Instr → Bool
  | .rtt | .emt _ | .trap _ | .iot | .bpt => true
  | _ => false

/-- R312: the trace check at the end of an instruction that completed without raising. -/
def State.traceCheck (s : State) (i : Instr) : State :=
  if !s.req.busError && !s.req.reserved && !untraced i && s.flagT then
    { s with req := { s.req with trace := true } }
  else s

/-- R321: run a decoded instruction, PC already advanced, with the trace check after it. -/
def runInstr (i : Instr) (s : State) : Host.Outcome State Fault Refusal :=
  match exec i s with
  | .next t => .next (t.traceCheck i)
  | .fault f => .fault f
  | .refused r => .refused r

/-- R321, 70_reset_and_hazards.md R462: the read of the instruction word; none for BUS_ERROR. At the address of a
device it is a bus error, the device not being read, unless the parameter lets the device answer (log 37). -/
def State.fetch (s : State) : Option Word × State :=
  if s.params.deviceFetch = .busError ∧ (s.device (evenAddr (s.reg .pc))).isSome = true then (none, s)
  else s.load .word (s.reg .pc)

/-- R321: `FetchDecodeExecute`, with its cost; a failed fetch leaves PC and costs `ExecTime(0)` (log 32). -/
def fetchDecodeExecute (now : Nat) (s : State) : Host.Outcome State Fault Refusal :=
  match s.fetch with
  | (none, t) => charge now (execTime s.params.timing 0) (.next t.raiseBusError)
  | (some w, t) => charge now (execTime s.params.timing w) (runInstr (decode w) t.advancePc)

/-! ## Loading a program from outside -/

/-- Put a word into the memory, RAM or ROM, at an address (20_memory.md R85: the host loads ROM). -/
def State.placeWord (s : State) (a w : Word) : State :=
  match s.cellOf (evenAddr a) with
  | some (_, p) => { s with mem := s.mem.setWord p w }
  | none => s

/-- No event is pending and the processor is running, so that the next step fetches. -/
def State.readyToFetch (s : State) : State :=
  { s with
    runState := .running
    req := { busError := false, reserved := false, trace := false, irq1 := false, irq2 := false, virq := none } }

end Sys2Proof.Machine
end

