-- ==== Sys2Proof/Machine/Step.lean ====
section
/-! DEFINITION. One step of the machine (60_exceptions.md R320), and how a word is placed where it fetches. -/

namespace Sys2Proof.Machine

/-- R320: timer hooks, then one dispatch, one idle tick or one instruction, and the advance of `cpuTime`. -/
def step (s : State) : Host.Outcome State Fault Refusal :=
  let t := s.runTimers
  match t.pendingEvent with
  | some e => charge s.cpuTime t.params.timing.trapTime (t.takeEvent e)
  | none =>
    match t.runState with
    | .halted => charge s.cpuTime (idleTime t.params.timing) (.next t)
    | .waiting => charge s.cpuTime (idleTime t.params.timing) (.next t.endWait)
    | .running => fetchDecodeExecute s.cpuTime t

/-- The state with an instruction word, and zero words after it up to the longest instruction, where the next step
fetches (log 3). -/
def State.withFetchWord (s : State) (nbits w : Nat) : State :=
  let n := w % 2 ^ nbits
  let s := s.readyToFetch
  ((s.placeWord (s.reg .pc) (BitVec.ofNat 16 n)).placeWord (s.reg .pc + 2) (BitVec.ofNat 16 (n / 65536))).placeWord
    (s.reg .pc + 4) (BitVec.ofNat 16 (n / 4294967296))

end Sys2Proof.Machine
end

