-- ==== Sys2Proof/Machine/HostActions.lean ====
section
/-! DEFINITION. What the host may do between two steps (61_bus_timebase.md R364, R85), and the reset of the whole
machine (70_reset_and_hazards.md R450). These are transitions of their own and no part of a step. -/

namespace Sys2Proof.Machine

/-- What power-on draws (R50, R450, U5): any register values and any bytes of RAM. -/
structure Draw where
  r0 : Word
  r1 : Word
  r2 : Word
  r3 : Word
  r4 : Word
  r5 : Word
  sp : Word
  ram : List Host.Cell
  deriving DecidableEq, Repr

/-- The host's actions. -/
inductive HostAction where
  | raiseIrq1
  | raiseIrq2
  | raiseVirq (v : Word)
  | keyPress (v : Word)
  | mountFloppy (l : DriveLetter) (img : List Byte) (protect : Bool)
  | unmountFloppy (l : DriveLetter)
  | attachIde (second : Bool) (drv : IdeDrive)
  | loadRom (cells : List Host.Cell)
  | reset
  | powerOn (d : Draw)
  deriving DecidableEq, Repr

/-- Some map of the machine places RAM, or ROM, on a cell (R61, R69). -/
def Params.hasCell (p : Params) (k : MemKind) (c : Nat) : Bool :=
  p.maps.any fun m => m.any fun r => decide (r.kind = k) && decide (r.cell ≤ c) && decide (c < r.cell + r.size)

/-- Write the bytes of those cells that a test accepts. -/
def loadCells (accepts : Nat → Bool) (cs : List Host.Cell) (m : Memory) : Memory :=
  cs.foldl (fun m c => if accepts c.1 then m.set c.1 c.2 else m) m

/-- R85: the host loads a cell that some map makes ROM, and that none makes RAM (log 30). -/
def Params.isRomCell (p : Params) (c : Nat) : Bool := Params.hasCell p .rom c && !Params.hasCell p .ram c

/-- R450: what both resets do: devices, latches, PSW, PC, run state. -/
def State.hostReset (s : State) : State :=
  let s := s.initDevices true
  { (s.setReg .pc s.params.startAddress).setPsw s.params.resetPsw with
    runState := .running
    req := { busError := false, reserved := false, trace := false, irq1 := false, irq2 := false, virq := none } }

/-- R450: power-on: time 0, registers and RAM drawn, then the reset. What the devices count from time 0 starts again
(log 15, log 19). -/
def State.powerOn (d : Draw) (s : State) : State :=
  ({ s with
    cpuTime := 0
    timerLast := 0
    floppy := (s.floppy.init s.params.floppyParams).restartClock
    regs := { r0 := d.r0, r1 := d.r1, r2 := d.r2, r3 := d.r3, r4 := d.r4, r5 := d.r5, sp := d.sp, pc := s.regs.pc }
    mem := loadCells (Params.hasCell s.params .ram) d.ram (s.mem.without (Params.hasCell s.params .ram)) }).hostReset

/-- R364: a key press: the keyboard controller is told, and raises the virtual request with its vector. -/
def State.keyPress (v : Word) (s : State) : State :=
  (s.logCall .keyboardController (.key s.cpuTime v)).raise (.virq v)

/-- R364, R85: load ROM; only before the first step, which is when no time has passed (log 30). -/
def State.loadRom (cells : List Host.Cell) (s : State) : State :=
  if s.cpuTime = 0 then { s with mem := loadCells (Params.isRomCell s.params) cells s.mem } else s

/-- R364: the effect of a host action. DESIGN CHOICE: mounting or unmounting the selected drive ends neither a write nor
a search in progress (log 23); attaching an IDE drive leaves the selected interface as it is, though it clears the drive
bit of the interface's own drive/head register (log 26). -/
def hostAct (a : HostAction) (s : State) : State :=
  match a with
  | .raiseIrq1 => s.raise (.line .irq1)
  | .raiseIrq2 => s.raise (.line .irq2)
  | .raiseVirq v => s.raise (.virq v)
  | .keyPress v => s.keyPress v
  | .mountFloppy l img protect =>
    { s with floppy := s.floppy.setDrive l ((s.floppy.drive l).mount s.params.floppyParams img protect) }
  | .unmountFloppy l =>
    { s with floppy := s.floppy.setDrive l ((s.floppy.drive l).unmount s.params.floppyParams) }
  | .attachIde second drv =>
    { s with ide :=
      if second then { s.ide with ifc1 := s.ide.ifc1.attach drv } else { s.ide with ifc0 := s.ide.ifc0.attach drv } }
  | .loadRom cells => s.loadRom cells
  | .reset => s.hostReset
  | .powerOn d => s.powerOn d

end Sys2Proof.Machine
end

