-- ==== Sys2Proof/Safety.lean ====
section
/-! DEFINITION. The terms in which claims are stated: the invariant of the machine, the registers and the memory an
instruction may change, the operand accesses that succeed, and what every outcome of an instruction satisfies. -/

namespace Sys2Proof

/-! ## Instructions by width -/

/-- The word form or the byte form of an instruction (30_encoding.md R103). -/
def byWidth (w : Width) (wordForm byteForm : Instr) : Instr :=
  match w with
  | .word => wordForm
  | .byte => byteForm

/-! ## What an instruction may change -/

/-- The register an operand's addressing mode steps (40_addressing_modes.md R148). -/
def Operand.stepped (o : Operand) : List Reg :=
  match o.mode with
  | .autoInc | .autoIncDef | .autoDec | .autoDecDef => [o.reg]
  | _ => []

/-- The registers a destination operand may change: itself in register mode, else a stepped one. -/
def Operand.written (o : Operand) : List Reg := if o.mode = .register then [o.reg] else o.stepped

/-- The registers other than PC that an instruction may change (41 to 47). -/
def Instr.touched : Instr → List Reg
  | .mov s d | .movb s d | .bic s d | .bicb s d | .bis s d | .bisb s d | .add s d | .sub s d => s.stepped ++ d.written
  | .cmp s d | .cmpb s d | .bit s d | .bitb s d => s.stepped ++ d.stepped
  | .clr d | .clrb d | .com d | .comb d | .inc d | .incb d | .dec d | .decb d | .neg d | .negb d | .asr d | .asrb d
  | .asl d | .aslb d | .ror d | .rorb d | .rol d | .rolb d | .swab d | .adc d | .adcb d | .sbc d | .sbcb d | .sxt d
  | .xor _ d | .mfps d => d.written
  | .tst d | .tstb d | .mtps d | .jmp d => d.stepped
  | .jsr r d => d.stepped ++ [r, .sp]
  | .rts r => [r, .sp]
  | .sob r _ => [r]
  | .mark _ => [.sp, .r5]
  | .emt _ | .trap _ | .iot | .bpt | .rti | .rtt => [.sp]
  | _ => []

/-- The source operand an instruction reads before it resolves its destination, with its width. -/
def Instr.source : Instr → Option (Width × Operand)
  | .mov s _ | .bic s _ | .bis s _ | .add s _ | .sub s _ => some (.word, s)
  | .movb s _ | .bicb s _ | .bisb s _ => some (.byte, s)
  | _ => none

/-- The destination operand an instruction stores to, with its width. -/
def Instr.destination : Instr → Option (Width × Operand)
  | .mov _ d | .bic _ d | .bis _ d | .add _ d | .sub _ d | .clr d | .com d | .inc d | .dec d | .neg d | .asr d | .asl d
  | .ror d | .rol d | .swab d | .adc d | .sbc d | .sxt d | .xor _ d => some (.word, d)
  | .movb _ d | .bicb _ d | .bisb _ d | .clrb d | .comb d | .incb d | .decb d | .negb d | .asrb d | .aslb d | .rorb d
  | .rolb d | .adcb d | .sbcb d | .mfps d => some (.byte, d)
  | _ => none

/-- The instruction may store to memory: to its destination operand, or to the stack. -/
def Instr.stores (i : Instr) : Bool :=
  i.destination.isSome ||
  match i with
  | .jsr _ _ | .emt _ | .trap _ | .iot | .bpt => true
  | _ => false

/-- The instruction changes no bit of PSW (R210, R230, 45, 47). -/
def Instr.keepsPsw : Instr → Bool
  | .br _ | .bne _ | .beq _ | .bge _ | .blt _ | .bgt _ | .ble _ | .bpl _ | .bmi _ | .bhi _ | .blos _ | .bvc _ | .bvs _
  | .bcc _ | .bcs _ | .jmp _ | .jsr _ _ | .rts _ | .sob _ _ | .mark _ | .halt | .wait | .reset | .reserved _ => true
  | _ => false

/-- The instruction keeps C (41, 42, 47). -/
def Instr.keepsCarry (i : Instr) : Bool :=
  i.keepsPsw ||
  match i with
  | .mov _ _ | .movb _ _ | .bit _ _ | .bitb _ _ | .bic _ _ | .bicb _ _ | .bis _ _ | .bisb _ _ | .inc _ | .incb _
  | .dec _ | .decb _ | .xor _ _ | .sxt _ | .mfps _ => true
  | _ => false

/-- The instruction may change T or the priority: RTI, RTT, MTPS and the trap instructions (10_state.md R32). -/
def Instr.loadsPsw : Instr → Bool
  | .rti | .rtt | .mtps _ | .emt _ | .trap _ | .iot | .bpt => true
  | _ => false

/-- The instructions that raise ReservedInstruction: a reserved word, and JMP and JSR in register mode (60_exceptions.md
R303). -/
def Instr.raisesReserved : Instr → Bool
  | .reserved _ => true
  | .jmp d => decide (d.mode = .register)
  | .jsr _ d => decide (d.mode = .register)
  | _ => false

/-- The source operand of a double-operand instruction, with its width (41_double_operand.md R160). -/
def Instr.doubleSource : Instr → Option (Width × Operand)
  | .mov s _ | .cmp s _ | .bit s _ | .bic s _ | .bis s _ | .add s _ | .sub s _ => some (.word, s)
  | .movb s _ | .cmpb s _ | .bitb s _ | .bicb s _ | .bisb s _ => some (.byte, s)
  | _ => none

/-- The instruction may change the run state (45_traps_system.md). -/
def Instr.setsRunState : Instr → Bool
  | .halt | .wait | .emt _ | .trap _ | .iot | .bpt => true
  | _ => false

end Sys2Proof

namespace Sys2Proof.Machine

/-! ## The invariant -/

/-- At most one latch of the instruction stream is set (60_exceptions.md R318). -/
def Requests.exclusive (q : Requests) : Prop :=
  (q.busError = true → q.reserved = false ∧ q.trace = false) ∧ (q.reserved = true → q.trace = false)

/-- No latch of the instruction stream is set. -/
def Requests.quiet (q : Requests) : Prop := q.busError = false ∧ q.reserved = false ∧ q.trace = false

/-- A drive: no image, no buffer; the buffer holds a whole track or nothing; only a writable image is dirty; the head
is on one of the tracks (62_floppy_controller.md R382, R387, R393, R397, R398). -/
structure FloppyDrive.Ok (p : FloppyParams) (x : FloppyDrive) : Prop where
  blank : x.image = none → x.buffer = []
  size : x.buffer = [] ∨ x.buffer.length = p.wordsPerTrack
  clean : x.dirty = true → x.image.isSome = true ∧ x.writeProtect = false
  head : x.track < maxTracks
  last : x.lastTrack < maxTracks

/-- The floppy controller: its four drives, and a write in progress only on a selected drive (R387, R393). -/
structure Floppy.Ok (p : FloppyParams) (f : Floppy) : Prop where
  drives : ∀ l, (f.drive l).Ok p
  writing : f.writeState = .writing → f.selected.isSome = true

/-- An interface: BSY is never set; while DRQ is set a drive is attached, there is no error, and the cursor has a word
left in the buffer; a sector transfer has at least one sector (63_ide_controller.md R420, R422, R429, R430). -/
structure IdeInterface.Ok (i : IdeInterface) : Prop where
  idle : i.status.bsy = false
  attached : i.status.drq = true → i.drive.isSome = true
  noError : i.status.drq = true → i.status.err = false ∧ i.status.drdy = true
  cursor : i.status.drq = true → i.off < i.fin ∧ i.off % 2 = 0 ∧ i.fin % 2 = 0
  sectors : i.status.drq = true → i.endFn = .readNext ∨ i.endFn = .writeSector →
    1 ≤ i.blk ∧ i.fin = sectorBytes * i.blk ∧ (i.multi = true → 1 ≤ i.multiple)

/-- Both interfaces. -/
structure Ide.Ok (d : Ide) : Prop where
  first : d.ifc0.Ok
  second : d.ifc1.Ok

/-- The invariant of the machine. -/
structure State.Inv (s : State) : Prop where
  /-- The memory is in its canonical form. -/
  memory : s.mem.wf = true
  /-- PSW holds only bits that hold state (10_state.md R31). -/
  status : s.psw &&& ~~~s.pswBits = 0
  /-- At most one latch of the instruction stream is set (R318). -/
  latches : s.req.exclusive
  /-- An abandoned instruction was running (00_scope.md R11, R12). -/
  running : s.req.busError = true ∨ s.req.reserved = true → s.runState = .running
  /-- The system timer's stored time is not in the future (61_bus_timebase.md R360). -/
  timer : s.timerLast ≤ s.cpuTime
  floppy : s.floppy.Ok s.params.floppyParams
  ide : s.ide.Ok

/-! ## The memory an instruction stores to -/

/-- The state in which an instruction resolves its destination: after its source has been read, if it has one. -/
def State.afterSource (s : State) (i : Instr) : Option State :=
  match i.source with
  | none => some s
  | some (w, o) =>
    match s.srcRead w o with
    | .ok _ t => some t
    | _ => none

/-- The cells of a store to a place, in the state in which it has been resolved; none for a register. -/
def State.placeCells (s : State) (w : Width) (p : Place) : List Nat :=
  match p.loc with
  | .mem a => s.storeCells w a
  | .reg _ => []

/-- The cells a destination operand is stored to. -/
def State.operandCells (s : State) (w : Width) (o : Operand) : List Nat :=
  match s.resolve w o with
  | .ok p t => t.placeCells w p
  | _ => []

/-- The cells of one push. -/
def State.pushCells (s : State) : List Nat := s.storeCells .word (s.reg .sp - 2)

/-- The cells of the two pushes of a trap entry. -/
def State.trapCells (s : State) : List Nat :=
  s.pushCells ++
    match s.push s.psw with
    | .ok _ t => t.pushCells
    | _ => []

/-- The cells of memory an instruction stores to: its destination operand's, or the stack's. -/
def State.storedCells (s : State) (i : Instr) : List Nat :=
  match i with
  | .jsr _ d =>
    match s.effAddr d with
    | .ok _ t => t.pushCells
    | _ => []
  | .emt _ | .trap _ | .iot | .bpt => s.trapCells
  | _ =>
    match i.destination, s.afterSource i with
    | some (w, o), some t => t.operandCells w o
    | _, _ => []

end Sys2Proof.Machine

namespace Sys2Proof

/-! ## The steps of registers (40_addressing_modes.md R148) -/

/-- What a read of an operand adds to its register, when that is not PC. -/
def Operand.delta (w : Width) (o : Operand) : Word :=
  match o.mode with
  | .autoInc => Machine.stepSize w o.reg
  | .autoIncDef => 2
  | .autoDec => 0 - Machine.stepSize w o.reg
  | .autoDecDef => 0 - 2
  | _ => 0

/-- What a read of an operand adds to PC through an extension word. -/
def Operand.pcDelta (o : Operand) : Word :=
  match o.mode with
  | .index | .indexDef => 2
  | _ => 0

end Sys2Proof

namespace Sys2Proof.Machine

/-! ## Accesses to plain memory -/

/-- An access of width `w` at the address is served by RAM or ROM, the cell of its word being `p`: it is aligned as
the machine asks, no device answers, and the map has memory there. -/
def State.memoryAt (s : State) (w : Width) (a : Word) (k : MemKind) (p : Nat) : Prop :=
  s.misaligned w a = false ∧ s.device (evenAddr a) = none ∧ s.cellOf (evenAddr a) = some (k, p)

/-- A word read at the address is served by RAM or ROM and gives `v`. -/
def State.wordIs (s : State) (a v : Word) : Prop := ∃ k p, s.memoryAt .word a k p ∧ s.mem.getWord p = v

/-- The operand is a register, or lies in memory of kind `k` at address `a` with its pointers in RAM or ROM
(40_addressing_modes.md R133 to R139). -/
def State.operandAt (s : State) (w : Width) (o : Operand) (k : MemKind) : Prop :=
  match o.mode with
  | .register => True
  | .deferred | .autoInc => ∃ p, s.memoryAt w (s.reg o.reg) k p
  | .autoIncDef => ∃ a p, s.wordIs (s.reg o.reg) a ∧ s.memoryAt w a k p
  | .autoDec => ∃ p, s.memoryAt w (s.reg o.reg - stepSize w o.reg) k p
  | .autoDecDef => ∃ a p, s.wordIs (s.reg o.reg - 2) a ∧ s.memoryAt w a k p
  | .index => ∃ d p, s.wordIs (s.reg .pc) d ∧ s.memoryAt w (s.advancePc.reg o.reg + d) k p
  | .indexDef => ∃ d a p, s.wordIs (s.reg .pc) d ∧ s.wordIs (s.advancePc.reg o.reg + d) a ∧ s.memoryAt w a k p

/-- Every region of every map begins at an even address and has whole words. -/
def Params.wordRegions (p : Params) : Bool :=
  p.maps.all fun m => m.all fun r => decide (r.base % 2 = 0) && decide (r.size % 2 = 0)

/-! ## Outcomes -/

/-- What holds of the state an outcome carries: the next state, or the faulted one. -/
def outcomeSat (P : State → Prop) (x : Host.Outcome State Fault Refusal) : Prop :=
  match x with
  | .next s => P s
  | .fault (.doubleBusError s) => P s
  | .refused _ => True

end Sys2Proof.Machine
end

