-- ==== Sys2Proof/Certificates/Slice0/Obligations.lean ====
section
/-! DEFINITION. The statements about the machine, for the provers. A comment "decision Dn" or "general knowledge"
repeats the spec's own mark on the rule. -/

open Sys2Proof Sys2Proof.Machine

/-! ## Encoding (30_encoding.md) -/

/-- R101, R105: decoding an encoded well-formed instruction gives it back, every operand at every value. -/
def Obligations.DecodeOfEncodeIsIdentity : Prop := ∀ i : Instr, i.wf = true → decode (encode i) = i

/-- R106: every word decodes to a well-formed instruction, and that instruction's word is it. -/
def Obligations.EncodeOfDecodeIsIdentity : Prop := ∀ w : Word, (decode w).wf = true ∧ encode (decode w) = w

/-- R105 with R112: exactly one row of the opcode table covers a word, and the decoder reads that row's instruction. -/
def Obligations.OneOpcodeRowDecidesEachWord : Prop :=
  ∀ w : Word, ∃ r, opcodeTable.filter (fun q => q.covers w) = [r] ∧ (decode w).mnemonic = r.mnemonic

/-- R106, R112 (decision D3): the words of the reserved space, and no others, decode to `reserved`, and that raises
ReservedInstruction with no other effect. -/
def Obligations.ReservedWordsRaiseReservedInstruction : Prop :=
  ∀ w : Word, (isReservedWord w = true ↔ decode w = .reserved w) ∧ ((∃ v, decode w = .reserved v) ↔ isReservedWord w = true) ∧
    ∀ s : State, exec (.reserved w) s = .next s.raiseReserved

/-- R105: words written out from the table, one a family, and the instructions they stand for. -/
def Obligations.SampleWordsDecode : Prop :=
  decode 0o012701 = .mov ⟨.autoInc, .pc⟩ ⟨.register, .r1⟩ ∧
  decode 0o124654 = .cmpb ⟨.autoDec, .sp⟩ ⟨.autoDecDef, .r4⟩ ∧
  decode 0o160415 = .sub ⟨.register, .r4⟩ ⟨.deferred, .r5⟩ ∧
  decode 0o105733 = .tstb ⟨.autoIncDef, .r3⟩ ∧
  decode 0o000362 = .swab ⟨.index, .r2⟩ ∧
  decode 0o002775 = .blt 0xfd ∧
  decode 0o103402 = .bcs 2 ∧
  decode 0o000177 = .jmp ⟨.indexDef, .pc⟩ ∧
  decode 0o004537 = .jsr .r5 ⟨.autoIncDef, .pc⟩ ∧
  decode 0o000203 = .rts .r3 ∧
  decode 0o104377 = .emt 0xff ∧
  decode 0o000002 = .rti ∧
  decode 0o000265 = .ccop true 5 ∧
  decode 0o077342 = .sob .r3 0o42 ∧
  decode 0o074401 = .xor .r4 ⟨.register, .r1⟩ ∧
  decode 0o106427 = .mtps ⟨.autoInc, .pc⟩ ∧
  decode 0o006477 = .mark 0o77 ∧
  decode 0o070001 = .reserved 0o070001

/-! ## Registers (10_state.md) -/

/-- R22: a word write replaces all 16 bits of a register, a word read returns them, and no other register changes. -/
def Obligations.RegisterReadAfterWrite : Prop :=
  ∀ (s : State) (r q : Reg) (v : Word), (s.setReg r v).reg q = if q = r then v else s.reg q

/-- R24 (decision D21), R106 and R270 (decision D2, U11): an instruction of the nine unnamed classes is refused when the
parameter says so; a byte instruction with register-mode SP or PC is refused; nothing else ever is. -/
def Obligations.OnlyUnnamedAndByteSpPcFormsAreRefused : Prop :=
  ∀ (i : Instr) (s : State),
    (i.isUnnamed = true → s.params.unnamedOpcodes = .refuse → exec i s = .refused .unnamedOpcode) ∧
    (i.isUnnamed = false ∨ s.params.unnamedOpcodes = .execute → i.hasMeaning = false →
      exec i s = .refused .byteRegisterSpPc) ∧
    (∀ r, exec i s = .refused r →
      (r = .unnamedOpcode ∧ i.isUnnamed = true ∧ s.params.unnamedOpcodes = .refuse) ∨
      (r = .byteRegisterSpPc ∧ i.hasMeaning = false))

/-! ## Memory (20_memory.md) -/

/-- R66 (decisions D10, D25): a read cycle. The device answers first, then RAM or ROM; else BUS_ERROR. A byte is the
half of the word that its address selects. -/
def Obligations.ReadCycle : Prop :=
  ∀ (s : State) (w : Width) (a : Word),
    (s.misaligned w a = decide (w = .word ∧ a.getLsbD 0 = true ∧ s.params.oddWordAccess = .busError)) ∧
    (s.misaligned w a = true → s.load w a = (none, s)) ∧
    (s.misaligned w a = false → ∀ d k, s.device (evenAddr a) = some (d, k) →
      s.load w a = ((s.devRead d k (evenAddr a)).1.map (lane w a), (s.devRead d k (evenAddr a)).2)) ∧
    (s.misaligned w a = false → s.device (evenAddr a) = none → ∀ k p, s.cellOf (evenAddr a) = some (k, p) →
      s.load w a = (some (lane w a (s.mem.getWord p)), s)) ∧
    (s.device (evenAddr a) = none → s.cellOf (evenAddr a) = none → s.load w a = (none, s)) ∧
    (∀ v, lane w a v = match w with
      | .word => v
      | .byte => if a.getLsbD 0 then v >>> 8 else v &&& 0x00ff)

/-- R67, R68, R69 (decisions D10, D25): a write cycle. A device sees the byte on the lane of its address, and its
rejection is no error; RAM takes the value; ROM ignores it; else BUS_ERROR. -/
def Obligations.WriteCycle : Prop :=
  ∀ (s : State) (w : Width) (a v : Word),
    (s.misaligned w a = true → s.store w a v = (false, s)) ∧
    (s.misaligned w a = false → ∀ d k, s.device (evenAddr a) = some (d, k) →
      s.store w a v =
        (true, (s.devWrite d k (decide (w = .byte)) (match w with | .word => evenAddr a | .byte => a)
          (match w with
            | .word => v
            | .byte => if a.getLsbD 0 then v <<< 8 else v &&& 0x00ff)).2)) ∧
    (s.misaligned w a = false → s.device (evenAddr a) = none → ∀ p, s.cellOf (evenAddr a) = some (.ram, p) →
      s.store w a v = (true, { s with mem :=
        match w with
        | .word => s.mem.setWord p v
        | .byte => s.mem.set (if a.getLsbD 0 then p + 1 else p) (v.setWidth 8) })) ∧
    (s.misaligned w a = false → s.device (evenAddr a) = none → ∀ p, s.cellOf (evenAddr a) = some (.rom, p) →
      s.store w a v = (true, s)) ∧
    (s.device (evenAddr a) = none → s.cellOf (evenAddr a) = none → s.store w a v = (false, s))

/-- R63 (decision D9): what is stored in RAM is read back, low byte at the even address; two byte writes make a
word. -/
def Obligations.StoredWordIsReadBackLowByteFirst : Prop :=
  ∀ (s : State) (a v : Word) (p : Nat), s.mem.wf = true → s.memoryAt .word a .ram p →
    (s.store .word a v).1 = true ∧
    (s.store .word a v).2.load .word a = (some v, (s.store .word a v).2) ∧
    (s.store .word a v).2.load .byte (evenAddr a) = (some (v &&& 0x00ff), (s.store .word a v).2) ∧
    (s.store .word a v).2.load .byte (evenAddr a + 1) = (some (v >>> 8), (s.store .word a v).2) ∧
    ∀ hi lo : Word,
      (((s.store .byte (evenAddr a) lo).2.store .byte (evenAddr a + 1) hi).2.load .word a).1 =
        some (joinBytes (lowByte hi) (lowByte lo))

/-- R69: an instruction, an event or an idle tick changes only cells that some map places RAM on. The premise, that
regions hold whole words, is about the parameters and never changes. -/
def Obligations.StepChangesOnlyRam : Prop :=
  ∀ (s t : State) (c : Nat), Machine.Params.wordRegions s.params = true → step s = .next t →
    Params.hasCell s.params .ram c = false → t.mem.get c = s.mem.get c

/-! ## Operands (40_addressing_modes.md) -/

/-- R131, R132: the step size, and the location and post-action of each mode, pointers and displacements read with
bus-error propagation. -/
def Obligations.AddressingModes : Prop :=
  ∀ (s : State) (w : Width) (r : Reg),
    (stepSize w r = if w = .byte ∧ r ≠ .sp ∧ r ≠ .pc then 1 else 2) ∧
    (s.resolve w ⟨.register, r⟩ = .ok ⟨.reg r, none⟩ s) ∧
    (s.resolve w ⟨.deferred, r⟩ = .ok ⟨.mem (s.reg r), none⟩ s) ∧
    (s.resolve w ⟨.autoInc, r⟩ = .ok ⟨.mem (s.reg r), some (r, stepSize w r)⟩ s) ∧
    (∀ a t, s.read .word (s.reg r) = .ok a t → s.resolve w ⟨.autoIncDef, r⟩ = .ok ⟨.mem a, some (r, 2)⟩ t) ∧
    (∀ t, s.read .word (s.reg r) = .abandoned t → s.resolve w ⟨.autoIncDef, r⟩ = .abandoned t) ∧
    (s.resolve w ⟨.autoDec, r⟩ =
      .ok ⟨.mem (s.reg r - stepSize w r), none⟩ (s.setReg r (s.reg r - stepSize w r))) ∧
    (∀ a t, (s.setReg r (s.reg r - 2)).read .word (s.reg r - 2) = .ok a t →
      s.resolve w ⟨.autoDecDef, r⟩ = .ok ⟨.mem a, none⟩ t) ∧
    (∀ t, (s.setReg r (s.reg r - 2)).read .word (s.reg r - 2) = .abandoned t →
      s.resolve w ⟨.autoDecDef, r⟩ = .abandoned t) ∧
    (∀ d t, s.read .word (s.reg .pc) = .ok d t →
      s.resolve w ⟨.index, r⟩ =
        .ok ⟨.mem ((t.setReg .pc (t.reg .pc + 2)).reg r + d), none⟩ (t.setReg .pc (t.reg .pc + 2)) ∧
      (∀ a u, (t.setReg .pc (t.reg .pc + 2)).read .word ((t.setReg .pc (t.reg .pc + 2)).reg r + d) = .ok a u →
        s.resolve w ⟨.indexDef, r⟩ = .ok ⟨.mem a, none⟩ u) ∧
      (∀ u, (t.setReg .pc (t.reg .pc + 2)).read .word ((t.setReg .pc (t.reg .pc + 2)).reg r + d) = .abandoned u →
        s.resolve w ⟨.indexDef, r⟩ = .abandoned u)) ∧
    (∀ t, s.read .word (s.reg .pc) = .abandoned t →
      s.resolve w ⟨.index, r⟩ = .abandoned t ∧ s.resolve w ⟨.indexDef, r⟩ = .abandoned t)

/-- R140 to R143: reading and writing a location, and the source, read-modify-write and write-back accesses; a device
that takes no value does not keep a write from completing. -/
def Obligations.OperandPrimitives : Prop :=
  ∀ (s : State) (w : Width) (o : Operand) (r : Reg) (a v : Word) (p : Place),
    (s.readLoc .word (.reg r) = .ok (s.reg r) s) ∧
    (s.readLoc .byte (.reg r) = .ok (s.reg r &&& 0x00ff) s) ∧
    (s.readLoc w (.mem a) = s.read w a) ∧
    (s.writeLoc .word (.reg r) v = .ok () (s.setReg r v)) ∧
    (s.writeLoc .byte (.reg r) v = .ok () (s.setReg r ((s.reg r &&& 0xff00) ||| (v &&& 0x00ff)))) ∧
    (s.writeLoc w (.mem a) v = s.write w a v) ∧
    (s.misaligned w a = false → ∀ d k, s.device (evenAddr a) = some (d, k) → ∃ t, s.writeLoc w (.mem a) v = .ok () t) ∧
    (s.doPost ⟨.mem a, none⟩ = s) ∧
    (s.doPost ⟨.mem a, some (r, v)⟩ = s.setReg r (s.reg r + v)) ∧
    (s.srcRead w o =
      (s.resolve w o).andThen fun q t => (t.readLoc w q.loc).andThen fun x u => .ok x (u.doPost q)) ∧
    (s.dstRead w o = (s.resolve w o).andThen fun q t => (t.readLoc w q.loc).andThen fun x u => .ok (q, x) u) ∧
    (s.dstWrite w p v = (s.writeLoc w p.loc v).andThen fun _ t => .ok () (t.doPost p))

/-- R148: what the read of an operand does to its register and to PC, and that it changes no other register. -/
def Obligations.OperandReadStepsRegisters : Prop :=
  ∀ (s t : State) (w : Width) (o : Operand) (v : Word), s.srcRead w o = .ok v t →
    (o.reg ≠ .pc → t.reg o.reg = s.reg o.reg + o.delta w ∧ t.reg .pc = s.reg .pc + o.pcDelta) ∧
    (o.reg = .pc → t.reg .pc = s.reg .pc + o.delta w + o.pcDelta) ∧
    (∀ r, r ≠ o.reg → r ≠ .pc → t.reg r = s.reg r)

/-- R133 to R145: an operand in a register or in memory can be read; in a register or in RAM it can be written, with
or without having been read. -/
def Obligations.OperandsInMemoryAreReadAndWritten : Prop :=
  ∀ (s : State) (w : Width) (o : Operand),
    (∀ k, s.operandAt w o k →
      (∃ v t, s.srcRead w o = .ok v t) ∧ (∃ p d t, s.dstRead w o = .ok (p, d) t)) ∧
    (s.operandAt w o .ram →
      (∀ p d t, s.dstRead w o = .ok (p, d) t → ∀ v, ∃ u, t.dstWrite w p v = .ok () u) ∧
      (∀ v, ∃ u, s.dstStore w o v = .ok () u) ∧
      (o.mode ≠ .register → ∃ a t, s.effAddr o = .ok a t))

/-! ## Bus errors (40_addressing_modes.md R147, 41_double_operand.md R160) -/

/-- R160, R147: a bus error on the source read ends a double-operand instruction with the destination and the status
word as they were; the trap is requested. -/
def Obligations.SourceBusErrorLeavesDestinationAndFlags : Prop :=
  ∀ (i : Instr) (w : Width) (src : Operand) (s t : State), i.doubleSource = some (w, src) → i.hasMeaning = true →
    s.srcRead w src = .abandoned t →
    exec i s = .next t ∧ t.req.busError = true ∧ t.psw = s.psw ∧ t.mem = s.mem ∧
      ∀ r, r ≠ .pc → r ∉ src.stepped → t.reg r = s.reg r

/-- R11, R12, R32 (a): an instruction that raises BusError or ReservedInstruction has changed neither the status word
nor the run state. -/
def Obligations.AbandonedInstructionKeepsStatus : Prop :=
  ∀ (i : Instr) (s t : State), exec i s = .next t → s.req.busError = false → s.req.reserved = false →
    t.req.busError = true ∨ t.req.reserved = true → t.psw = s.psw ∧ t.runState = s.runState

/-! ## Double-operand instructions (41_double_operand.md) -/

/-- R161 (decisions D21, D23): MOV and MOVB. The destination is not read; a register takes the sign-extended byte. -/
def Obligations.MoveResult : Prop :=
  ∀ (src dst : Operand) (s s1 s2 : State) (v : Word),
    (s.srcRead .word src = .ok v s1 → s1.dstStore .word dst v = .ok () s2 →
      exec (.mov src dst) s = .next (s2.setCc (v.getLsbD 15) (decide (v = 0)) false s.flagC)) ∧
    ((Instr.movb src dst).hasMeaning = true → s.srcRead .byte src = .ok v s1 →
      (dst.mode = .register →
        exec (.movb src dst) s =
          .next ((s1.setReg dst.reg ((v.setWidth 8).signExtend 16)).setCc (v.getLsbD 7) (decide (v = 0)) false
            s.flagC)) ∧
      (dst.mode ≠ .register → s1.dstStore .byte dst v = .ok () s2 →
        exec (.movb src dst) s = .next (s2.setCc (v.getLsbD 7) (decide (v = 0)) false s.flagC)))

/-- R162: CMP and CMPB: source minus destination, flags only; and their words (the bit patterns are general knowledge,
decision D1, log 7). -/
def Obligations.CompareResult : Prop :=
  ∀ (src dst : Operand),
    encode (.cmp src dst) = BitVec.ofNat 16 (0o020000 + 0o100 * src.code + dst.code) ∧
    encode (.cmpb src dst) = BitVec.ofNat 16 (0o120000 + 0o100 * src.code + dst.code) ∧
    ∀ (w : Width) (s s1 s2 : State) (a d : Word) (p : Place),
      (byWidth w (.cmp src dst) (.cmpb src dst)).hasMeaning = true →
      s.srcRead w src = .ok a s1 → s1.dstRead w dst = .ok (p, d) s2 →
      exec (byWidth w (.cmp src dst) (.cmpb src dst)) s =
        .next ((s2.doPost p).setCc (topBit w ((a - d) &&& widthMask w)) (decide ((a - d) &&& widthMask w = 0))
          (decide ((a ^^^ d) &&& (~~~d ^^^ ((a - d) &&& widthMask w)) &&& widthSign w ≠ 0))
          (decide (a.toNat < d.toNat)))

/-- R163, R164, R165: BIT, BITB (flags only), BIC, BICB, BIS, BISB. -/
def Obligations.BitInstructionsResult : Prop :=
  ∀ (w : Width) (src dst : Operand) (s s1 s2 s3 : State) (a d : Word) (p : Place),
    (byWidth w (.bit src dst) (.bitb src dst)).hasMeaning = true →
    s.srcRead w src = .ok a s1 → s1.dstRead w dst = .ok (p, d) s2 →
    (exec (byWidth w (.bit src dst) (.bitb src dst)) s =
      .next ((s2.doPost p).setCc (topBit w (a &&& d)) (decide (a &&& d = 0)) false s.flagC)) ∧
    (s2.dstWrite w p (d &&& ~~~a) = .ok () s3 →
      exec (byWidth w (.bic src dst) (.bicb src dst)) s =
        .next (s3.setCc (topBit w (d &&& ~~~a)) (decide (d &&& ~~~a = 0)) false s.flagC)) ∧
    (s2.dstWrite w p (d ||| a) = .ok () s3 →
      exec (byWidth w (.bis src dst) (.bisb src dst)) s =
        .next (s3.setCc (topBit w (d ||| a)) (decide (d ||| a = 0)) false s.flagC))

/-- R166, R167: ADD (source plus destination) and SUB (destination minus source). -/
def Obligations.AddAndSubtractResult : Prop :=
  ∀ (src dst : Operand) (s s1 s2 s3 : State) (a d : Word) (p : Place),
    s.srcRead .word src = .ok a s1 → s1.dstRead .word dst = .ok (p, d) s2 →
    (s2.dstWrite .word p (a + d) = .ok () s3 →
      exec (.add src dst) s =
        .next (s3.setCc ((a + d).getLsbD 15) (decide (a + d = 0))
          (decide (~~~(a ^^^ d) &&& (a ^^^ (a + d)) &&& 0o100000 ≠ 0)) (decide (0o177777 < a.toNat + d.toNat)))) ∧
    (s2.dstWrite .word p (d - a) = .ok () s3 →
      exec (.sub src dst) s =
        .next (s3.setCc ((d - a).getLsbD 15) (decide (d - a = 0))
          (decide ((a ^^^ d) &&& (~~~a ^^^ (d - a)) &&& 0o100000 ≠ 0)) (decide (d.toNat < a.toNat))))

/-- R162, R166, R167: the sign formulas of V say that the exact signed result leaves the number range. -/
def Obligations.OverflowFlagIsSignedOverflow : Prop :=
  (∀ (a d : Word) (c : Bool),
    ((aluAdd a d c).v = true ↔ ¬(-32768 ≤ a.toInt + d.toInt ∧ a.toInt + d.toInt ≤ 32767)) ∧
    ((aluSub a d c).v = true ↔ ¬(-32768 ≤ d.toInt - a.toInt ∧ d.toInt - a.toInt ≤ 32767)) ∧
    ((aluCmp .word a d c).v = true ↔ ¬(-32768 ≤ a.toInt - d.toInt ∧ a.toInt - d.toInt ≤ 32767))) ∧
  (∀ (a d : Byte) (c : Bool),
    ((aluCmp .byte (a.setWidth 16) (d.setWidth 16) c).v = true ↔
      ¬(-128 ≤ a.toInt - d.toInt ∧ a.toInt - d.toInt ≤ 127)))

/-! ## Single-operand instructions (42_single_operand.md) -/

/-- R181, R273 (decisions D2, D23): CLR, CLRB and, where the unnamed classes execute, SXT. The destination is not
read. -/
def Obligations.ClearAndSignExtendResult : Prop :=
  ∀ (w : Width) (dst : Operand) (s s1 : State),
    ((byWidth w (.clr dst) (.clrb dst)).hasMeaning = true → s.dstStore w dst 0 = .ok () s1 →
      exec (byWidth w (.clr dst) (.clrb dst)) s = .next (s1.setCc false true false false)) ∧
    (s.params.unnamedOpcodes = .execute → s.dstStore .word dst (if s.flagN then 0o177777 else 0) = .ok () s1 →
      exec (.sxt dst) s = .next (s1.setCc s.flagN (!s.flagN) false s.flagC))

/-- R182, R185: COM, COMB, NEG, NEGB. -/
def Obligations.ComplementAndNegateResult : Prop :=
  ∀ (w : Width) (dst : Operand) (s s1 s2 : State) (d : Word) (p : Place),
    (byWidth w (.com dst) (.comb dst)).hasMeaning = true → s.dstRead w dst = .ok (p, d) s1 →
    (s1.dstWrite w p (~~~d &&& widthMask w) = .ok () s2 →
      exec (byWidth w (.com dst) (.comb dst)) s =
        .next (s2.setCc (topBit w (~~~d &&& widthMask w)) (decide (~~~d &&& widthMask w = 0)) false true)) ∧
    (s1.dstWrite w p ((0 - d) &&& widthMask w) = .ok () s2 →
      exec (byWidth w (.neg dst) (.negb dst)) s =
        .next (s2.setCc (topBit w ((0 - d) &&& widthMask w)) (decide ((0 - d) &&& widthMask w = 0))
          (decide ((0 - d) &&& widthMask w = widthSign w)) (decide ((0 - d) &&& widthMask w ≠ 0))))

/-- R183, R184: INC, INCB, DEC, DECB; C is kept. -/
def Obligations.IncrementAndDecrementResult : Prop :=
  ∀ (w : Width) (dst : Operand) (s s1 s2 : State) (d : Word) (p : Place),
    (byWidth w (.inc dst) (.incb dst)).hasMeaning = true → s.dstRead w dst = .ok (p, d) s1 →
    (s1.dstWrite w p ((d + 1) &&& widthMask w) = .ok () s2 →
      exec (byWidth w (.inc dst) (.incb dst)) s =
        .next (s2.setCc (topBit w ((d + 1) &&& widthMask w)) (decide ((d + 1) &&& widthMask w = 0))
          (decide (d = widthSign w - 1)) s.flagC)) ∧
    (s1.dstWrite w p ((d - 1) &&& widthMask w) = .ok () s2 →
      exec (byWidth w (.dec dst) (.decb dst)) s =
        .next (s2.setCc (topBit w ((d - 1) &&& widthMask w)) (decide ((d - 1) &&& widthMask w = 0))
          (decide (d = widthSign w)) s.flagC))

/-- R186: TST and TSTB: one read, nothing written. -/
def Obligations.TestResult : Prop :=
  ∀ (w : Width) (dst : Operand) (s s1 : State) (d : Word) (p : Place),
    (byWidth w (.tst dst) (.tstb dst)).hasMeaning = true → s.dstRead w dst = .ok (p, d) s1 →
    exec (byWidth w (.tst dst) (.tstb dst)) s =
      .next ((s1.doPost p).setCc (topBit w d) (decide (d = 0)) false false)

/-- R187, R188: ASR, ASRB, ASL, ASLB; C is the bit shifted out, V the exclusive or of the new N and the new C. -/
def Obligations.ArithmeticShiftResult : Prop :=
  ∀ (w : Width) (dst : Operand) (s s1 s2 : State) (d : Word) (p : Place),
    (byWidth w (.asr dst) (.asrb dst)).hasMeaning = true → s.dstRead w dst = .ok (p, d) s1 →
    (s1.dstWrite w p ((d >>> 1) ||| (d &&& widthSign w)) = .ok () s2 →
      exec (byWidth w (.asr dst) (.asrb dst)) s =
        .next (s2.setCc (topBit w ((d >>> 1) ||| (d &&& widthSign w)))
          (decide ((d >>> 1) ||| (d &&& widthSign w) = 0))
          (topBit w ((d >>> 1) ||| (d &&& widthSign w)) ^^ d.getLsbD 0) (d.getLsbD 0))) ∧
    (s1.dstWrite w p ((d <<< 1) &&& widthMask w) = .ok () s2 →
      exec (byWidth w (.asl dst) (.aslb dst)) s =
        .next (s2.setCc (topBit w ((d <<< 1) &&& widthMask w)) (decide ((d <<< 1) &&& widthMask w = 0))
          (topBit w ((d <<< 1) &&& widthMask w) ^^ topBit w d) (topBit w d)))

/-- R189, R190: ROR, RORB, ROL, ROLB: rotations of the operand together with C. -/
def Obligations.RotateResult : Prop :=
  ∀ (w : Width) (dst : Operand) (s s1 s2 : State) (d r : Word) (p : Place),
    (byWidth w (.ror dst) (.rorb dst)).hasMeaning = true → s.dstRead w dst = .ok (p, d) s1 →
    s1.dstWrite w p r = .ok () s2 →
    (r = (d >>> 1) ||| (if s.flagC then widthSign w else 0) →
      exec (byWidth w (.ror dst) (.rorb dst)) s =
        .next (s2.setCc (topBit w r) (decide (r = 0)) (topBit w r ^^ d.getLsbD 0) (d.getLsbD 0))) ∧
    (r = ((d <<< 1) ||| (if s.flagC then 1 else 0)) &&& widthMask w →
      exec (byWidth w (.rol dst) (.rolb dst)) s =
        .next (s2.setCc (topBit w r) (decide (r = 0)) (topBit w r ^^ topBit w d) (topBit w d)))

/-- R191, R274 (decision D2): SWAB, with N and Z of the low byte of the result, and, where the unnamed classes execute,
XOR, whose register is read before the destination is resolved. -/
def Obligations.SwapBytesAndExclusiveOrResult : Prop :=
  ∀ (r : Reg) (dst : Operand) (s s1 s2 : State) (d : Word) (p : Place), s.dstRead .word dst = .ok (p, d) s1 →
    (s1.dstWrite .word p ((d <<< 8) ||| (d >>> 8)) = .ok () s2 →
      exec (.swab dst) s = .next (s2.setCc (d.getLsbD 15) (decide (d >>> 8 = 0)) false false)) ∧
    (s.params.unnamedOpcodes = .execute → s1.dstWrite .word p (s.reg r ^^^ d) = .ok () s2 →
      exec (.xor r dst) s =
        .next (s2.setCc ((s.reg r ^^^ d).getLsbD 15) (decide (s.reg r ^^^ d = 0)) false s.flagC))

/-- R271, R272 (decision D2, U7): ADC, ADCB, SBC, SBCB where the unnamed classes execute; V of SBC is the true overflow
or, under the other value of the parameter, set for the most negative operand whatever C is. -/
def Obligations.AddAndSubtractCarryResult : Prop :=
  ∀ (w : Width) (dst : Operand) (s s1 s2 : State) (d r : Word) (p : Place),
    s.params.unnamedOpcodes = .execute →
    (byWidth w (.adc dst) (.adcb dst)).hasMeaning = true → s.dstRead w dst = .ok (p, d) s1 →
    s1.dstWrite w p r = .ok () s2 →
    (r = (d + if s.flagC then 1 else 0) &&& widthMask w →
      exec (byWidth w (.adc dst) (.adcb dst)) s =
        .next (s2.setCc (topBit w r) (decide (r = 0)) (decide (s.flagC = true ∧ d = widthSign w - 1))
          (decide (s.flagC = true ∧ d = widthMask w)))) ∧
    (r = (d - if s.flagC then 1 else 0) &&& widthMask w →
      exec (byWidth w (.sbc dst) (.sbcb dst)) s =
        .next (s2.setCc (topBit w r) (decide (r = 0))
          (decide ((s.flagC = true ∨ s.params.sbcOverflow = .operandIsSign) ∧ d = widthSign w))
          (decide (s.flagC = true ∧ d = 0))))

/-! ## Branches, jumps, subroutines (43_branches.md, 44_jump_subroutine.md, 47_unnamed_extensions.md) -/

/-- R210 to R225: every branch completes, writes PC alone, and is taken by its predicate. -/
def Obligations.BranchResult : Prop :=
  ∀ (off : Byte) (s : State),
    let go : Bool → Host.Outcome State Fault Refusal := fun b =>
      .next (if b then s.setReg .pc (s.reg .pc + 2 * off.signExtend 16) else s)
    exec (.br off) s = go true ∧
    exec (.bne off) s = go (!s.flagZ) ∧
    exec (.beq off) s = go s.flagZ ∧
    exec (.bge off) s = go (s.flagN == s.flagV) ∧
    exec (.blt off) s = go (s.flagN != s.flagV) ∧
    exec (.bgt off) s = go (!s.flagZ && s.flagN == s.flagV) ∧
    exec (.ble off) s = go (s.flagZ || s.flagN != s.flagV) ∧
    exec (.bpl off) s = go (!s.flagN) ∧
    exec (.bmi off) s = go s.flagN ∧
    exec (.bhi off) s = go (!s.flagC && !s.flagZ) ∧
    exec (.blos off) s = go (s.flagC || s.flagZ) ∧
    exec (.bvc off) s = go (!s.flagV) ∧
    exec (.bvs off) s = go s.flagV ∧
    exec (.bcc off) s = go (!s.flagC) ∧
    exec (.bcs off) s = go s.flagC

/-- R275, R278 (decision D2): SOB and MARK where the unnamed classes execute. -/
def Obligations.SubtractOneBranchAndMarkResult : Prop :=
  ∀ (s : State), s.params.unnamedOpcodes = .execute →
    (∀ (r : Reg) (off : BitVec 6), r ≠ .pc →
      exec (.sob r off) s =
        .next (if s.reg r - 1 = 0 then s.setReg r (s.reg r - 1)
          else (s.setReg r (s.reg r - 1)).setReg .pc (s.reg .pc - 2 * off.setWidth 16))) ∧
    (∀ off : BitVec 6, exec (.sob .pc off) s =
        .next (if s.reg .pc - 1 = 0 then s.setReg .pc (s.reg .pc - 1)
          else s.setReg .pc (s.reg .pc - 1 - 2 * off.setWidth 16))) ∧
    (∀ (nn : BitVec 6) (v : Word) (s1 : State), s.read .word (s.reg .pc + 2 * nn.setWidth 16) = .ok v s1 →
      exec (.mark nn) s =
        .next (((s1.setReg .sp (s.reg .pc + 2 * nn.setWidth 16 + 2)).setReg .pc (s.reg .r5)).setReg .r5 v))

/-- R231, R111: JMP goes to the operand's address, not to what stands there; in register mode it raises
ReservedInstruction with no other effect. -/
def Obligations.JumpResult : Prop :=
  ∀ (dst : Operand) (s : State),
    (∀ a s1, s.effAddr dst = .ok a s1 → exec (.jmp dst) s = .next (s1.setReg .pc a)) ∧
    (dst.mode = .register → exec (.jmp dst) s = .next s.raiseReserved)

/-- R232, R233 (decisions D11, D12, D22, D24): JSR pushes the linkage register, which then takes the return address;
RTS is the inverse; a failed pop changes no register. -/
def Obligations.SubroutineCallAndReturnResult : Prop :=
  ∀ (r : Reg) (dst : Operand) (s : State),
    (∀ a s1 s2, s.effAddr dst = .ok a s1 → s1.push (s1.reg r) = .ok () s2 →
      exec (.jsr r dst) s = .next ((s2.setReg r (s1.reg .pc)).setReg .pc a)) ∧
    (∀ a s1 s2, s.effAddr dst = .ok a s1 → s1.push (s1.reg r) = .fault (.doubleBusError s2) →
      exec (.jsr r dst) s = .fault (.doubleBusError s2) ∧ s2.reg .sp = s1.reg .sp - 2 ∧ s2.reg .pc = s1.reg .pc) ∧
    (dst.mode = .register → exec (.jsr r dst) s = .next s.raiseReserved) ∧
    (∀ v s1, s.pop = .ok v s1 → exec (.rts r) s = .next ((s1.setReg .pc (s1.reg r)).setReg r v)) ∧
    (∀ s1, s.pop = .abandoned s1 → exec (.rts r) s = .next s1 ∧ ∀ q, s1.reg q = s.reg q)

/-! ## Traps, system instructions, the status word (45, 46, 47, 60) -/

/-- R240 to R243: EMT, TRAP, IOT and BPT enter the trap through their vectors inside the instruction, whatever the
trap number, and fault as the trap entry faults; and their words (the bit patterns are general knowledge, decision D1,
log 7). -/
def Obligations.TrapInstructionResult : Prop :=
  ∀ (s : State) (num : Byte),
    (encode (.emt num) = BitVec.ofNat 16 (0o104000 + num.toNat) ∧ encode (.trap num) = BitVec.ofNat 16 (0o104400 + num.toNat) ∧
      encode .iot = 0o000004 ∧ encode .bpt = 0o000003) ∧
    (∀ t, (s.trapEntry s.params.vectors.emt = .ok () t → exec (.emt num) s = .next t) ∧
      (s.trapEntry s.params.vectors.trap = .ok () t → exec (.trap num) s = .next t) ∧
      (s.trapEntry s.params.vectors.iot = .ok () t → exec .iot s = .next t) ∧
      (s.trapEntry s.params.vectors.bpt = .ok () t → exec .bpt s = .next t)) ∧
    (∀ f, (s.trapEntry s.params.vectors.emt = .fault f → exec (.emt num) s = .fault f) ∧
      (s.trapEntry s.params.vectors.trap = .fault f → exec (.trap num) s = .fault f) ∧
      (s.trapEntry s.params.vectors.iot = .fault f → exec .iot s = .fault f) ∧
      (s.trapEntry s.params.vectors.bpt = .fault f → exec .bpt s = .fault f))

/-- R322 (general knowledge for the order of a vector pair): a trap entry on a stack in RAM through a vector in
memory, the two pushed words and the vector pair not overlapping. The latches, the time, the parameters and every device
stay as they are. -/
def Obligations.TrapEntryInMemory : Prop :=
  ∀ (s : State) (vec : Word) (p1 p2 q1 q2 : Nat) (k1 k2 : MemKind), s.mem.wf = true →
    s.memoryAt .word (s.reg .sp - 2) .ram p1 → s.memoryAt .word (s.reg .sp - 4) .ram p2 →
    s.memoryAt .word vec k1 q1 → s.memoryAt .word (vec + 2) k2 q2 →
    (∀ x ∈ [p1, p2], ∀ y ∈ [q1, q2], x + 1 < y ∨ y + 1 < x) → (p1 + 1 < p2 ∨ p2 + 1 < p1) →
    ∃ t, s.trapEntry vec = .ok () t ∧
      t.reg .sp = s.reg .sp - 4 ∧ t.mem.getWord p1 = s.psw ∧ t.mem.getWord p2 = s.reg .pc ∧
      t.reg .pc = s.mem.getWord q1 ∧ t.psw = s.mem.getWord q2 &&& s.pswBits ∧ t.runState = .running ∧
      (∀ r, r ≠ .sp → r ≠ .pc → t.reg r = s.reg r) ∧
      (∀ c, c ∉ [p1, p1 + 1, p2, p2 + 1] → t.mem.get c = s.mem.get c) ∧
      t.req = s.req ∧ t.cpuTime = s.cpuTime ∧ t.params = s.params ∧ t.mapSel = s.mapSel ∧ t.floppy = s.floppy ∧
      t.ide = s.ide ∧ t.timerLast = s.timerLast ∧ t.devLog = s.devLog ∧ t.freeCount = s.freeCount

/-- R324: the return from a trap restores the PC, the status word and the SP that the entry saved. -/
def Obligations.TrapReturnUndoesTrapEntry : Prop :=
  ∀ (s t : State) (vec : Word) (p1 p2 : Nat), s.mem.wf = true → s.psw &&& ~~~s.pswBits = 0 →
    s.memoryAt .word (s.reg .sp - 2) .ram p1 → s.memoryAt .word (s.reg .sp - 4) .ram p2 →
    (p1 + 1 < p2 ∨ p2 + 1 < p1) → s.trapEntry vec = .ok () t →
    ∃ u, t.trapReturn = .ok () u ∧ u.psw = s.psw ∧ u.mem = t.mem ∧ ∀ r, u.reg r = s.reg r

/-- R244, R279 (decision D2 for RTT): RTI and, where the unnamed classes execute, RTT pop PC, then the status word, and
load both; after a failed pop neither is loaded. -/
def Obligations.ReturnFromTrapResult : Prop :=
  ∀ (i : Instr) (s : State), i = .rti ∨ (i = .rtt ∧ s.params.unnamedOpcodes = .execute) →
    (∀ npc s1 npsw s2, s.pop = .ok npc s1 → s1.pop = .ok npsw s2 →
      exec i s = .next ((s2.setReg .pc npc).setPsw npsw) ∧
      (((s2.setReg .pc npc).setPsw npsw).psw = npsw &&& (s.params.pswMask ||| 0x00ff))) ∧
    (∀ s1, s.pop = .abandoned s1 → exec i s = .next s1 ∧ s1.regs = s.regs ∧ s1.psw = s.psw) ∧
    (∀ npc s1 s2, s.pop = .ok npc s1 → s1.pop = .abandoned s2 → exec i s = .next s2 ∧
      s2.reg .sp = s.reg .sp + 2 ∧ s2.reg .pc = s.reg .pc ∧ s2.psw = s.psw)

/-- R245, R246, R247 (decision D28 for the latches): HALT, WAIT and RESET. RESET initialises every device with
`isHardwareReset` false and leaves registers, status word, run state and memory. -/
def Obligations.HaltWaitResetResult : Prop :=
  ∀ s : State,
    exec .halt s = .next { s with runState := .halted } ∧
    exec .wait s = .next { s with runState := .waiting } ∧
    ∃ t, exec .reset s = .next t ∧ t = (s.initDevices false).clearIrqs ∧
      t.regs = s.regs ∧ t.psw = s.psw ∧ t.runState = s.runState ∧ t.mem = s.mem ∧
      t.req.irq1 = false ∧ t.req.irq2 = false ∧ t.req.virq = none

/-- R261, R276, R277 (decisions D2, D21, D34): the condition-code operators and, where the unnamed classes execute, MFPS
and MTPS. -/
def Obligations.StatusWordInstructionResult : Prop :=
  ∀ (s s1 : State) (o : Operand) (v : Word),
    (∀ m : BitVec 4, exec (.ccop true m) s = .next { s with psw := s.psw ||| m.setWidth 16 } ∧
      exec (.ccop false m) s = .next { s with psw := s.psw &&& ~~~(m.setWidth 16) }) ∧
    (s.params.unnamedOpcodes = .execute → o.isSpPcRegister = false →
      (o.mode = .register →
        exec (.mfps o) s =
          .next ((s.setReg o.reg ((s.psw.setWidth 8).signExtend 16)).setCc (s.psw.getLsbD 7)
            (decide (s.psw &&& 0x00ff = 0)) false s.flagC)) ∧
      (o.mode ≠ .register → s.dstStore .byte o (s.psw &&& 0x00ff) = .ok () s1 →
        exec (.mfps o) s =
          .next (s1.setCc (s.psw.getLsbD 7) (decide (s.psw &&& 0x00ff = 0)) false s.flagC)) ∧
      (s.srcRead .byte o = .ok v s1 →
        exec (.mtps o) s = .next { s1 with psw := (s.psw &&& 0xff10) ||| (v &&& 0x00ef) }))

/-- R70, R322, R326 (decision D12): only JSR and the trap instructions can fault, and only by a double bus error. A
push that fails has decremented SP; a trap entry that fails has not changed PC. -/
def Obligations.DoubleBusErrorOnlyFromStackAndVectors : Prop :=
  (∀ (i : Instr) (s t : State), exec i s = .fault (.doubleBusError t) →
    (∃ r d, i = .jsr r d) ∨ (∃ n, i = .emt n ∨ i = .trap n) ∨ i = .iot ∨ i = .bpt) ∧
  (∀ (s t : State) (v : Word), s.push v = .fault (.doubleBusError t) → t.reg .sp = s.reg .sp - 2) ∧
  (∀ (s t : State) (vec : Word), s.trapEntry vec = .fault (.doubleBusError t) →
    t.reg .pc = s.reg .pc ∧ t.psw = s.psw ∧ (t.reg .sp = s.reg .sp - 2 ∨ t.reg .sp = s.reg .sp - 4))

/-! ## The step (60_exceptions.md) -/

/-- R320, R321, R312 (decision D14 for the trace): with no event pending and the processor running, the word at PC is
read, PC advances, and the instruction it decodes to runs; then the trace check, then the cost. PC is not at a device,
unless the parameter lets a device answer a fetch (log 37). -/
def Obligations.StepRunsDecodedInstruction : Prop :=
  ∀ (s u : State) (w : Word), s.runTimers.pendingEvent = none → s.runTimers.runState = .running →
    (s.runTimers.device (evenAddr (s.runTimers.reg .pc)) = none ∨ s.params.deviceFetch = .deviceAnswers) →
    s.runTimers.load .word (s.runTimers.reg .pc) = (some w, u) →
    (∀ t, exec (decode w) (u.setReg .pc (u.reg .pc + 2)) = .next t →
      step s = .next { t with
        req := { t.req with
          trace := t.req.trace ||
            (!t.req.busError && !t.req.reserved && t.psw.getLsbD 4 && !untraced (decode w)) }
        cpuTime := s.cpuTime + execTime s.params.timing w }) ∧
    (∀ f, exec (decode w) (u.setReg .pc (u.reg .pc + 2)) = .fault f → step s = .fault f) ∧
    (∀ r, exec (decode w) (u.setReg .pc (u.reg .pc + 2)) = .refused r → step s = .refused r)

/-- R321 (decision D11), R462: a fetch that meets a bus error leaves PC and requests the bus-error trap; a fetch at the
address of a device is one, the device being left alone (log 37), unless the parameter lets it answer. -/
def Obligations.FetchBusErrorLeavesPc : Prop :=
  ∀ (s u : State), s.runTimers.pendingEvent = none → s.runTimers.runState = .running →
    (s.runTimers.load .word (s.runTimers.reg .pc) = (none, u) →
      ∃ t, step s = .next t ∧ t.req.busError = true ∧ t.regs = s.regs ∧ t.psw = s.psw ∧
        t.cpuTime = s.cpuTime + execTime s.params.timing 0) ∧
    (s.runTimers.device (evenAddr (s.runTimers.reg .pc)) ≠ none → s.params.deviceFetch = .busError →
      ∃ t, step s = .next t ∧ t.req.busError = true ∧ t.regs = s.regs ∧ t.psw = s.psw ∧
        t.cpuTime = s.cpuTime + execTime s.params.timing 0 ∧
        t.floppy = s.runTimers.floppy ∧ t.ide = s.runTimers.ide ∧ t.devLog = s.runTimers.devLog)

/-- R314, R315, R318, R320 (decisions D6, D13, D15): the event a step takes, in the order of priority; its latch is
cleared and its vector entered; interrupts only when PSW bit 7 is clear. -/
def Obligations.EventPriority : Prop :=
  ∀ (s t : State), t = s.runTimers →
    let take := fun (x : State) (vec : Word) => step s = charge s.cpuTime s.params.timing.trapTime (x.trapEntry vec).outcome
    (t.req.busError = true → take { t with req := { t.req with busError := false } } s.params.vectors.busError) ∧
    (t.req.busError = false → t.req.reserved = true →
      take { t with req := { t.req with reserved := false } } s.params.vectors.reserved) ∧
    (t.req.busError = false → t.req.reserved = false → t.req.trace = true →
      take { t with req := { t.req with trace := false } } s.params.vectors.bpt) ∧
    (t.req.quiet → t.psw.getLsbD 7 = true → t.pendingEvent = none) ∧
    (t.req.quiet → t.psw.getLsbD 7 = false → t.req.irq1 = true →
      take { t with req := { t.req with irq1 := false } } s.params.vectors.irq1) ∧
    (t.req.quiet → t.psw.getLsbD 7 = false → t.req.irq1 = false → t.req.irq2 = true →
      take { t with req := { t.req with irq2 := false } } s.params.vectors.irq2) ∧
    (∀ v, t.req.quiet → t.psw.getLsbD 7 = false → t.req.irq1 = false → t.req.irq2 = false → t.req.virq = some v →
      take { t with req := { t.req with virq := none } } v)

/-- R316, R317 (decisions D16, D37): without an event to take, a halted machine only ticks, and a waiting one runs
again as soon as any request is pending, masked or not. -/
def Obligations.IdleTicks : Prop :=
  ∀ (s t : State), t = s.runTimers → t.pendingEvent = none →
    (t.runState = .halted → step s = .next { t with cpuTime := s.cpuTime + idleTime s.params.timing }) ∧
    (t.runState = .waiting →
      step s = .next { t with
        cpuTime := s.cpuTime + idleTime s.params.timing
        runState := if t.req.irq1 = true ∨ t.req.irq2 = true ∨ t.req.virq ≠ none then .running else .waiting })

/-- R362, R471: time never goes back; it advances in every step that takes no event; a reset keeps it. No step changes
a parameter (log 1, the model's own). -/
def Obligations.TimeNeverGoesBack : Prop :=
  (∀ s t : State, step s = .next t →
    s.cpuTime ≤ t.cpuTime ∧ (s.runTimers.pendingEvent = none → s.cpuTime < t.cpuTime) ∧ t.params = s.params) ∧
  (∀ s : State, s.hostReset.cpuTime = s.cpuTime)

/-- R310, R364 (decision D15): a request sets its latch and nothing else, whatever the mask; a second virtual request
replaces the vector; a key press is a virtual request. That it is also recorded as a call of the keyboard controller is
the model's choice: R364 gives the request alone (log 36, with log 14). And R360, R366: the system timer raises its
request when a period has passed since its stored time, which then moves by one period, and does nothing before
(log 15). -/
def Obligations.RequestsAreLatched : Prop :=
  ∀ s : State,
    hostAct .raiseIrq1 s = { s with req := { s.req with irq1 := true } } ∧
    hostAct .raiseIrq2 s = { s with req := { s.req with irq2 := true } } ∧
    (∀ v w : Word,
      hostAct (.raiseVirq v) s = { s with req := { s.req with virq := some v } } ∧
      (hostAct (.raiseVirq w) (hostAct (.raiseVirq v) s)).req.virq = some w ∧
      hostAct (.keyPress v) s =
        { s with
          req := { s.req with virq := some v }
          devLog := s.devLog ++ [⟨.keyboardController, .key s.cpuTime v⟩] }) ∧
    (s.cpuTime - s.timerLast < s.params.clockHz / 50 → s.systemTimerHook = s) ∧
    (s.params.clockHz / 50 ≤ s.cpuTime - s.timerLast →
      s.systemTimerHook.timerLast = s.timerLast + s.params.clockHz / 50 ∧
      (s.params.timerLine = .irq1 → s.systemTimerHook.req = { s.req with irq1 := true }) ∧
      (s.params.timerLine = .irq2 → s.systemTimerHook.req = { s.req with irq2 := true }))

/-- R450 (decision D18): what both resets of the whole machine leave; a later one keeps R0 to SP, memory and time; at
power-on the time is 0, R0 to SP are the drawn values, a drawn cell of RAM holds its drawn byte, and what is not RAM keeps
its bytes. -/
def Obligations.HostResetResult : Prop :=
  ∀ (s : State) (d : Draw),
    (∀ t : State, t = hostAct .reset s ∨ t = hostAct (.powerOn d) s →
      t.reg .pc = s.params.startAddress ∧ t.psw = s.params.resetPsw &&& (s.params.pswMask ||| 0x00ff) ∧
      t.runState = .running ∧
      t.req = { busError := false, reserved := false, trace := false, irq1 := false, irq2 := false, virq := none }) ∧
    ((hostAct .reset s).mem = s.mem ∧ (hostAct .reset s).cpuTime = s.cpuTime ∧
      ∀ r, r ≠ .pc → (hostAct .reset s).reg r = s.reg r) ∧
    ((hostAct (.powerOn d) s).cpuTime = 0 ∧
      (hostAct (.powerOn d) s).reg .r0 = d.r0 ∧ (hostAct (.powerOn d) s).reg .r1 = d.r1 ∧
      (hostAct (.powerOn d) s).reg .r2 = d.r2 ∧ (hostAct (.powerOn d) s).reg .r3 = d.r3 ∧
      (hostAct (.powerOn d) s).reg .r4 = d.r4 ∧ (hostAct (.powerOn d) s).reg .r5 = d.r5 ∧
      (hostAct (.powerOn d) s).reg .sp = d.sp ∧
      (∀ c, Params.hasCell s.params .ram c = false → (hostAct (.powerOn d) s).mem.get c = s.mem.get c) ∧
      (s.mem.wf = true → (d.ram.map Prod.fst).Nodup → ∀ c b, (c, b) ∈ d.ram → Params.hasCell s.params .ram c = true →
        (hostAct (.powerOn d) s).mem.get c = b))

/-! ## Frames: what an instruction leaves unchanged -/

/-- R21 and the rules of 41 to 47: an instruction changes no register but PC and those its rule names. -/
def Obligations.RegisterFrame : Prop :=
  ∀ (i : Instr) (s t : State) (r : Reg), exec i s = .next t → r ≠ .pc → r ∉ i.touched → t.reg r = s.reg r

/-- R32: what an instruction leaves of the status word: all of it; bits 15:4; C. -/
def Obligations.StatusWordFrame : Prop :=
  ∀ (i : Instr) (s t : State), exec i s = .next t →
    (i.keepsPsw = true → t.psw = s.psw) ∧
    (i.loadsPsw = false → t.psw &&& 0xfff0 = s.psw &&& 0xfff0) ∧
    (i.keepsCarry = true → t.psw.getLsbD 0 = s.psw.getLsbD 0)

/-- R40 to R45, R303: no instruction changes the time, the parameters or the trace latch, or clears a latch of an
abandoned instruction; only HALT, WAIT and the trap instructions change the run state; only reserved words and
register-mode JMP and JSR raise ReservedInstruction. That the parameters are part of the state and never change is log
1, that the system timer's stored time is changed by its initialisation alone is log 15: the model's choices. -/
def Obligations.ControlStateFrame : Prop :=
  ∀ (i : Instr) (s t : State), exec i s = .next t →
    t.cpuTime = s.cpuTime ∧ t.params = s.params ∧ t.req.trace = s.req.trace ∧
    (s.req.busError = true → t.req.busError = true) ∧ (s.req.reserved = true → t.req.reserved = true) ∧
    (i.setsRunState = false → t.runState = s.runState) ∧
    (i.raisesReserved = false → t.req.reserved = s.req.reserved) ∧
    (i ≠ .reset → t.timerLast = s.timerLast)

/-- R72, R160, R180, R232, R322: every byte of memory is unchanged but those of the destination operand or of the
stack slots an instruction stores to, at the address its rule computes. -/
def Obligations.MemoryFrame : Prop :=
  ∀ (i : Instr) (s t : State) (c : Nat), exec i s = .next t → c ∉ s.storedCells i → t.mem.get c = s.mem.get c

/-- R72, R360: with no device installed, an instruction changes no device, no map and no device history, draws no
free value, and, RESET apart, raises and clears no interrupt request. -/
def Obligations.DeviceFrame : Prop :=
  ∀ (i : Instr) (s t : State), s.params.devices = [] → exec i s = .next t →
    t.floppy = s.floppy ∧ t.ide = s.ide ∧ t.devLog = s.devLog ∧ t.mapSel = s.mapSel ∧ t.timerLast = s.timerLast ∧
    t.freeCount = s.freeCount ∧
    (i ≠ .reset → t.req.irq1 = s.req.irq1 ∧ t.req.irq2 = s.req.irq2 ∧ t.req.virq = s.req.virq)

/-! ## Invariants -/

/-- Every step and every host action keeps the invariant: canonical memory, a masked status word, at most one latch of
the instruction stream, the system timer's stored time, the floppy and the IDE controller in a legal state. -/
def Obligations.StepsAndHostActionsKeepInvariant : Prop :=
  (∀ s t : State, s.Inv → step s = .next t → t.Inv) ∧ ∀ (a : HostAction) (s : State), s.Inv → (hostAct a s).Inv

/-- The invariant holds after reset. -/
def Obligations.ResetHasInvariant : Prop := State.reset.Inv

/-! ## Devices (62_floppy_controller.md, 63_ide_controller.md) -/

/-- R384, R385 (decision D31 for the length of a rotation): the head position and the index pulse are periodic, and
the pulse is active for exactly the first ticks of each rotation. -/
def Obligations.FloppyRotation : Prop :=
  ∀ (p : FloppyParams) (n t : Nat),
    headPos p t = t / p.ticksPerWord % p.wordsPerTrack ∧
    headPos p (t + n * (p.wordsPerTrack * p.ticksPerWord)) = headPos p t ∧
    (t < p.wordsPerTrack * p.ticksPerWord →
      indexActive p (n * (p.wordsPerTrack * p.ticksPerWord) + t) = decide (t < p.ticksPerIndexHole))

/-- R392, R393, R402: a word written to the data register of a writable drive is read back whenever the head is at the
same position, the end of the write notwithstanding. R393: a write to any other drive is "not written", and so is a byte
write (log 24, the model's reading). That either still brings the controller up to the time of the access is the model's
reading of R380 (log 20): the pseudocode of R393 returns before it advances. -/
def Obligations.FloppyWordRoundTrip : Prop :=
  ∀ (p : FloppyParams) (f : Floppy) (t t' : Nat) (v : Word),
    (f.write p 1 t true v = (false, f.advance p t)) ∧
    (f.writable = false → f.write p 1 t false v = (false, f.advance p t)) ∧
    (f.writable = true → headPos p t < f.buffer.length → 1 < p.wordsPerTrack → headPos p t' = headPos p t →
      (f.write p 1 t false v).1 = true ∧ ((f.write p 1 t false v).2.read p 1 t').1 = some v)

/-- R428, R434: IDENTIFY arms one sector whose words report the drive's geometry and its number of sectors, at the
offsets of the default layout (general knowledge, log 25). -/
def Obligations.IdentifyReportsTheDrive : Prop :=
  ∀ (p : IdeParams) (c : Byte) (i j : IdeInterface) (d : IdeDrive), p.layout = defaultLayout →
    commandOf p c = some .identify → i.drive = some d → j = i.command p c →
    let word := fun k : Nat => joinBytes (bufferByte j.buf (2 * k + 1)) (bufferByte j.buf (2 * k))
    j.status.drq = true ∧ j.status.err = false ∧ j.off = 0 ∧ j.fin = 512 ∧
      word 1 = BitVec.ofNat 16 d.cylinders ∧ word 3 = BitVec.ofNat 16 d.heads ∧
      word 6 = BitVec.ofNat 16 d.sectors ∧ word 60 = BitVec.ofNat 16 d.totalSectors ∧
      word 61 = BitVec.ofNat 16 (d.totalSectors / 65536)

/-- R427, R430, R434: WRITE_MULTIPLE of five sectors with a multiple of four, from the command on, makes two drive
writes, of four sectors and of one, and ends with the sector count 0 and DRQ clear. The five sectors are on the drive, the
head field is at its default place (general knowledge, log 25), and the address of the last sector fits the registers, in
LBA mode or in cylinders, heads and sectors. -/
def Obligations.WriteMultipleOfFiveByFour : Prop :=
  ∀ (p : IdeParams) (c : Byte) (i : IdeInterface) (d : IdeDrive) (bs bs' : List Byte),
    commandOf p c = some .writeMultiple → i.drive = some d → i.multiple = 4 → i.sectorCount = 5 →
    p.headBit = 0 → p.headWidth = 4 → 4 ≤ p.lbaBit → i.addressable p 5 = true →
    (i.lbaMode p = true → i.lba p + 5 ≤ 0x10000000) →
    (i.lbaMode p = false → 1 ≤ i.geometry.sectors ∧ i.geometry.sectors ≤ 255 ∧ 1 ≤ i.geometry.heads ∧
      i.geometry.heads ≤ 16 ∧ i.lba p + 5 ≤ 65536 * i.geometry.heads * i.geometry.sectors) →
    let armed := i.command p c
    let first := ({ armed with buf := bs, off := armed.fin } : IdeInterface).endTransfer p
    let second := ({ first with buf := bs', off := first.fin } : IdeInterface).endTransfer p
    let d4 := d.writeSectors (i.lba p) ((List.range 2048).map (bufferByte bs))
    (armed.blk = 4 ∧ armed.off = 0 ∧ armed.fin = 2048 ∧ armed.status.drq = true ∧ armed.drive = some d) ∧
    (first.sectorCount = 1 ∧ first.blk = 1 ∧ first.off = 0 ∧ first.fin = 512 ∧ first.status.drq = true ∧
      first.drive = some d4) ∧
    (second.sectorCount = 0 ∧ second.status.drq = false ∧ second.status.err = false ∧
      second.drive = some (d4.writeSectors (i.lba p + 4) ((List.range 512).map (bufferByte bs'))))

/-- R427, R431: an unsupported command code, or a command without a drive (decision D40), aborts; the next command runs
as if nothing had happened. -/
def Obligations.IdeAbort : Prop :=
  ∀ (p : IdeParams) (i : IdeInterface) (c b : Byte), (i.drive = none ∨ commandOf p c = none) →
    (i.command p c).error = p.abrt ∧ (i.command p c).status.err = true ∧ (i.command p c).status.drq = false ∧
    (i.command p c).status.drdy = true ∧ (i.command p c).command p b = i.command p b
end

