-- ==== Sys2Proof/Laws/Memory.lean ====
section
/-! SUPPORT. The laws of the backing store: a byte read after a write, the canonical form, and words. -/

namespace Sys2Proof.Machine

/-! ## The canonical form -/

theorem Memory.wfFrom_cons (lo q : Nat) (b : Byte) (m : Memory) :
    Memory.wfFrom lo ((q, b) :: m) = true ↔ lo ≤ q ∧ b ≠ Memory.blank ∧ Memory.wfFrom (q + 1) m = true := by
  simp [Memory.wfFrom, and_assoc]

theorem Memory.wfFrom_mono {lo lo' : Nat} {m : Memory} (h : lo' ≤ lo) (hm : Memory.wfFrom lo m = true) :
    Memory.wfFrom lo' m = true := by
  cases m with
  | nil => rfl
  | cons c m =>
    rw [Memory.wfFrom_cons] at hm ⊢
    exact ⟨h.trans hm.1, hm.2⟩

theorem Memory.wf_nil : Memory.wf [] = true := rfl

theorem Memory.wfFrom_put {lo p : Nat} {b : Byte} {m : Memory} (h : lo ≤ p) (hm : Memory.wfFrom (p + 1) m = true) :
    Memory.wfFrom lo (Memory.put p b m) = true := by
  unfold Memory.put
  split
  · exact Memory.wfFrom_mono (by omega) hm
  · exact (Memory.wfFrom_cons ..).2 ⟨h, ‹_›, hm⟩

theorem Memory.wfFrom_set {m : Memory} {lo p : Nat} (b : Byte) (h : lo ≤ p) (hm : Memory.wfFrom lo m = true) :
    Memory.wfFrom lo (m.set p b) = true := by
  induction m generalizing lo with
  | nil => exact Memory.wfFrom_put h rfl
  | cons c m ih =>
    rw [Memory.wfFrom_cons] at hm
    unfold Memory.set
    split
    · exact Memory.wfFrom_put h ((Memory.wfFrom_cons ..).2 ⟨‹_›, hm.2⟩)
    · split
      · exact Memory.wfFrom_put h (by subst p; exact hm.2.2)
      · exact (Memory.wfFrom_cons ..).2 ⟨hm.1, hm.2.1, ih (by omega) hm.2.2⟩

/-- A byte write keeps the canonical form. -/
theorem Memory.wf_set {m : Memory} (p : Nat) (b : Byte) (hm : m.wf = true) : (m.set p b).wf = true :=
  Memory.wfFrom_set b (Nat.zero_le p) hm

/-- A word write keeps the canonical form. -/
theorem Memory.wf_setWord {m : Memory} (p : Nat) (w : Word) (hm : m.wf = true) : (m.setWord p w).wf = true :=
  Memory.wf_set _ _ (Memory.wf_set _ _ hm)

/-- Dropping cells keeps the canonical form. -/
theorem Memory.wfFrom_without {m : Memory} {lo : Nat} (drop : Nat → Bool) (hm : Memory.wfFrom lo m = true) :
    Memory.wfFrom lo (m.without drop) = true := by
  induction m generalizing lo with
  | nil => rfl
  | cons c m ih =>
    rw [Memory.wfFrom_cons] at hm
    unfold Memory.without
    split
    · exact ih (Memory.wfFrom_mono (by omega) hm.2.2)
    · exact (Memory.wfFrom_cons ..).2 ⟨hm.1, hm.2.1, ih hm.2.2⟩

/-! ## Reading after writing -/

@[simp] theorem Memory.get_nil (p : Nat) : Memory.get [] p = Memory.blank := rfl

theorem Memory.get_cons (q : Nat) (b : Byte) (m : Memory) (p : Nat) :
    Memory.get ((q, b) :: m) p = if q = p then b else m.get p := rfl

theorem Memory.get_of_lt {m : Memory} {lo p : Nat} (h : p < lo) (hm : Memory.wfFrom lo m = true) :
    m.get p = Memory.blank := by
  induction m generalizing lo with
  | nil => rfl
  | cons c m ih =>
    rw [Memory.wfFrom_cons] at hm
    rw [Memory.get_cons, if_neg (by omega), ih (by omega) hm.2.2]

theorem Memory.get_put_ne {p q : Nat} (b : Byte) (m : Memory) (h : q ≠ p) : (Memory.put p b m).get q = m.get q := by
  unfold Memory.put
  split
  · rfl
  · rw [Memory.get_cons, if_neg (Ne.symm h)]

/-- A write leaves every other cell alone; no canonical form is needed. -/
theorem Memory.get_set_ne {m : Memory} {p q : Nat} (b : Byte) (h : q ≠ p) : (m.set p b).get q = m.get q := by
  induction m with
  | nil => exact Memory.get_put_ne b [] h
  | cons c m ih =>
    unfold Memory.set
    split
    · exact Memory.get_put_ne b _ h
    · split
      · rw [Memory.get_put_ne b m h, Memory.get_cons, if_neg (by omega)]
      · rw [Memory.get_cons, Memory.get_cons, ih]

theorem Memory.get_put_self {p : Nat} (b : Byte) {m : Memory} (hm : m.get p = Memory.blank) :
    (Memory.put p b m).get p = b := by
  unfold Memory.put
  split
  · rw [hm, ‹b = _›]
  · rw [Memory.get_cons, if_pos rfl]

theorem Memory.get_set_self_from {m : Memory} {lo p : Nat} (b : Byte) (hm : Memory.wfFrom lo m = true) :
    (m.set p b).get p = b := by
  induction m generalizing lo with
  | nil => exact Memory.get_put_self b rfl
  | cons c m ih =>
    have hm' := (Memory.wfFrom_cons ..).1 hm
    unfold Memory.set
    split
    · exact Memory.get_put_self b (Memory.get_of_lt ‹_› ((Memory.wfFrom_cons ..).2 ⟨Nat.le_refl _, hm'.2⟩))
    · split
      · exact Memory.get_put_self b (Memory.get_of_lt (by omega) hm'.2.2)
      · rw [Memory.get_cons, if_neg (by omega), ih hm'.2.2]

/-- A cell reads as what was written to it. -/
theorem Memory.get_set_self {m : Memory} (p : Nat) (b : Byte) (hm : m.wf = true) : (m.set p b).get p = b :=
  Memory.get_set_self_from b hm

theorem Memory.get_set {m : Memory} (p q : Nat) (b : Byte) (hm : m.wf = true) :
    (m.set p b).get q = if q = p then b else m.get q := by
  split
  · subst q; exact Memory.get_set_self p b hm
  · exact Memory.get_set_ne b ‹_›

/-! ## Words -/

theorem getLsbD_joinBytes (hi lo : Byte) (i : Nat) :
    (joinBytes hi lo).getLsbD i = if i < 8 then lo.getLsbD i else hi.getLsbD (i - 8) :=
  (BitVec.getLsbD_append (x := hi) (y := lo) (i := i)).trans (by split <;> simp_all)

@[simp] theorem lowByte_joinBytes (hi lo : Byte) : lowByte (joinBytes hi lo) = lo := by
  apply BitVec.eq_of_getLsbD_eq
  intro i h
  simp [lowByte, getLsbD_joinBytes, h]

@[simp] theorem highByte_joinBytes (hi lo : Byte) : highByte (joinBytes hi lo) = hi := by
  apply BitVec.eq_of_getLsbD_eq
  intro i h
  simp [highByte, getLsbD_joinBytes, h]

@[simp] theorem joinBytes_high_low (w : Word) : joinBytes (highByte w) (lowByte w) = w := by
  apply BitVec.eq_of_getLsbD_eq
  intro i h
  rw [getLsbD_joinBytes]
  split
  · simp [lowByte, *]
  · simp [highByte, show i - 8 < 8 by omega, show 8 + (i - 8) = i by omega]

theorem Memory.get_setWord_low {m : Memory} (p : Nat) (w : Word) (hm : m.wf = true) :
    (m.setWord p w).get p = lowByte w := by
  unfold Memory.setWord
  rw [Memory.get_set_ne _ (by omega), Memory.get_set_self p _ hm]

theorem Memory.get_setWord_high {m : Memory} (p : Nat) (w : Word) (hm : m.wf = true) :
    (m.setWord p w).get (p + 1) = highByte w :=
  Memory.get_set_self _ _ (Memory.wf_set _ _ hm)

theorem Memory.get_setWord_ne {m : Memory} {p q : Nat} (w : Word) (h : q ≠ p) (h' : q ≠ p + 1) :
    (m.setWord p w).get q = m.get q := by
  unfold Memory.setWord
  rw [Memory.get_set_ne _ h', Memory.get_set_ne _ h]

/-- A word reads as what was written to it. -/
@[simp] theorem Memory.getWord_setWord {m : Memory} (p : Nat) (w : Word) (hm : m.wf = true) :
    (m.setWord p w).getWord p = w := by
  rw [Memory.getWord, Memory.get_setWord_low p w hm, Memory.get_setWord_high p w hm, joinBytes_high_low]

/-- A word that does not overlap a written one keeps its value. -/
theorem Memory.getWord_setWord_ne {m : Memory} {p q : Nat} (w : Word) (h : q + 1 < p ∨ p + 1 < q) :
    (m.setWord p w).getWord q = m.getWord q := by
  rw [Memory.getWord, Memory.getWord, Memory.get_setWord_ne _ (by omega) (by omega),
    Memory.get_setWord_ne _ (by omega) (by omega)]

end Sys2Proof.Machine
end

