-- ==== Sys2Proof/Laws/State.lean ====
section
/-! SUPPORT. One lemma per field per update of the state, true by unfolding once, so that no later proof unfolds a
record update. -/

namespace Sys2Proof.Machine

/-! ## Registers -/

@[simp] theorem Regs.get_set_self (x : Regs) (r : Reg) (v : Word) : (x.set r v).get r = v := by cases r <;> rfl

theorem Regs.get_set (x : Regs) (r q : Reg) (v : Word) : (x.set r v).get q = if q = r then v else x.get q := by
  cases r <;> cases q <;> rfl

theorem Regs.get_set_of_ne (x : Regs) (r q : Reg) (v : Word) (h : q ≠ r) : (x.set r v).get q = x.get q := by
  rw [Regs.get_set, if_neg h]

@[simp] theorem State.reg_setReg_self (s : State) (r : Reg) (v : Word) : (s.setReg r v).reg r = v :=
  Regs.get_set_self s.regs r v

theorem State.reg_setReg (s : State) (r q : Reg) (v : Word) :
    (s.setReg r v).reg q = if q = r then v else s.reg q := Regs.get_set s.regs r q v

theorem State.reg_setReg_of_ne (s : State) (r q : Reg) (v : Word) (h : q ≠ r) :
    (s.setReg r v).reg q = s.reg q := Regs.get_set_of_ne s.regs r q v h

/-- Registers are read from the register file alone. -/
theorem State.reg_congr {s t : State} (h : t.regs = s.regs) (r : Reg) : t.reg r = s.reg r := congrArg (Regs.get · r) h

/-! ## Updates of one field -/

/-! ### State.setReg -/
@[simp] theorem State.setReg_psw (s : State) (r : Reg) (v : Word) : (s.setReg r v).psw = s.psw := rfl
@[simp] theorem State.setReg_runState (s : State) (r : Reg) (v : Word) : (s.setReg r v).runState = s.runState := rfl
@[simp] theorem State.setReg_req (s : State) (r : Reg) (v : Word) : (s.setReg r v).req = s.req := rfl
@[simp] theorem State.setReg_cpuTime (s : State) (r : Reg) (v : Word) : (s.setReg r v).cpuTime = s.cpuTime := rfl
@[simp] theorem State.setReg_mem (s : State) (r : Reg) (v : Word) : (s.setReg r v).mem = s.mem := rfl
@[simp] theorem State.setReg_mapSel (s : State) (r : Reg) (v : Word) : (s.setReg r v).mapSel = s.mapSel := rfl
@[simp] theorem State.setReg_floppy (s : State) (r : Reg) (v : Word) : (s.setReg r v).floppy = s.floppy := rfl
@[simp] theorem State.setReg_ide (s : State) (r : Reg) (v : Word) : (s.setReg r v).ide = s.ide := rfl
@[simp] theorem State.setReg_timerLast (s : State) (r : Reg) (v : Word) : (s.setReg r v).timerLast = s.timerLast := rfl
@[simp] theorem State.setReg_devLog (s : State) (r : Reg) (v : Word) : (s.setReg r v).devLog = s.devLog := rfl
@[simp] theorem State.setReg_freeCount (s : State) (r : Reg) (v : Word) : (s.setReg r v).freeCount = s.freeCount := rfl
@[simp] theorem State.setReg_params (s : State) (r : Reg) (v : Word) : (s.setReg r v).params = s.params := rfl
/-! ### State.advancePc -/
@[simp] theorem State.advancePc_psw (s : State) : s.advancePc.psw = s.psw := rfl
@[simp] theorem State.advancePc_runState (s : State) : s.advancePc.runState = s.runState := rfl
@[simp] theorem State.advancePc_req (s : State) : s.advancePc.req = s.req := rfl
@[simp] theorem State.advancePc_cpuTime (s : State) : s.advancePc.cpuTime = s.cpuTime := rfl
@[simp] theorem State.advancePc_mem (s : State) : s.advancePc.mem = s.mem := rfl
@[simp] theorem State.advancePc_mapSel (s : State) : s.advancePc.mapSel = s.mapSel := rfl
@[simp] theorem State.advancePc_floppy (s : State) : s.advancePc.floppy = s.floppy := rfl
@[simp] theorem State.advancePc_ide (s : State) : s.advancePc.ide = s.ide := rfl
@[simp] theorem State.advancePc_timerLast (s : State) : s.advancePc.timerLast = s.timerLast := rfl
@[simp] theorem State.advancePc_devLog (s : State) : s.advancePc.devLog = s.devLog := rfl
@[simp] theorem State.advancePc_freeCount (s : State) : s.advancePc.freeCount = s.freeCount := rfl
@[simp] theorem State.advancePc_params (s : State) : s.advancePc.params = s.params := rfl
/-! ### State.setPsw -/
@[simp] theorem State.setPsw_regs (s : State) (v : Word) : (s.setPsw v).regs = s.regs := rfl
@[simp] theorem State.setPsw_runState (s : State) (v : Word) : (s.setPsw v).runState = s.runState := rfl
@[simp] theorem State.setPsw_req (s : State) (v : Word) : (s.setPsw v).req = s.req := rfl
@[simp] theorem State.setPsw_cpuTime (s : State) (v : Word) : (s.setPsw v).cpuTime = s.cpuTime := rfl
@[simp] theorem State.setPsw_mem (s : State) (v : Word) : (s.setPsw v).mem = s.mem := rfl
@[simp] theorem State.setPsw_mapSel (s : State) (v : Word) : (s.setPsw v).mapSel = s.mapSel := rfl
@[simp] theorem State.setPsw_floppy (s : State) (v : Word) : (s.setPsw v).floppy = s.floppy := rfl
@[simp] theorem State.setPsw_ide (s : State) (v : Word) : (s.setPsw v).ide = s.ide := rfl
@[simp] theorem State.setPsw_timerLast (s : State) (v : Word) : (s.setPsw v).timerLast = s.timerLast := rfl
@[simp] theorem State.setPsw_devLog (s : State) (v : Word) : (s.setPsw v).devLog = s.devLog := rfl
@[simp] theorem State.setPsw_freeCount (s : State) (v : Word) : (s.setPsw v).freeCount = s.freeCount := rfl
@[simp] theorem State.setPsw_params (s : State) (v : Word) : (s.setPsw v).params = s.params := rfl
/-! ### State.setCc -/
@[simp] theorem State.setCc_regs (s : State) (n z v c : Bool) : (s.setCc n z v c).regs = s.regs := rfl
@[simp] theorem State.setCc_runState (s : State) (n z v c : Bool) : (s.setCc n z v c).runState = s.runState := rfl
@[simp] theorem State.setCc_req (s : State) (n z v c : Bool) : (s.setCc n z v c).req = s.req := rfl
@[simp] theorem State.setCc_cpuTime (s : State) (n z v c : Bool) : (s.setCc n z v c).cpuTime = s.cpuTime := rfl
@[simp] theorem State.setCc_mem (s : State) (n z v c : Bool) : (s.setCc n z v c).mem = s.mem := rfl
@[simp] theorem State.setCc_mapSel (s : State) (n z v c : Bool) : (s.setCc n z v c).mapSel = s.mapSel := rfl
@[simp] theorem State.setCc_floppy (s : State) (n z v c : Bool) : (s.setCc n z v c).floppy = s.floppy := rfl
@[simp] theorem State.setCc_ide (s : State) (n z v c : Bool) : (s.setCc n z v c).ide = s.ide := rfl
@[simp] theorem State.setCc_timerLast (s : State) (n z v c : Bool) : (s.setCc n z v c).timerLast = s.timerLast := rfl
@[simp] theorem State.setCc_devLog (s : State) (n z v c : Bool) : (s.setCc n z v c).devLog = s.devLog := rfl
@[simp] theorem State.setCc_freeCount (s : State) (n z v c : Bool) : (s.setCc n z v c).freeCount = s.freeCount := rfl
@[simp] theorem State.setCc_params (s : State) (n z v c : Bool) : (s.setCc n z v c).params = s.params := rfl
/-! ### State.setAlu -/
@[simp] theorem State.setAlu_regs (s : State) (r : Alu) : (s.setAlu r).regs = s.regs := rfl
@[simp] theorem State.setAlu_runState (s : State) (r : Alu) : (s.setAlu r).runState = s.runState := rfl
@[simp] theorem State.setAlu_req (s : State) (r : Alu) : (s.setAlu r).req = s.req := rfl
@[simp] theorem State.setAlu_cpuTime (s : State) (r : Alu) : (s.setAlu r).cpuTime = s.cpuTime := rfl
@[simp] theorem State.setAlu_mem (s : State) (r : Alu) : (s.setAlu r).mem = s.mem := rfl
@[simp] theorem State.setAlu_mapSel (s : State) (r : Alu) : (s.setAlu r).mapSel = s.mapSel := rfl
@[simp] theorem State.setAlu_floppy (s : State) (r : Alu) : (s.setAlu r).floppy = s.floppy := rfl
@[simp] theorem State.setAlu_ide (s : State) (r : Alu) : (s.setAlu r).ide = s.ide := rfl
@[simp] theorem State.setAlu_timerLast (s : State) (r : Alu) : (s.setAlu r).timerLast = s.timerLast := rfl
@[simp] theorem State.setAlu_devLog (s : State) (r : Alu) : (s.setAlu r).devLog = s.devLog := rfl
@[simp] theorem State.setAlu_freeCount (s : State) (r : Alu) : (s.setAlu r).freeCount = s.freeCount := rfl
@[simp] theorem State.setAlu_params (s : State) (r : Alu) : (s.setAlu r).params = s.params := rfl
/-! ### State.raiseBusError -/
@[simp] theorem State.raiseBusError_regs (s : State) : s.raiseBusError.regs = s.regs := rfl
@[simp] theorem State.raiseBusError_psw (s : State) : s.raiseBusError.psw = s.psw := rfl
@[simp] theorem State.raiseBusError_runState (s : State) : s.raiseBusError.runState = s.runState := rfl
@[simp] theorem State.raiseBusError_cpuTime (s : State) : s.raiseBusError.cpuTime = s.cpuTime := rfl
@[simp] theorem State.raiseBusError_mem (s : State) : s.raiseBusError.mem = s.mem := rfl
@[simp] theorem State.raiseBusError_mapSel (s : State) : s.raiseBusError.mapSel = s.mapSel := rfl
@[simp] theorem State.raiseBusError_floppy (s : State) : s.raiseBusError.floppy = s.floppy := rfl
@[simp] theorem State.raiseBusError_ide (s : State) : s.raiseBusError.ide = s.ide := rfl
@[simp] theorem State.raiseBusError_timerLast (s : State) : s.raiseBusError.timerLast = s.timerLast := rfl
@[simp] theorem State.raiseBusError_devLog (s : State) : s.raiseBusError.devLog = s.devLog := rfl
@[simp] theorem State.raiseBusError_freeCount (s : State) : s.raiseBusError.freeCount = s.freeCount := rfl
@[simp] theorem State.raiseBusError_params (s : State) : s.raiseBusError.params = s.params := rfl
/-! ### State.raiseReserved -/
@[simp] theorem State.raiseReserved_regs (s : State) : s.raiseReserved.regs = s.regs := rfl
@[simp] theorem State.raiseReserved_psw (s : State) : s.raiseReserved.psw = s.psw := rfl
@[simp] theorem State.raiseReserved_runState (s : State) : s.raiseReserved.runState = s.runState := rfl
@[simp] theorem State.raiseReserved_cpuTime (s : State) : s.raiseReserved.cpuTime = s.cpuTime := rfl
@[simp] theorem State.raiseReserved_mem (s : State) : s.raiseReserved.mem = s.mem := rfl
@[simp] theorem State.raiseReserved_mapSel (s : State) : s.raiseReserved.mapSel = s.mapSel := rfl
@[simp] theorem State.raiseReserved_floppy (s : State) : s.raiseReserved.floppy = s.floppy := rfl
@[simp] theorem State.raiseReserved_ide (s : State) : s.raiseReserved.ide = s.ide := rfl
@[simp] theorem State.raiseReserved_timerLast (s : State) : s.raiseReserved.timerLast = s.timerLast := rfl
@[simp] theorem State.raiseReserved_devLog (s : State) : s.raiseReserved.devLog = s.devLog := rfl
@[simp] theorem State.raiseReserved_freeCount (s : State) : s.raiseReserved.freeCount = s.freeCount := rfl
@[simp] theorem State.raiseReserved_params (s : State) : s.raiseReserved.params = s.params := rfl
/-! ### State.clearIrqs -/
@[simp] theorem State.clearIrqs_regs (s : State) : s.clearIrqs.regs = s.regs := rfl
@[simp] theorem State.clearIrqs_psw (s : State) : s.clearIrqs.psw = s.psw := rfl
@[simp] theorem State.clearIrqs_runState (s : State) : s.clearIrqs.runState = s.runState := rfl
@[simp] theorem State.clearIrqs_cpuTime (s : State) : s.clearIrqs.cpuTime = s.cpuTime := rfl
@[simp] theorem State.clearIrqs_mem (s : State) : s.clearIrqs.mem = s.mem := rfl
@[simp] theorem State.clearIrqs_mapSel (s : State) : s.clearIrqs.mapSel = s.mapSel := rfl
@[simp] theorem State.clearIrqs_floppy (s : State) : s.clearIrqs.floppy = s.floppy := rfl
@[simp] theorem State.clearIrqs_ide (s : State) : s.clearIrqs.ide = s.ide := rfl
@[simp] theorem State.clearIrqs_timerLast (s : State) : s.clearIrqs.timerLast = s.timerLast := rfl
@[simp] theorem State.clearIrqs_devLog (s : State) : s.clearIrqs.devLog = s.devLog := rfl
@[simp] theorem State.clearIrqs_freeCount (s : State) : s.clearIrqs.freeCount = s.freeCount := rfl
@[simp] theorem State.clearIrqs_params (s : State) : s.clearIrqs.params = s.params := rfl
/-! ### State.logCall -/
@[simp] theorem State.logCall_regs (s : State) (d : DevId) (c : DevCall) : (s.logCall d c).regs = s.regs := rfl
@[simp] theorem State.logCall_psw (s : State) (d : DevId) (c : DevCall) : (s.logCall d c).psw = s.psw := rfl
@[simp] theorem State.logCall_runState (s : State) (d : DevId) (c : DevCall) : (s.logCall d c).runState = s.runState := rfl
@[simp] theorem State.logCall_req (s : State) (d : DevId) (c : DevCall) : (s.logCall d c).req = s.req := rfl
@[simp] theorem State.logCall_cpuTime (s : State) (d : DevId) (c : DevCall) : (s.logCall d c).cpuTime = s.cpuTime := rfl
@[simp] theorem State.logCall_mem (s : State) (d : DevId) (c : DevCall) : (s.logCall d c).mem = s.mem := rfl
@[simp] theorem State.logCall_mapSel (s : State) (d : DevId) (c : DevCall) : (s.logCall d c).mapSel = s.mapSel := rfl
@[simp] theorem State.logCall_floppy (s : State) (d : DevId) (c : DevCall) : (s.logCall d c).floppy = s.floppy := rfl
@[simp] theorem State.logCall_ide (s : State) (d : DevId) (c : DevCall) : (s.logCall d c).ide = s.ide := rfl
@[simp] theorem State.logCall_timerLast (s : State) (d : DevId) (c : DevCall) : (s.logCall d c).timerLast = s.timerLast := rfl
@[simp] theorem State.logCall_freeCount (s : State) (d : DevId) (c : DevCall) : (s.logCall d c).freeCount = s.freeCount := rfl
@[simp] theorem State.logCall_params (s : State) (d : DevId) (c : DevCall) : (s.logCall d c).params = s.params := rfl
/-! ### State.raise -/
@[simp] theorem State.raise_regs (s : State) (r : Raise) : (s.raise r).regs = s.regs := by
  rcases r with ⟨⟨⟩⟩ | _ <;> rfl
@[simp] theorem State.raise_psw (s : State) (r : Raise) : (s.raise r).psw = s.psw := by
  rcases r with ⟨⟨⟩⟩ | _ <;> rfl
@[simp] theorem State.raise_runState (s : State) (r : Raise) : (s.raise r).runState = s.runState := by
  rcases r with ⟨⟨⟩⟩ | _ <;> rfl
@[simp] theorem State.raise_cpuTime (s : State) (r : Raise) : (s.raise r).cpuTime = s.cpuTime := by
  rcases r with ⟨⟨⟩⟩ | _ <;> rfl
@[simp] theorem State.raise_mem (s : State) (r : Raise) : (s.raise r).mem = s.mem := by
  rcases r with ⟨⟨⟩⟩ | _ <;> rfl
@[simp] theorem State.raise_mapSel (s : State) (r : Raise) : (s.raise r).mapSel = s.mapSel := by
  rcases r with ⟨⟨⟩⟩ | _ <;> rfl
@[simp] theorem State.raise_floppy (s : State) (r : Raise) : (s.raise r).floppy = s.floppy := by
  rcases r with ⟨⟨⟩⟩ | _ <;> rfl
@[simp] theorem State.raise_ide (s : State) (r : Raise) : (s.raise r).ide = s.ide := by
  rcases r with ⟨⟨⟩⟩ | _ <;> rfl
@[simp] theorem State.raise_timerLast (s : State) (r : Raise) : (s.raise r).timerLast = s.timerLast := by
  rcases r with ⟨⟨⟩⟩ | _ <;> rfl
@[simp] theorem State.raise_devLog (s : State) (r : Raise) : (s.raise r).devLog = s.devLog := by
  rcases r with ⟨⟨⟩⟩ | _ <;> rfl
@[simp] theorem State.raise_freeCount (s : State) (r : Raise) : (s.raise r).freeCount = s.freeCount := by
  rcases r with ⟨⟨⟩⟩ | _ <;> rfl
@[simp] theorem State.raise_params (s : State) (r : Raise) : (s.raise r).params = s.params := by
  rcases r with ⟨⟨⟩⟩ | _ <;> rfl
/-! ### State.raiseAll -/
@[simp] theorem State.raiseAll_regs (rs : List Raise) (s : State) : (s.raiseAll rs).regs = s.regs := by
  induction rs generalizing s with
  | nil => rfl
  | cons r rs ih => exact (ih (s.raise r)).trans (s.raise_regs r)
@[simp] theorem State.raiseAll_psw (rs : List Raise) (s : State) : (s.raiseAll rs).psw = s.psw := by
  induction rs generalizing s with
  | nil => rfl
  | cons r rs ih => exact (ih (s.raise r)).trans (s.raise_psw r)
@[simp] theorem State.raiseAll_runState (rs : List Raise) (s : State) : (s.raiseAll rs).runState = s.runState := by
  induction rs generalizing s with
  | nil => rfl
  | cons r rs ih => exact (ih (s.raise r)).trans (s.raise_runState r)
@[simp] theorem State.raiseAll_cpuTime (rs : List Raise) (s : State) : (s.raiseAll rs).cpuTime = s.cpuTime := by
  induction rs generalizing s with
  | nil => rfl
  | cons r rs ih => exact (ih (s.raise r)).trans (s.raise_cpuTime r)
@[simp] theorem State.raiseAll_mem (rs : List Raise) (s : State) : (s.raiseAll rs).mem = s.mem := by
  induction rs generalizing s with
  | nil => rfl
  | cons r rs ih => exact (ih (s.raise r)).trans (s.raise_mem r)
@[simp] theorem State.raiseAll_mapSel (rs : List Raise) (s : State) : (s.raiseAll rs).mapSel = s.mapSel := by
  induction rs generalizing s with
  | nil => rfl
  | cons r rs ih => exact (ih (s.raise r)).trans (s.raise_mapSel r)
@[simp] theorem State.raiseAll_floppy (rs : List Raise) (s : State) : (s.raiseAll rs).floppy = s.floppy := by
  induction rs generalizing s with
  | nil => rfl
  | cons r rs ih => exact (ih (s.raise r)).trans (s.raise_floppy r)
@[simp] theorem State.raiseAll_ide (rs : List Raise) (s : State) : (s.raiseAll rs).ide = s.ide := by
  induction rs generalizing s with
  | nil => rfl
  | cons r rs ih => exact (ih (s.raise r)).trans (s.raise_ide r)
@[simp] theorem State.raiseAll_timerLast (rs : List Raise) (s : State) : (s.raiseAll rs).timerLast = s.timerLast := by
  induction rs generalizing s with
  | nil => rfl
  | cons r rs ih => exact (ih (s.raise r)).trans (s.raise_timerLast r)
@[simp] theorem State.raiseAll_devLog (rs : List Raise) (s : State) : (s.raiseAll rs).devLog = s.devLog := by
  induction rs generalizing s with
  | nil => rfl
  | cons r rs ih => exact (ih (s.raise r)).trans (s.raise_devLog r)
@[simp] theorem State.raiseAll_freeCount (rs : List Raise) (s : State) : (s.raiseAll rs).freeCount = s.freeCount := by
  induction rs generalizing s with
  | nil => rfl
  | cons r rs ih => exact (ih (s.raise r)).trans (s.raise_freeCount r)
@[simp] theorem State.raiseAll_params (rs : List Raise) (s : State) : (s.raiseAll rs).params = s.params := by
  induction rs generalizing s with
  | nil => rfl
  | cons r rs ih => exact (ih (s.raise r)).trans (s.raise_params r)
/-! ### State.reselect -/
@[simp] theorem State.reselect_regs (s : State) (d : DevId) : (s.reselect d).regs = s.regs := by
  unfold State.reselect
  split <;> rfl
@[simp] theorem State.reselect_psw (s : State) (d : DevId) : (s.reselect d).psw = s.psw := by
  unfold State.reselect
  split <;> rfl
@[simp] theorem State.reselect_runState (s : State) (d : DevId) : (s.reselect d).runState = s.runState := by
  unfold State.reselect
  split <;> rfl
@[simp] theorem State.reselect_req (s : State) (d : DevId) : (s.reselect d).req = s.req := by
  unfold State.reselect
  split <;> rfl
@[simp] theorem State.reselect_cpuTime (s : State) (d : DevId) : (s.reselect d).cpuTime = s.cpuTime := by
  unfold State.reselect
  split <;> rfl
@[simp] theorem State.reselect_mem (s : State) (d : DevId) : (s.reselect d).mem = s.mem := by
  unfold State.reselect
  split <;> rfl
@[simp] theorem State.reselect_floppy (s : State) (d : DevId) : (s.reselect d).floppy = s.floppy := by
  unfold State.reselect
  split <;> rfl
@[simp] theorem State.reselect_ide (s : State) (d : DevId) : (s.reselect d).ide = s.ide := by
  unfold State.reselect
  split <;> rfl
@[simp] theorem State.reselect_timerLast (s : State) (d : DevId) : (s.reselect d).timerLast = s.timerLast := by
  unfold State.reselect
  split <;> rfl
@[simp] theorem State.reselect_devLog (s : State) (d : DevId) : (s.reselect d).devLog = s.devLog := by
  unfold State.reselect
  split <;> rfl
@[simp] theorem State.reselect_freeCount (s : State) (d : DevId) : (s.reselect d).freeCount = s.freeCount := by
  unfold State.reselect
  split <;> rfl
@[simp] theorem State.reselect_params (s : State) (d : DevId) : (s.reselect d).params = s.params := by
  unfold State.reselect
  split <;> rfl
/-! ## The changed field -/

@[simp] theorem State.setPsw_psw (s : State) (v : Word) : (s.setPsw v).psw = v &&& s.pswBits := rfl

@[simp] theorem State.setCc_psw (s : State) (n z v c : Bool) : (s.setCc n z v c).psw = withCc s.psw n z v c := rfl

@[simp] theorem State.setAlu_psw (s : State) (r : Alu) : (s.setAlu r).psw = withCc s.psw r.n r.z r.v r.c := rfl

@[simp] theorem State.raiseBusError_req (s : State) : s.raiseBusError.req = { s.req with busError := true } := rfl

@[simp] theorem State.raiseReserved_req (s : State) : s.raiseReserved.req = { s.req with reserved := true } := rfl

@[simp] theorem State.advancePc_pc (s : State) : s.advancePc.reg .pc = s.reg .pc + 2 := rfl

theorem State.reg_advancePc_of_ne (s : State) (q : Reg) (h : q ≠ .pc) : s.advancePc.reg q = s.reg q :=
  s.reg_setReg_of_ne .pc q _ h

/-! ## Requests raised by devices -/

@[simp] theorem State.raise_busError (s : State) (r : Raise) : (s.raise r).req.busError = s.req.busError := by
  rcases r with ⟨⟨⟩⟩ | _ <;> rfl

@[simp] theorem State.raise_reserved (s : State) (r : Raise) : (s.raise r).req.reserved = s.req.reserved := by
  rcases r with ⟨⟨⟩⟩ | _ <;> rfl

@[simp] theorem State.raise_trace (s : State) (r : Raise) : (s.raise r).req.trace = s.req.trace := by
  rcases r with ⟨⟨⟩⟩ | _ <;> rfl

@[simp] theorem State.raiseAll_busError (rs : List Raise) (s : State) : (s.raiseAll rs).req.busError = s.req.busError := by
  induction rs generalizing s with
  | nil => rfl
  | cons r rs ih => exact (ih (s.raise r)).trans (s.raise_busError r)

@[simp] theorem State.raiseAll_reserved (rs : List Raise) (s : State) : (s.raiseAll rs).req.reserved = s.req.reserved := by
  induction rs generalizing s with
  | nil => rfl
  | cons r rs ih => exact (ih (s.raise r)).trans (s.raise_reserved r)

@[simp] theorem State.raiseAll_trace (rs : List Raise) (s : State) : (s.raiseAll rs).req.trace = s.req.trace := by
  induction rs generalizing s with
  | nil => rfl
  | cons r rs ih => exact (ih (s.raise r)).trans (s.raise_trace r)

end Sys2Proof.Machine
end

