-- ==== Sys2Proof/Laws/Bus.lean ====
section
/-! SUPPORT. What a bus access, an initialisation of the devices and the timer hooks leave unchanged, and the result
of an access to RAM, ROM, a device or nothing. -/

namespace Sys2Proof.Machine

/-! ## The processor is left alone -/

/-- `t` differs from `s` in no part of the processor but the interrupt requests. -/
structure SameCpu (s t : State) : Prop where
  regs : t.regs = s.regs
  psw : t.psw = s.psw
  runState : t.runState = s.runState
  busError : t.req.busError = s.req.busError
  reserved : t.req.reserved = s.req.reserved
  trace : t.req.trace = s.req.trace
  cpuTime : t.cpuTime = s.cpuTime
  params : t.params = s.params

theorem SameCpu.refl (s : State) : SameCpu s s := ⟨rfl, rfl, rfl, rfl, rfl, rfl, rfl, rfl⟩

theorem SameCpu.trans {s t u : State} (h : SameCpu s t) (k : SameCpu t u) : SameCpu s u :=
  ⟨k.regs.trans h.regs, k.psw.trans h.psw, k.runState.trans h.runState, k.busError.trans h.busError,
    k.reserved.trans h.reserved, k.trace.trans h.trace, k.cpuTime.trans h.cpuTime, k.params.trans h.params⟩

theorem SameCpu.reg {s t : State} (h : SameCpu s t) (r : Reg) : t.reg r = s.reg r := State.reg_congr h.regs r

theorem SameCpu.pswBits {s t : State} (h : SameCpu s t) : t.pswBits = s.pswBits := by
  unfold State.pswBits
  rw [h.params]

theorem SameCpu.raise (s : State) (r : Raise) : SameCpu s (s.raise r) := by constructor <;> simp

theorem SameCpu.logCall (s : State) (d : DevId) (c : DevCall) : SameCpu s (s.logCall d c) := by constructor <;> simp

theorem SameCpu.reselect (s : State) (d : DevId) : SameCpu s (s.reselect d) := by constructor <;> simp

theorem SameCpu.callOpen (s : State) (d : DevId) (c : DevCall) : SameCpu s (s.callOpen d c) := by
  unfold State.callOpen
  constructor <;> simp

theorem SameCpu.devRead (s : State) (d : DevId) (k : Nat) (a : Word) : SameCpu s (s.devRead d k a).2 := by
  unfold State.devRead
  split
  · split <;> exact ⟨rfl, rfl, rfl, rfl, rfl, rfl, rfl, rfl⟩
  · split <;> exact ⟨rfl, rfl, rfl, rfl, rfl, rfl, rfl, rfl⟩
  · exact SameCpu.callOpen ..

theorem SameCpu.devWrite (s : State) (d : DevId) (k : Nat) (b : Bool) (a v : Word) :
    SameCpu s (s.devWrite d k b a v).2 := by
  unfold State.devWrite
  split
  · exact ⟨rfl, rfl, rfl, rfl, rfl, rfl, rfl, rfl⟩
  · exact ⟨rfl, rfl, rfl, rfl, rfl, rfl, rfl, rfl⟩
  · split
    · exact (SameCpu.callOpen ..).trans (SameCpu.reselect ..)
    · exact SameCpu.logCall ..

theorem SameCpu.devInit (b : Bool) (s : State) (d : DevId) : SameCpu s (s.devInit b d) := by
  unfold State.devInit
  split
  · exact ⟨rfl, rfl, rfl, rfl, rfl, rfl, rfl, rfl⟩
  · exact ⟨rfl, rfl, rfl, rfl, rfl, rfl, rfl, rfl⟩
  · exact ⟨rfl, rfl, rfl, rfl, rfl, rfl, rfl, rfl⟩
  · exact (SameCpu.logCall ..).trans (SameCpu.reselect ..)

theorem SameCpu.foldl {α : Type} (f : State → α → State) (hf : ∀ s a, SameCpu s (f s a)) (l : List α) (s : State) :
    SameCpu s (l.foldl f s) := by
  induction l generalizing s with
  | nil => exact .refl s
  | cons a l ih => exact (hf s a).trans (ih (f s a))

theorem SameCpu.initDevices (b : Bool) (s : State) : SameCpu s (s.initDevices b) :=
  SameCpu.foldl _ (fun s d => SameCpu.devInit b s d) _ s

theorem SameCpu.clearIrqs (s : State) : SameCpu s s.clearIrqs := ⟨rfl, rfl, rfl, rfl, rfl, rfl, rfl, rfl⟩

theorem SameCpu.systemTimerHook (s : State) : SameCpu s s.systemTimerHook := by
  unfold State.systemTimerHook
  split
  · constructor <;> simp
  · exact .refl s

theorem SameCpu.devTimer (s : State) (e : DevEntry) : SameCpu s (s.devTimer e) := by
  unfold State.devTimer
  split
  · split
    · exact .refl s
    · exact .refl s
    · exact SameCpu.systemTimerHook s
    · exact SameCpu.callOpen ..
  · exact .refl s

theorem SameCpu.runTimers (s : State) : SameCpu s s.runTimers :=
  SameCpu.foldl _ SameCpu.devTimer _ s

theorem SameCpu.loadWord (s : State) (a : Word) : SameCpu s (s.loadWord a).2 := by
  unfold State.loadWord
  split
  · exact SameCpu.devRead ..
  · split <;> exact .refl s

/-- A read cycle leaves the processor alone. -/
theorem SameCpu.load (s : State) (w : Width) (a : Word) : SameCpu s (s.load w a).2 := by
  unfold State.load
  split
  · exact .refl s
  · exact SameCpu.loadWord s _

/-- The fetch of an instruction word is a read cycle, or reads nothing at the address of a device. -/
theorem State.fetch_cases (s : State) :
    (s.params.deviceFetch = .busError ∧ (s.device (evenAddr (s.reg .pc))).isSome = true ∧ s.fetch = (none, s)) ∨
      ((s.params.deviceFetch = .deviceAnswers ∨ s.device (evenAddr (s.reg .pc)) = none) ∧
        s.fetch = s.load .word (s.reg .pc)) := by
  unfold State.fetch
  split
  · rename_i h; exact .inl ⟨h.1, h.2, rfl⟩
  · rename_i h
    refine .inr ⟨?_, rfl⟩
    cases e : s.params.deviceFetch with
    | busError => exact .inr (by simpa [e] using h)
    | deviceAnswers => exact .inl rfl

/-- A fetch leaves the processor alone. -/
theorem SameCpu.fetch (s : State) : SameCpu s s.fetch.2 := by
  obtain ⟨_, _, h⟩ | ⟨_, h⟩ := s.fetch_cases
  · rw [h]; exact .refl s
  · rw [h]; exact SameCpu.load ..

/-- A write cycle leaves the processor alone. -/
theorem SameCpu.store (s : State) (w : Width) (a v : Word) : SameCpu s (s.store w a v).2 := by
  unfold State.store
  split
  · exact .refl s
  · split
    · exact SameCpu.devWrite ..
    · split
      · exact ⟨rfl, rfl, rfl, rfl, rfl, rfl, rfl, rfl⟩
      · exact .refl s
      · exact .refl s

/-! ## Memory and the map -/

theorem State.callOpen_mem (s : State) (d : DevId) (c : DevCall) : (s.callOpen d c).mem = s.mem := by
  simp [State.callOpen]

theorem State.callOpen_mapSel (s : State) (d : DevId) (c : DevCall) : (s.callOpen d c).mapSel = s.mapSel := by
  simp [State.callOpen]

theorem State.callOpen_timerLast (s : State) (d : DevId) (c : DevCall) :
    (s.callOpen d c).timerLast = s.timerLast := by
  simp [State.callOpen]

theorem State.callOpen_floppy (s : State) (d : DevId) (c : DevCall) : (s.callOpen d c).floppy = s.floppy := by
  simp [State.callOpen]

theorem State.callOpen_ide (s : State) (d : DevId) (c : DevCall) : (s.callOpen d c).ide = s.ide := by
  simp [State.callOpen]

theorem State.devRead_mem (s : State) (d : DevId) (k : Nat) (a : Word) : (s.devRead d k a).2.mem = s.mem := by
  unfold State.devRead
  split
  · split <;> rfl
  · split <;> rfl
  · exact State.callOpen_mem ..

theorem State.devRead_mapSel (s : State) (d : DevId) (k : Nat) (a : Word) :
    (s.devRead d k a).2.mapSel = s.mapSel := by
  unfold State.devRead
  split
  · split <;> rfl
  · split <;> rfl
  · exact State.callOpen_mapSel ..

theorem State.devRead_timerLast (s : State) (d : DevId) (k : Nat) (a : Word) :
    (s.devRead d k a).2.timerLast = s.timerLast := by
  unfold State.devRead
  split
  · split <;> rfl
  · split <;> rfl
  · exact State.callOpen_timerLast ..

theorem State.devWrite_mem (s : State) (d : DevId) (k : Nat) (b : Bool) (a v : Word) :
    (s.devWrite d k b a v).2.mem = s.mem := by
  unfold State.devWrite
  split
  · rfl
  · rfl
  · split
    · exact (State.reselect_mem ..).trans (State.callOpen_mem ..)
    · exact State.logCall_mem ..

theorem State.devWrite_timerLast (s : State) (d : DevId) (k : Nat) (b : Bool) (a v : Word) :
    (s.devWrite d k b a v).2.timerLast = s.timerLast := by
  unfold State.devWrite
  split
  · rfl
  · rfl
  · split
    · exact (State.reselect_timerLast ..).trans (State.callOpen_timerLast ..)
    · exact State.logCall_timerLast ..

theorem State.devInit_mem (b : Bool) (s : State) (d : DevId) : (s.devInit b d).mem = s.mem := by
  unfold State.devInit
  split
  · rfl
  · rfl
  · rfl
  · rw [State.reselect_mem, State.logCall_mem]

theorem State.initDevices_mem (b : Bool) (s : State) : (s.initDevices b).mem = s.mem := by
  unfold State.initDevices
  generalize s.params.devices.map DevEntry.dev = l
  induction l generalizing s with
  | nil => rfl
  | cons d l ih => exact (ih _).trans (State.devInit_mem b s d)

theorem State.devTimer_mem (s : State) (e : DevEntry) : (s.devTimer e).mem = s.mem := by
  unfold State.devTimer State.systemTimerHook
  split
  · split
    · rfl
    · rfl
    · split <;> simp
    · exact State.callOpen_mem ..
  · rfl

theorem State.runTimers_mem (s : State) : s.runTimers.mem = s.mem := by
  unfold State.runTimers
  generalize s.params.devices = l
  induction l generalizing s with
  | nil => rfl
  | cons d l ih => exact (ih _).trans (State.devTimer_mem s d)

/-- A read cycle changes no memory. -/
theorem State.load_mem (s : State) (w : Width) (a : Word) : (s.load w a).2.mem = s.mem := by
  unfold State.load State.loadWord
  split
  · rfl
  · split
    · exact State.devRead_mem ..
    · split <;> rfl

/-- A fetch changes no memory. -/
theorem State.fetch_mem (s : State) : s.fetch.2.mem = s.mem := by
  obtain ⟨_, _, h⟩ | ⟨_, h⟩ := s.fetch_cases
  · rw [h]
  · rw [h]; exact State.load_mem ..

/-- A fetch selects no other map. -/
theorem State.fetch_mapSel (s : State) : s.fetch.2.mapSel = s.mapSel := by
  obtain ⟨_, _, h⟩ | ⟨_, h⟩ := s.fetch_cases
  · rw [h]
  · rw [h]
    unfold State.load State.loadWord
    split
    · rfl
    · split
      · exact State.devRead_mapSel ..
      · split <;> rfl

/-- A read cycle selects no other map. -/
theorem State.load_mapSel (s : State) (w : Width) (a : Word) : (s.load w a).2.mapSel = s.mapSel := by
  unfold State.load State.loadWord
  split
  · rfl
  · split
    · exact State.devRead_mapSel ..
    · split <;> rfl

theorem State.load_timerLast (s : State) (w : Width) (a : Word) : (s.load w a).2.timerLast = s.timerLast := by
  unfold State.load State.loadWord
  split
  · rfl
  · split
    · exact State.devRead_timerLast ..
    · split <;> rfl

theorem State.store_timerLast (s : State) (w : Width) (a v : Word) : (s.store w a v).2.timerLast = s.timerLast := by
  unfold State.store
  split
  · rfl
  · split
    · exact State.devWrite_timerLast ..
    · split <;> rfl

/-- What the address decoder depends on. -/
structure SameMap (s t : State) : Prop where
  params : t.params = s.params
  mapSel : t.mapSel = s.mapSel

theorem SameMap.cellOf {s t : State} (h : SameMap s t) (a : Word) : t.cellOf a = s.cellOf a := by
  unfold State.cellOf State.map
  rw [h.params, h.mapSel]

theorem SameMap.device {s t : State} (h : SameMap s t) (a : Word) : t.device a = s.device a := by
  unfold State.device
  rw [h.params]

theorem SameMap.misaligned {s t : State} (h : SameMap s t) (w : Width) (a : Word) :
    t.misaligned w a = s.misaligned w a := by
  unfold State.misaligned
  rw [h.params]

theorem SameMap.storeCells {s t : State} (h : SameMap s t) (w : Width) (a : Word) :
    t.storeCells w a = s.storeCells w a := by
  unfold State.storeCells
  rw [h.misaligned, h.device, h.cellOf]

theorem SameMap.load (s : State) (w : Width) (a : Word) : SameMap s (s.load w a).2 :=
  ⟨(SameCpu.load s w a).params, State.load_mapSel s w a⟩

theorem SameMap.refl (s : State) : SameMap s s := ⟨rfl, rfl⟩

theorem SameMap.trans {s t u : State} (h : SameMap s t) (k : SameMap t u) : SameMap s u :=
  ⟨k.params.trans h.params, k.mapSel.trans h.mapSel⟩

/-- A write cycle keeps the canonical form. -/
theorem State.store_wf (s : State) (w : Width) (a v : Word) (h : s.mem.wf = true) : (s.store w a v).2.mem.wf = true := by
  unfold State.store
  split
  · exact h
  · split
    · rw [State.devWrite_mem]; exact h
    · split
      · unfold Memory.storeAt
        split
        · exact Memory.wf_setWord _ _ h
        · exact Memory.wf_set _ _ h
      · exact h
      · exact h

/-- A write cycle changes no cell outside `storeCells`. -/
theorem State.store_frame (s : State) (w : Width) (a v : Word) (c : Nat) (h : c ∉ s.storeCells w a) :
    (s.store w a v).2.mem.get c = s.mem.get c := by
  unfold State.storeCells at h
  unfold State.store
  split
  · rfl
  · rename_i hm
    rw [if_neg hm] at h
    split
    · rw [State.devWrite_mem]
    · rename_i hd
      rw [hd] at h
      split
      · rename_i hc
        rw [hc] at h
        unfold Memory.storeAt
        cases w with
        | word =>
          simp only [List.mem_cons, List.not_mem_nil, or_false, not_or] at h
          exact Memory.get_setWord_ne v h.1 h.2
        | byte =>
          simp only [List.mem_singleton] at h
          exact Memory.get_set_ne _ h
      · rfl
      · rfl

/-! ## Plain accesses -/

/-- A word read from RAM or ROM. -/
theorem State.load_word_memory (s : State) (a : Word) (k : MemKind) (p : Nat) (hm : s.misaligned .word a = false)
    (hd : s.device (evenAddr a) = none) (hc : s.cellOf (evenAddr a) = some (k, p)) :
    s.load .word a = (some (s.mem.getWord p), s) := by
  unfold State.load
  rw [hm, if_neg Bool.false_ne_true]
  unfold State.loadWord
  rw [hd, hc]
  rfl

/-- A read from RAM or ROM, of either width. -/
theorem State.load_memory (s : State) (w : Width) (a : Word) (k : MemKind) (p : Nat) (hm : s.misaligned w a = false)
    (hd : s.device (evenAddr a) = none) (hc : s.cellOf (evenAddr a) = some (k, p)) :
    s.load w a = (some (lane w a (s.mem.getWord p)), s) := by
  unfold State.load
  rw [hm, if_neg Bool.false_ne_true]
  unfold State.loadWord
  rw [hd, hc]
  rfl

/-- A read where nothing answers. -/
theorem State.load_nothing (s : State) (w : Width) (a : Word) (hd : s.device (evenAddr a) = none)
    (hc : s.cellOf (evenAddr a) = none) : s.load w a = (none, s) := by
  unfold State.load
  split
  · rfl
  · unfold State.loadWord
    rw [hd, hc]
    rfl

/-- A write to RAM. -/
theorem State.store_ram (s : State) (w : Width) (a v : Word) (p : Nat) (hm : s.misaligned w a = false)
    (hd : s.device (evenAddr a) = none) (hc : s.cellOf (evenAddr a) = some (.ram, p)) :
    s.store w a v = (true, { s with mem := s.mem.storeAt w a p v }) := by
  unfold State.store
  rw [hm, if_neg Bool.false_ne_true, hd, hc]

/-- A write to ROM is ignored. -/
theorem State.store_rom (s : State) (w : Width) (a v : Word) (p : Nat) (hm : s.misaligned w a = false)
    (hd : s.device (evenAddr a) = none) (hc : s.cellOf (evenAddr a) = some (.rom, p)) :
    s.store w a v = (true, s) := by
  unfold State.store
  rw [hm, if_neg Bool.false_ne_true, hd, hc]

/-- A write where nothing answers. -/
theorem State.store_nothing (s : State) (w : Width) (a v : Word) (hd : s.device (evenAddr a) = none)
    (hc : s.cellOf (evenAddr a) = none) : s.store w a v = (false, s) := by
  unfold State.store
  split
  · rfl
  · rw [hd, hc]

end Sys2Proof.Machine
end

