-- ==== Sys2Proof/Laws/Closure.lean ====
section
/-! SUPPORT. What an instruction can do, said once: it is a composition of bus accesses, register writes, status-word
writes and run-state changes, each of them only where the instruction may do it, and it ends by raising at most one
exception. `exec_closed` is the one theorem about all instructions that the claims about every instruction cite. -/

namespace Sys2Proof.Machine

/-! ## Results of operations -/

/-- What holds of the value and the state a result carries: `P` when it goes on, `Q` when it is abandoned, `R` of a
faulted state. -/
def Res.Sat {α : Type} (P : α → State → Prop) (Q : State → Prop) (R : State → Prop) (x : Res α) : Prop :=
  match x with
  | .ok v s => P v s
  | .abandoned s => Q s
  | .fault (.doubleBusError s) => R s
  | .refused _ => True

theorem Res.Sat.andThen {α β : Type} {P : α → State → Prop} {P' : β → State → Prop} {Q R : State → Prop} {x : Res α}
    {f : α → State → Res β} (hx : x.Sat P Q R) (hf : ∀ v s, P v s → (f v s).Sat P' Q R) :
    (x.andThen f).Sat P' Q R := by
  cases x with
  | ok v s => exact hf v s hx
  | abandoned s => exact hx
  | fault e => exact hx
  | refused r => trivial

theorem Res.Sat.mono {α : Type} {P P' : α → State → Prop} {Q R : State → Prop} {x : Res α} (hx : x.Sat P Q R)
    (h : ∀ v s, P v s → P' v s) : x.Sat P' Q R := by
  cases x with
  | ok v s => exact h v s hx
  | abandoned s => exact hx
  | fault e => exact hx
  | refused r => trivial

theorem Res.Sat.outcome {Q : State → Prop} {x : Res Unit} (hx : x.Sat (fun _ => Q) Q Q) : outcomeSat Q x.outcome := by
  cases x with
  | ok v s => exact hx
  | abandoned s => exact hx
  | fault e => cases e; exact hx
  | refused r => trivial

@[simp] theorem Res.andThen_ok {α β : Type} (v : α) (s : State) (f : α → State → Res β) :
    (Res.ok v s).andThen f = f v s := rfl

@[simp] theorem Res.andThen_abandoned {α β : Type} (s : State) (f : α → State → Res β) :
    (Res.abandoned s : Res α).andThen f = .abandoned s := rfl

@[simp] theorem Res.andThen_fault {α β : Type} (e : Fault) (f : α → State → Res β) :
    (Res.fault e : Res α).andThen f = .fault e := rfl

@[simp] theorem Res.andThen_refused {α β : Type} (r : Refusal) (f : α → State → Res β) :
    (Res.refused r : Res α).andThen f = .refused r := rfl

@[simp] theorem Res.outcome_ok (s : State) : (Res.ok () s).outcome = .next s := rfl

@[simp] theorem Res.outcome_abandoned (s : State) : (Res.abandoned s).outcome = .next s := rfl

@[simp] theorem Res.outcome_fault (e : Fault) : (Res.fault e).outcome = .fault e := rfl

@[simp] theorem Res.outcome_refused (r : Refusal) : (Res.refused r).outcome = .refused r := rfl

/-! ## The guards -/

@[simp] theorem guardUnnamed_execute {s : State} (h : s.params.unnamedOpcodes = .execute) (x : Res Unit) :
    guardUnnamed s x = x := by
  unfold guardUnnamed
  rw [h]

@[simp] theorem guardUnnamed_refuse {s : State} (h : s.params.unnamedOpcodes = .refuse) (x : Res Unit) :
    guardUnnamed s x = .refused .unnamedOpcode := by
  unfold guardUnnamed
  rw [h]

/-! ## A write of an operand keeps PSW -/

theorem State.doPost_psw (s : State) (p : Place) : (s.doPost p).psw = s.psw := by
  unfold State.doPost
  split <;> rfl

theorem State.dstWrite_psw {s t : State} {w : Width} {p : Place} {v : Word} (h : s.dstWrite w p v = .ok () t) :
    t.psw = s.psw := by
  have hw : ∀ u, s.writeLoc w p.loc v = .ok () u → u.psw = s.psw := by
    intro u hu
    unfold State.writeLoc at hu
    split at hu
    · split at hu <;> (cases hu; rfl)
    · have hf := SameCpu.store s w ‹Word› v
      unfold State.write at hu
      split at hu
      · rename_i e; rw [e] at hf; cases hu; exact hf.psw
      · cases hu
  unfold State.dstWrite at h
  cases e : s.writeLoc w p.loc v with
  | ok u x => rw [e] at h; cases h; rw [State.doPost_psw]; exact hw x e
  | abandoned x => rw [e] at h; cases h
  | fault x => rw [e] at h; cases h
  | refused x => rw [e] at h; cases h

/-! ## The closure of an instruction -/

/-- The status words an instruction may write over `old`: none if it keeps PSW; any word within the bits that hold
state if it loads PSW; else only the condition codes, and not C if it keeps C. -/
def pswMayBecome (i : Instr) (s : State) (v : Word) : Prop :=
  i.keepsPsw = false ∧ v &&& ~~~(s.psw ||| s.pswBits) = 0 ∧
    (i.loadsPsw = false → v &&& 0xfff0 = s.psw &&& 0xfff0) ∧
    (i.keepsCarry = true → v.getLsbD 0 = s.psw.getLsbD 0)

/-- `P` survives whatever the instruction `i` may do while it runs, and gives `Q` when it ends: by raising an exception,
by writing the status word or the run state as its last action, or with neither. -/
structure Closed (i : Instr) (P Q : State → Prop) : Prop where
  load : ∀ s w a, P s → P (s.load w a).2
  store : ∀ s w a v, i.stores = true → P s → P (s.store w a v).2
  setReg : ∀ s r v, r = .pc ∨ r ∈ i.touched → P s → P (s.setReg r v)
  psw : ∀ s v, pswMayBecome i s v → P s → Q { s with psw := v }
  enter : ∀ s v r, i.setsRunState = true → pswMayBecome i s v → P s → Q { s with psw := v, runState := r }
  run : ∀ s r, i.setsRunState = true → P s → Q { s with runState := r }
  reset : ∀ s, i = .reset → P s → P (s.initDevices false).clearIrqs
  bus : ∀ s, P s → Q s.raiseBusError
  reserved : ∀ s, i.raisesReserved = true → P s → Q s.raiseReserved
  done : ∀ s, P s → Q s

section
variable {i : Instr} {P Q : State → Prop} (h : Closed i P Q)
include h

theorem Closed.read {s : State} (w : Width) (a : Word) (hs : P s) : (s.read w a).Sat (fun _ => P) Q Q := by
  have hl := h.load s w a hs
  unfold State.read
  split
  · rename_i e; rw [e] at hl; exact hl
  · rename_i e; rw [e] at hl; exact h.bus _ hl

theorem Closed.write {s : State} (w : Width) (a v : Word) (hi : i.stores = true) (hs : P s) : (s.write w a v).Sat (fun _ => P) Q Q := by
  have hl := h.store s w a v hi hs
  unfold State.write
  split
  · rename_i e; rw [e] at hl; exact hl
  · rename_i e; rw [e] at hl; exact h.bus _ hl

theorem Closed.push {s : State} (v : Word) (hi : i.stores = true) (hr : .sp ∈ i.touched) (hs : P s) : (s.push v).Sat (fun _ => P) Q Q := by
  have hl := h.store _ .word (s.reg .sp - 2) v hi (h.setReg s .sp (s.reg .sp - 2) (.inr hr) hs)
  unfold State.push
  split
  · rename_i e; rw [e] at hl; exact hl
  · rename_i e; rw [e] at hl; exact h.done _ hl

theorem Closed.pop {s : State} (hr : .sp ∈ i.touched) (hs : P s) : s.pop.Sat (fun _ => P) Q Q :=
  (h.read .word _ hs).andThen fun _ t ht => h.setReg t .sp _ (.inr hr) ht

theorem Closed.readVector {s : State} (a : Word) (hs : P s) : (s.readVector a).Sat (fun _ => P) Q Q := by
  have hl := h.load s .word a hs
  unfold State.readVector
  split
  · rename_i e; rw [e] at hl; exact hl
  · rename_i e; rw [e] at hl; exact h.done _ hl

omit h in
theorem pswMayBecome_masked {s : State} (v : Word) (hk : i.keepsPsw = false) (hc : i.keepsCarry = false)
    (hl : i.loadsPsw = true) : pswMayBecome i s (v &&& s.pswBits) := by
  refine ⟨hk, ?_, by simp [hl], by simp [hc]⟩
  apply BitVec.eq_of_getLsbD_eq
  intro j hj
  simp only [BitVec.getLsbD_and, BitVec.getLsbD_not, BitVec.getLsbD_or, hj]
  cases s.pswBits.getLsbD j <;> simp

theorem Closed.trapEntry {s : State} (vec : Word) (hi : i.stores = true) (hr : .sp ∈ i.touched) (hk : i.keepsPsw = false)
    (hc : i.keepsCarry = false) (hl : i.loadsPsw = true) (hn : i.setsRunState = true) (hs : P s) :
    (s.trapEntry vec).Sat (fun _ => Q) Q Q :=
  (h.push _ hi hr hs).andThen fun _ _ hs1 =>
  (h.push _ hi hr hs1).andThen fun _ _ hs2 =>
  (h.readVector _ hs2).andThen fun _ _ hs3 =>
  (h.readVector _ hs3).andThen fun npsw s4 hs4 =>
  h.enter (s4.setReg .pc _) (npsw &&& s4.pswBits) .running hn (pswMayBecome_masked npsw hk hc hl)
    (h.setReg s4 .pc _ (.inl rfl) hs4)

theorem Closed.trapReturn {s : State} (hr : .sp ∈ i.touched) (hk : i.keepsPsw = false)
    (hc : i.keepsCarry = false) (hl : i.loadsPsw = true) (hs : P s) : s.trapReturn.Sat (fun _ => Q) Q Q :=
  (h.pop hr hs).andThen fun _ _ hs1 =>
  (h.pop hr hs1).andThen fun _ _ hs2 =>
  h.psw _ _ (pswMayBecome_masked _ hk hc hl) (h.setReg _ .pc _ (.inl rfl) hs2)

/-! ### Operands -/

theorem Closed.fetchExtension {s : State} (hs : P s) : s.fetchExtension.Sat (fun _ => P) Q Q :=
  (h.read .word _ hs).andThen fun _ t ht => h.setReg t .pc _ (.inl rfl) ht

/-- The register of a place and of its post-action, for the operand it was resolved from. -/
def placeOf (o : Operand) (p : Place) : Prop :=
  (∀ r, p.loc = .reg r → o.mode = .register ∧ r = o.reg) ∧ (∀ r k, p.post = some (r, k) → r ∈ o.stepped)

theorem Closed.resolve {s : State} (w : Width) (o : Operand) (hr : ∀ r ∈ o.stepped, r ∈ i.touched) (hs : P s) :
    (s.resolve w o).Sat (fun p t => P t ∧ placeOf o p) Q Q := by
  obtain ⟨m, r⟩ := o
  cases m with
  | register => exact ⟨hs, by simp [placeOf]⟩
  | deferred => exact ⟨hs, by simp [placeOf]⟩
  | autoInc => exact ⟨hs, by simp [placeOf, Operand.stepped]⟩
  | autoIncDef => exact (h.read .word _ hs).andThen fun _ t ht => ⟨ht, by simp [placeOf, Operand.stepped]⟩
  | autoDec => exact ⟨h.setReg s r _ (.inr (hr r (by simp [Operand.stepped]))) hs, by simp [placeOf]⟩
  | autoDecDef =>
    exact (h.read .word _ (h.setReg s r _ (.inr (hr r (by simp [Operand.stepped]))) hs)).andThen
      fun _ t ht => ⟨ht, by simp [placeOf]⟩
  | index => exact (h.fetchExtension hs).andThen fun _ t ht => ⟨ht, by simp [placeOf]⟩
  | indexDef =>
    exact (h.fetchExtension hs).andThen fun _ t ht => (h.read .word _ ht).andThen fun _ u hu => ⟨hu, by simp [placeOf]⟩

theorem Closed.doPost {s : State} {o : Operand} {p : Place} (hp : placeOf o p) (hr : ∀ r ∈ o.stepped, r ∈ i.touched)
    (hs : P s) : P (s.doPost p) := by
  unfold State.doPost
  split
  · exact hs
  · rename_i r k e; exact h.setReg s r _ (.inr (hr r (hp.2 r k e))) hs

theorem Closed.readLoc {s : State} (w : Width) (l : Loc) (hs : P s) : (s.readLoc w l).Sat (fun _ => P) Q Q := by
  unfold State.readLoc
  split
  · split <;> exact hs
  · exact h.read w _ hs

theorem Closed.writeLoc {s : State} (w : Width) (l : Loc) (v : Word) (hi : i.stores = true) (hr : ∀ r, l = .reg r → r ∈ i.touched) (hs : P s) :
    (s.writeLoc w l v).Sat (fun _ => P) Q Q := by
  unfold State.writeLoc
  split
  · rename_i r
    split <;> exact h.setReg s r _ (.inr (hr r rfl)) hs
  · exact h.write w _ v hi hs

theorem Closed.srcRead {s : State} (w : Width) (o : Operand) (hr : ∀ r ∈ o.stepped, r ∈ i.touched) (hs : P s) :
    (s.srcRead w o).Sat (fun _ => P) Q Q :=
  (h.resolve w o hr hs).andThen fun _ _ ht => (h.readLoc w _ ht.1).andThen fun _ _ hu => h.doPost ht.2 hr hu

theorem Closed.dstRead {s : State} (w : Width) (o : Operand) (hr : ∀ r ∈ o.stepped, r ∈ i.touched) (hs : P s) :
    (s.dstRead w o).Sat (fun pd t => P t ∧ placeOf o pd.1) Q Q :=
  (h.resolve w o hr hs).andThen fun _ _ ht => (h.readLoc w _ ht.1).andThen fun _ _ hu => ⟨hu, ht.2⟩

omit h in
theorem stepped_touched {o : Operand} (hr : ∀ r ∈ o.written, r ∈ i.touched) : ∀ r ∈ o.stepped, r ∈ i.touched := by
  obtain ⟨m, q⟩ := o
  cases m <;> simp_all [Operand.written, Operand.stepped]

omit h in
theorem placeOf_touched {o : Operand} {p : Place} (hp : placeOf o p) (hr : ∀ r ∈ o.written, r ∈ i.touched) :
    ∀ r, p.loc = .reg r → r ∈ i.touched := by
  intro r e
  obtain ⟨hm, rfl⟩ := hp.1 r e
  exact hr _ (by simp [Operand.written, hm])

theorem Closed.dstWrite {s : State} (w : Width) {o : Operand} {p : Place} (v : Word) (hi : i.stores = true) (hp : placeOf o p)
    (hr : ∀ r ∈ o.written, r ∈ i.touched) (hs : P s) : (s.dstWrite w p v).Sat (fun _ => P) Q Q :=
  (h.writeLoc w _ v hi (placeOf_touched hp hr) hs).andThen fun _ _ ht => h.doPost hp (stepped_touched hr) ht

theorem Closed.dstStore {s : State} (w : Width) (o : Operand) (v : Word) (hi : i.stores = true) (hr : ∀ r ∈ o.written, r ∈ i.touched)
    (hs : P s) : (s.dstStore w o v).Sat (fun _ => P) Q Q :=
  (h.resolve w o (stepped_touched hr) hs).andThen fun _ _ ht => h.dstWrite w v hi ht.2 hr ht.1

theorem Closed.effAddr {s : State} (o : Operand) (hr : ∀ r ∈ o.stepped, r ∈ i.touched)
    (hi : o.mode = .register → i.raisesReserved = true) (hs : P s) : (s.effAddr o).Sat (fun _ => P) Q Q := by
  unfold State.effAddr
  split
  · exact h.reserved s (hi ‹_›) hs
  · refine (h.resolve .word o hr hs).andThen fun p t ht => ?_
    split
    · exact h.doPost ht.2 hr ht.1
    · rename_i r e
      exact absurd (ht.2.1 r e).1 ‹_›

omit h in
/-- The closure that says an operand access keeps PSW: JSR keeps it and may store and change its register. -/
theorem closed_psw (s : State) (r : Reg) : Closed (.jsr r ⟨.deferred, .r0⟩) (fun t => t.psw = s.psw) (fun _ => True) where
  load t w a ht := (SameCpu.load t w a).psw.trans ht
  store t w a v _ ht := (SameCpu.store t w a v).psw.trans ht
  setReg t q v _ ht := ht
  psw _ _ _ _ := trivial
  enter _ _ _ _ _ _ := trivial
  run _ _ _ _ := trivial
  reset t e _ := by cases e
  bus _ _ := trivial
  reserved _ _ _ := trivial
  done _ _ := trivial

omit h in
theorem State.dstStore_psw {s t : State} {w : Width} {o : Operand} {v : Word} (e : s.dstStore w o v = .ok () t) :
    t.psw = s.psw := by
  have hd := (closed_psw s o.reg).dstStore w o v rfl (fun r hr => by
    obtain ⟨m, q⟩ := o
    cases m <;> simp_all [Instr.touched, Operand.written, Operand.stepped]) (s := s) rfl
  rw [e] at hd
  exact hd

/-! ### Condition codes -/

omit h in
theorem ccBits_getLsbD (n z v c : Bool) (j : Nat) (hj : 4 ≤ j) : (ccBits n z v c).getLsbD j = false := by
  rcases Nat.lt_or_ge j 16 with h16 | h16
  · cases n <;> cases z <;> cases v <;> cases c <;> interval_cases j <;> rfl
  · exact BitVec.getLsbD_of_ge _ _ h16

omit h in
theorem withCc_high (psw : Word) (n z v c : Bool) : withCc psw n z v c &&& 0xfff0 = psw &&& 0xfff0 := by
  apply BitVec.eq_of_getLsbD_eq
  intro j hj
  simp only [withCc, BitVec.getLsbD_and, BitVec.getLsbD_or]
  rcases Nat.lt_or_ge j 4 with h4 | h4
  · have : (0xfff0 : Word).getLsbD j = false := by interval_cases j <;> rfl
    rw [this, Bool.and_false, Bool.and_false]
  · have : (0xfff0 : Word).getLsbD j = true := by interval_cases j <;> rfl
    rw [this, ccBits_getLsbD _ _ _ _ _ h4]
    simp

omit h in
theorem withCc_carry (psw : Word) (n z v c : Bool) : (withCc psw n z v c).getLsbD 0 = c := by
  simp only [withCc, BitVec.getLsbD_and, BitVec.getLsbD_or]
  cases n <;> cases z <;> cases v <;> cases c <;> simp [ccBits]

omit h in
theorem high_kept {psw v bits : Word} (hv : v &&& 0xfff0 = psw &&& 0xfff0) (hb : (0x00ff : Word) &&& ~~~bits = 0) :
    v &&& ~~~(psw ||| bits) = 0 := by
  apply BitVec.eq_of_getLsbD_eq
  intro j hj
  have h1 := congrArg (fun x => BitVec.getLsbD x j) hv
  have h2 := congrArg (fun x => BitVec.getLsbD x j) hb
  simp only [BitVec.getLsbD_and, BitVec.getLsbD_not, BitVec.getLsbD_or, hj, decide_true, Bool.true_and] at h1 h2 ⊢
  rcases Nat.lt_or_ge j 4 with h4 | h4
  · have : (0x00ff : Word).getLsbD j = true := by interval_cases j <;> rfl
    rw [this] at h2
    simp_all
  · have : (0xfff0 : Word).getLsbD j = true := by interval_cases j <;> rfl
    rw [this] at h1
    simp_all

omit h in
theorem pswBits_low (s : State) : (0x00ff : Word) &&& ~~~s.pswBits = 0 := by
  apply BitVec.eq_of_getLsbD_eq
  intro j hj
  simp only [State.pswBits, BitVec.getLsbD_and, BitVec.getLsbD_not, BitVec.getLsbD_or, hj]
  cases (0x00ff : Word).getLsbD j <;> simp

theorem Closed.setCc {s : State} (n z v c : Bool) (hk : i.keepsPsw = false)
    (hc : i.keepsCarry = true → c = s.flagC) (hs : P s) : Q (s.setCc n z v c) :=
  h.psw s _ ⟨hk, high_kept (withCc_high ..) (pswBits_low s), fun _ => withCc_high .., fun e =>
    (withCc_carry ..).trans (hc e)⟩ hs

/-! ### Shapes -/

omit h in
theorem guardBytes_sat {P' : Unit → State → Prop} {R : State → Prop} (w : Width) (os : List Operand) {x : Res Unit}
    (hx : x.Sat P' Q R) : (guardBytes w os x).Sat P' Q R := by
  unfold guardBytes
  split
  · trivial
  · exact hx

omit h in
theorem guardUnnamed_sat {P' : Unit → State → Prop} {R : State → Prop} (s : State) {x : Res Unit} (hx : x.Sat P' Q R) :
    (guardUnnamed s x).Sat P' Q R := by
  unfold guardUnnamed
  split
  · exact hx
  · trivial

theorem Closed.doubleOp {s : State} (w : Width) (src dst : Operand) (f : Word → Word → Bool → Alu)
    (hsrc : ∀ r ∈ src.stepped, r ∈ i.touched) (hdst : ∀ r ∈ dst.written, r ∈ i.touched) (hi : i.stores = true) (hk : i.keepsPsw = false)
    (hc : i.keepsCarry = true → ∀ a d c, (f a d c).c = c) (hs : P s) : (doubleOp w src dst f s).Sat (fun _ => Q) Q Q := by
  refine guardBytes_sat w _ ?_
  refine (h.srcRead w src hsrc hs).andThen fun a s1 hs1 => ?_
  refine (h.dstRead w dst (stepped_touched hdst) hs1).andThen fun pd s2 hs2 => ?_
  have hw := h.dstWrite w (f a pd.2 s2.flagC).value hi hs2.2 hdst hs2.1
  cases e : s2.dstWrite w pd.1 (f a pd.2 s2.flagC).value with
  | ok u s3 =>
    rw [e] at hw
    refine h.setCc _ _ _ _ hk (fun hi' => ?_) hw
    rw [hc hi']
    unfold State.flagC
    rw [State.dstWrite_psw e]
  | abandoned s3 => rw [e] at hw; exact hw
  | fault e' => rw [e] at hw; exact hw
  | refused r => trivial

theorem Closed.compareOp {s : State} (w : Width) (src dst : Operand) (f : Word → Word → Bool → Alu)
    (hsrc : ∀ r ∈ src.stepped, r ∈ i.touched) (hdst : ∀ r ∈ dst.stepped, r ∈ i.touched) (hk : i.keepsPsw = false)
    (hc : i.keepsCarry = true → ∀ a d c, (f a d c).c = c) (hs : P s) :
    (compareOp w src dst f s).Sat (fun _ => Q) Q Q := by
  refine guardBytes_sat w _ ?_
  refine (h.srcRead w src hsrc hs).andThen fun a s1 hs1 => ?_
  refine (h.dstRead w dst hdst hs1).andThen fun pd s2 hs2 => ?_
  refine h.setCc _ _ _ _ hk (fun hi => ?_) (h.doPost hs2.2 hdst hs2.1)
  rw [hc hi]
  unfold State.doPost
  split <;> rfl

theorem Closed.singleOp {s : State} (w : Width) (dst : Operand) (f : Word → Bool → Alu)
    (hdst : ∀ r ∈ dst.written, r ∈ i.touched) (hi : i.stores = true) (hk : i.keepsPsw = false)
    (hc : i.keepsCarry = true → ∀ d c, (f d c).c = c)
    (hs : P s) : (singleOp w dst f s).Sat (fun _ => Q) Q Q := by
  refine guardBytes_sat w _ ?_
  refine (h.dstRead w dst (stepped_touched hdst) hs).andThen fun pd s2 hs2 => ?_
  have hw := h.dstWrite w (f pd.2 s2.flagC).value hi hs2.2 hdst hs2.1
  cases e : s2.dstWrite w pd.1 (f pd.2 s2.flagC).value with
  | ok u s3 =>
    rw [e] at hw
    refine h.setCc _ _ _ _ hk (fun hi' => ?_) hw
    rw [hc hi']
    unfold State.flagC
    rw [State.dstWrite_psw e]
  | abandoned s3 => rw [e] at hw; exact hw
  | fault e' => rw [e] at hw; exact hw
  | refused r => trivial

theorem Closed.testOp {s : State} (w : Width) (dst : Operand) (f : Word → Bool → Alu)
    (hdst : ∀ r ∈ dst.stepped, r ∈ i.touched) (hk : i.keepsPsw = false) (hc : i.keepsCarry = false) (hs : P s) :
    (testOp w dst f s).Sat (fun _ => Q) Q Q := by
  refine guardBytes_sat w _ ?_
  refine (h.dstRead w dst hdst hs).andThen fun pd s2 hs2 => ?_
  exact h.setCc _ _ _ _ hk (by simp [hc]) (h.doPost hs2.2 hdst hs2.1)

theorem Closed.branchIf {s : State} (b : Bool) (off : Byte) (hs : P s) : (branchIf b off s).Sat (fun _ => Q) Q Q := by
  unfold Machine.branchIf
  show Q (if b then _ else _)
  split
  · exact h.done _ (h.setReg s .pc _ (.inl rfl) hs)
  · exact h.done _ hs

theorem Closed.storeOp {s : State} (w : Width) (dst : Operand) (r : Alu)
    (hdst : ∀ r ∈ dst.written, r ∈ i.touched) (hi : i.stores = true) (hk : i.keepsPsw = false)
    (hc : i.keepsCarry = true → r.c = s.flagC) (hs : P s) : (storeOp w dst r s).Sat (fun _ => Q) Q Q := by
  refine guardBytes_sat w _ ?_
  have hw := h.dstStore w dst r.value hi hdst hs
  cases e : s.dstStore w dst r.value with
  | ok u s3 =>
    rw [e] at hw
    refine h.setCc _ _ _ _ hk (fun hi' => ?_) hw
    rw [hc hi']
    unfold State.flagC
    rw [State.dstStore_psw e]
  | abandoned s3 => rw [e] at hw; exact hw
  | fault e' => rw [e] at hw; exact hw
  | refused _ => trivial

theorem Closed.storeByteExtended {s : State} (dst : Operand) (v : Word) (hi : i.stores = true) (hdst : ∀ r ∈ dst.written, r ∈ i.touched)
    (hs : P s) : (s.storeByteExtended dst v).Sat (fun _ => P) Q Q := by
  unfold State.storeByteExtended
  split
  · exact h.setReg s _ _ (.inr (hdst _ (by simp [Operand.written, *]))) hs
  · exact h.dstStore .byte dst v hi hdst hs

theorem Closed.execMov {s : State} {src dst : Operand} (hi : i = .mov src dst) (hs : P s) :
    outcomeSat Q (execMov src dst s) := by
  subst hi
  refine Res.Sat.outcome ?_
  refine (h.srcRead _ src (fun r hr => by simp [Instr.touched, hr]) hs).andThen fun v s1 hs1 => ?_
  refine (h.dstStore _ dst v rfl (fun r hr => by simp [Instr.touched, hr]) hs1).andThen fun _ s2 hs2 => ?_
  exact (h.setCc _ _ _ _ rfl (fun _ => rfl) hs2)

theorem Closed.execMovb {s : State} {src dst : Operand} (hi : i = .movb src dst) (hs : P s) :
    outcomeSat Q (execMovb src dst s) := by
  subst hi
  refine Res.Sat.outcome (guardBytes_sat _ _ ?_)
  refine (h.srcRead _ src (fun r hr => by simp [Instr.touched, hr]) hs).andThen fun v s1 hs1 => ?_
  refine (h.storeByteExtended dst v rfl (fun r hr => by simp [Instr.touched, hr]) hs1).andThen fun _ s2 hs2 => ?_
  exact (h.setCc _ _ _ _ rfl (fun _ => rfl) hs2)

theorem Closed.execMfps {s : State} {dst : Operand} (hi : i = .mfps dst) (hs : P s) :
    outcomeSat Q (execMfps dst s) := by
  subst hi
  refine Res.Sat.outcome (guardUnnamed_sat _ (guardBytes_sat _ _ ?_))
  refine (h.storeByteExtended dst _ rfl (fun r hr => by simp [Instr.touched, hr]) hs).andThen fun _ s2 hs2 => ?_
  exact (h.setCc _ _ _ _ rfl (fun _ => rfl) hs2)

omit h in
theorem mtpsPsw_kept (psw v bits : Word) (hb : (0x00ff : Word) &&& ~~~bits = 0) :
    mtpsPsw psw v &&& ~~~(psw ||| bits) = 0 := by
  apply BitVec.eq_of_getLsbD_eq
  intro j hj
  have h2 := congrArg (fun x => BitVec.getLsbD x j) hb
  simp only [mtpsPsw, BitVec.getLsbD_and, BitVec.getLsbD_not, BitVec.getLsbD_or, hj, decide_true, Bool.true_and] at h2 ⊢
  rcases Nat.lt_or_ge j 8 with h8 | h8
  · have : (0x00ff : Word).getLsbD j = true := by interval_cases j <;> rfl
    rw [this] at h2
    simp_all
  · have : (0x00ef : Word).getLsbD j = false := by interval_cases j <;> rfl
    rw [this]
    cases psw.getLsbD j <;> simp

theorem Closed.execMtps {s : State} {src : Operand} (hi : i = .mtps src) (hs : P s) :
    outcomeSat Q (execMtps src s) := by
  subst hi
  refine Res.Sat.outcome (guardUnnamed_sat _ (guardBytes_sat _ _ ?_))
  refine (h.srcRead _ src (fun r hr => by simp [Instr.touched, hr]) hs).andThen fun v s1 hs1 => ?_
  exact (h.psw _ _ ⟨rfl, mtpsPsw_kept _ _ _ (pswBits_low s1), by simp [Instr.loadsPsw],
    by simp [Instr.keepsCarry, Instr.keepsPsw]⟩ hs1)

omit h in
theorem ccopPsw_high (psw : Word) (set : Bool) (m : BitVec 4) : ccopPsw psw set m &&& 0xfff0 = psw &&& 0xfff0 := by
  apply BitVec.eq_of_getLsbD_eq
  intro j hj
  rcases Nat.lt_or_ge j 4 with h4 | h4
  · have : (0xfff0 : Word).getLsbD j = false := by interval_cases j <;> rfl
    simp only [BitVec.getLsbD_and, this, Bool.and_false]
  · have : m.getLsbD j = false := BitVec.getLsbD_of_ge _ _ h4
    cases set <;> simp [ccopPsw, hj, this]

theorem Closed.execCcop {s : State} {set : Bool} {m : BitVec 4} (hi : i = .ccop set m) (hs : P s) :
    outcomeSat Q (execCcop set m s) := by
  subst hi
  exact (h.psw _ _ ⟨rfl, high_kept (ccopPsw_high ..) (pswBits_low s), fun _ => ccopPsw_high ..,
    by simp [Instr.keepsCarry, Instr.keepsPsw]⟩ hs)

theorem Closed.execJmp {s : State} {dst : Operand} (hi : i = .jmp dst) (hs : P s) : outcomeSat Q (execJmp dst s) := by
  subst hi
  refine Res.Sat.outcome ?_
  refine (h.effAddr dst (fun r hr => by simp [Instr.touched, hr]) (by simp [Instr.raisesReserved]) hs).andThen fun a s1 hs1 => ?_
  exact h.done _ (h.setReg _ .pc _ (.inl rfl) hs1)

theorem Closed.execJsr {s : State} {r : Reg} {dst : Operand} (hi : i = .jsr r dst) (hs : P s) :
    outcomeSat Q (execJsr r dst s) := by
  subst hi
  refine Res.Sat.outcome ?_
  refine (h.effAddr dst (fun r hr => by simp [Instr.touched, hr]) (by simp [Instr.raisesReserved]) hs).andThen fun a s1 hs1 => ?_
  refine (h.push _ rfl (by simp [Instr.touched]) hs1).andThen fun _ s2 hs2 => ?_
  exact h.done _ (h.setReg _ .pc _ (.inl rfl) (h.setReg _ r _ (.inr (by simp [Instr.touched])) hs2))

theorem Closed.execRts {s : State} {r : Reg} (hi : i = .rts r) (hs : P s) : outcomeSat Q (execRts r s) := by
  subst hi
  refine Res.Sat.outcome ?_
  refine (h.pop (by simp [Instr.touched]) hs).andThen fun v s1 hs1 => ?_
  exact h.done _ (h.setReg _ r _ (.inr (by simp [Instr.touched])) (h.setReg _ .pc _ (.inl rfl) hs1))

theorem Closed.execMark {s : State} {nn : BitVec 6} (hi : i = .mark nn) (hs : P s) : outcomeSat Q (execMark nn s) := by
  subst hi
  refine Res.Sat.outcome (guardUnnamed_sat _ ?_)
  refine (h.read .word _ hs).andThen fun v s1 hs1 => ?_
  exact h.done _ (h.setReg _ .r5 _ (.inr (by simp [Instr.touched])) (h.setReg _ .pc _ (.inl rfl)
    (h.setReg _ .sp _ (.inr (by simp [Instr.touched])) hs1)))

theorem Closed.execSob {s : State} {r : Reg} {off : BitVec 6} (hi : i = .sob r off) (hs : P s) :
    outcomeSat Q (execSob r off s) := by
  subst hi
  have hs1 := h.setReg s r (s.reg r - 1) (.inr (by simp [Instr.touched])) hs
  refine Res.Sat.outcome (guardUnnamed_sat _ (h.done _ ?_))
  show P (if _ then _ else _)
  split
  · exact hs1
  · exact h.setReg _ .pc _ (.inl rfl) hs1

end

/-- Whatever is kept by everything an instruction may do holds after the instruction, and of the faulted state if it
faults. -/
theorem exec_closed (i : Instr) {P Q : State → Prop} (h : Closed i P Q) {s : State} (hs : P s) :
    outcomeSat Q (exec i s) := by
  have sat : ∀ {x : Res Unit}, x.Sat (fun _ => Q) Q Q → outcomeSat Q x.outcome := Res.Sat.outcome
  have unnamed : ∀ {x : Res Unit}, x.Sat (fun _ => Q) Q Q → outcomeSat Q (guardUnnamed s x).outcome :=
    fun hx => sat (guardUnnamed_sat s hx)
  cases i with
  | halt => exact h.run s _ rfl hs
  | wait => exact h.run s _ rfl hs
  | rti => exact sat (h.trapReturn (by simp [Instr.touched]) rfl rfl rfl hs)
  | bpt => exact sat (h.trapEntry _ rfl (by simp [Instr.touched]) rfl rfl rfl rfl hs)
  | iot => exact sat (h.trapEntry _ rfl (by simp [Instr.touched]) rfl rfl rfl rfl hs)
  | reset => exact h.done _ (h.reset s rfl hs)
  | rtt => exact unnamed (h.trapReturn (by simp [Instr.touched]) rfl rfl rfl hs)
  | jmp dst => exact h.execJmp rfl hs
  | rts r => exact h.execRts rfl hs
  | ccop set m => exact h.execCcop rfl hs
  | swab dst => exact sat (h.singleOp _ dst _ (fun r hr => by simp [Instr.touched, hr]) rfl rfl (fun e => by cases e) hs)
  | br off => exact sat (h.branchIf _ off hs)
  | bne off => exact sat (h.branchIf _ off hs)
  | beq off => exact sat (h.branchIf _ off hs)
  | bge off => exact sat (h.branchIf _ off hs)
  | blt off => exact sat (h.branchIf _ off hs)
  | bgt off => exact sat (h.branchIf _ off hs)
  | ble off => exact sat (h.branchIf _ off hs)
  | jsr r dst => exact h.execJsr rfl hs
  | clr dst => exact sat (h.storeOp _ dst _ (fun r hr => by simp [Instr.touched, hr]) rfl rfl (fun e => by cases e) hs)
  | com dst => exact sat (h.singleOp _ dst _ (fun r hr => by simp [Instr.touched, hr]) rfl rfl (fun e => by cases e) hs)
  | inc dst => exact sat (h.singleOp _ dst _ (fun r hr => by simp [Instr.touched, hr]) rfl rfl (fun _ _ _ => rfl) hs)
  | dec dst => exact sat (h.singleOp _ dst _ (fun r hr => by simp [Instr.touched, hr]) rfl rfl (fun _ _ _ => rfl) hs)
  | neg dst => exact sat (h.singleOp _ dst _ (fun r hr => by simp [Instr.touched, hr]) rfl rfl (fun e => by cases e) hs)
  | adc dst => exact unnamed (h.singleOp _ dst _ (fun r hr => by simp [Instr.touched, hr]) rfl rfl (fun e => by cases e) hs)
  | sbc dst => exact unnamed (h.singleOp _ dst _ (fun r hr => by simp [Instr.touched, hr]) rfl rfl (fun e => by cases e) hs)
  | tst dst => exact sat (h.testOp _ dst _ (fun r hr => by simp [Instr.touched, hr]) rfl rfl hs)
  | ror dst => exact sat (h.singleOp _ dst _ (fun r hr => by simp [Instr.touched, hr]) rfl rfl (fun e => by cases e) hs)
  | rol dst => exact sat (h.singleOp _ dst _ (fun r hr => by simp [Instr.touched, hr]) rfl rfl (fun e => by cases e) hs)
  | asr dst => exact sat (h.singleOp _ dst _ (fun r hr => by simp [Instr.touched, hr]) rfl rfl (fun e => by cases e) hs)
  | asl dst => exact sat (h.singleOp _ dst _ (fun r hr => by simp [Instr.touched, hr]) rfl rfl (fun e => by cases e) hs)
  | mark nn => exact h.execMark rfl hs
  | sxt dst => exact unnamed (h.storeOp _ dst _ (fun r hr => by simp [Instr.touched, hr]) rfl rfl (fun _ => rfl) hs)
  | mov src dst => exact h.execMov rfl hs
  | cmp src dst => exact sat (h.compareOp _ src dst _ (fun r hr => by simp [Instr.touched, hr]) (fun r hr => by simp [Instr.touched, hr]) rfl (fun e => by cases e) hs)
  | bit src dst => exact sat (h.compareOp _ src dst _ (fun r hr => by simp [Instr.touched, hr]) (fun r hr => by simp [Instr.touched, hr]) rfl (fun _ _ _ _ => rfl) hs)
  | bic src dst => exact sat (h.doubleOp _ src dst _ (fun r hr => by simp [Instr.touched, hr]) (fun r hr => by simp [Instr.touched, hr]) rfl rfl (fun _ _ _ _ => rfl) hs)
  | bis src dst => exact sat (h.doubleOp _ src dst _ (fun r hr => by simp [Instr.touched, hr]) (fun r hr => by simp [Instr.touched, hr]) rfl rfl (fun _ _ _ _ => rfl) hs)
  | add src dst => exact sat (h.doubleOp _ src dst _ (fun r hr => by simp [Instr.touched, hr]) (fun r hr => by simp [Instr.touched, hr]) rfl rfl (fun e => by cases e) hs)
  | xor r dst => exact unnamed (h.singleOp _ dst _ (fun r hr => by simp [Instr.touched, hr]) rfl rfl (fun _ _ _ => rfl) hs)
  | sob r off => exact h.execSob rfl hs
  | bpl off => exact sat (h.branchIf _ off hs)
  | bmi off => exact sat (h.branchIf _ off hs)
  | bhi off => exact sat (h.branchIf _ off hs)
  | blos off => exact sat (h.branchIf _ off hs)
  | bvc off => exact sat (h.branchIf _ off hs)
  | bvs off => exact sat (h.branchIf _ off hs)
  | bcc off => exact sat (h.branchIf _ off hs)
  | bcs off => exact sat (h.branchIf _ off hs)
  | emt num => exact sat (h.trapEntry _ rfl (by simp [Instr.touched]) rfl rfl rfl rfl hs)
  | trap num => exact sat (h.trapEntry _ rfl (by simp [Instr.touched]) rfl rfl rfl rfl hs)
  | clrb dst => exact sat (h.storeOp _ dst _ (fun r hr => by simp [Instr.touched, hr]) rfl rfl (fun e => by cases e) hs)
  | comb dst => exact sat (h.singleOp _ dst _ (fun r hr => by simp [Instr.touched, hr]) rfl rfl (fun e => by cases e) hs)
  | incb dst => exact sat (h.singleOp _ dst _ (fun r hr => by simp [Instr.touched, hr]) rfl rfl (fun _ _ _ => rfl) hs)
  | decb dst => exact sat (h.singleOp _ dst _ (fun r hr => by simp [Instr.touched, hr]) rfl rfl (fun _ _ _ => rfl) hs)
  | negb dst => exact sat (h.singleOp _ dst _ (fun r hr => by simp [Instr.touched, hr]) rfl rfl (fun e => by cases e) hs)
  | adcb dst => exact unnamed (h.singleOp _ dst _ (fun r hr => by simp [Instr.touched, hr]) rfl rfl (fun e => by cases e) hs)
  | sbcb dst => exact unnamed (h.singleOp _ dst _ (fun r hr => by simp [Instr.touched, hr]) rfl rfl (fun e => by cases e) hs)
  | tstb dst => exact sat (h.testOp _ dst _ (fun r hr => by simp [Instr.touched, hr]) rfl rfl hs)
  | rorb dst => exact sat (h.singleOp _ dst _ (fun r hr => by simp [Instr.touched, hr]) rfl rfl (fun e => by cases e) hs)
  | rolb dst => exact sat (h.singleOp _ dst _ (fun r hr => by simp [Instr.touched, hr]) rfl rfl (fun e => by cases e) hs)
  | asrb dst => exact sat (h.singleOp _ dst _ (fun r hr => by simp [Instr.touched, hr]) rfl rfl (fun e => by cases e) hs)
  | aslb dst => exact sat (h.singleOp _ dst _ (fun r hr => by simp [Instr.touched, hr]) rfl rfl (fun e => by cases e) hs)
  | mtps src => exact h.execMtps rfl hs
  | mfps dst => exact h.execMfps rfl hs
  | movb src dst => exact h.execMovb rfl hs
  | cmpb src dst => exact sat (h.compareOp _ src dst _ (fun r hr => by simp [Instr.touched, hr]) (fun r hr => by simp [Instr.touched, hr]) rfl (fun e => by cases e) hs)
  | bitb src dst => exact sat (h.compareOp _ src dst _ (fun r hr => by simp [Instr.touched, hr]) (fun r hr => by simp [Instr.touched, hr]) rfl (fun _ _ _ _ => rfl) hs)
  | bicb src dst => exact sat (h.doubleOp _ src dst _ (fun r hr => by simp [Instr.touched, hr]) (fun r hr => by simp [Instr.touched, hr]) rfl rfl (fun _ _ _ _ => rfl) hs)
  | bisb src dst => exact sat (h.doubleOp _ src dst _ (fun r hr => by simp [Instr.touched, hr]) (fun r hr => by simp [Instr.touched, hr]) rfl rfl (fun _ _ _ _ => rfl) hs)
  | sub src dst => exact sat (h.doubleOp _ src dst _ (fun r hr => by simp [Instr.touched, hr]) (fun r hr => by simp [Instr.touched, hr]) rfl rfl (fun e => by cases e) hs)
  | reserved w => exact h.reserved s rfl hs

end Sys2Proof.Machine
end

