-- ==== Sys2Proof/Laws/Floppy.lean ====
section
/-! SUPPORT. The floppy controller's invariant is kept by everything the controller does (62_floppy_controller.md). -/

namespace Sys2Proof.Machine

/-! ## One drive -/

theorem FloppyDrive.Ok.empty (p : FloppyParams) : FloppyDrive.empty.Ok p :=
  ⟨fun _ => rfl, .inl rfl, nofun, by decide, by decide⟩

@[simp] theorem buildTrack_length (p : FloppyParams) (img : List Byte) (k h : Nat) :
    (buildTrack p img k h).length = p.wordsPerTrack := by
  unfold buildTrack
  rw [List.length_take, List.length_append]
  simp only [fillWords, List.length_replicate]
  omega

theorem FloppyDrive.Ok.flush {p : FloppyParams} {x : FloppyDrive} (h : x.Ok p) : (x.flush p).Ok p := by
  unfold FloppyDrive.flush
  split
  · split
    · exact ⟨h.blank, h.size, nofun, h.head, h.last⟩
    · exact ⟨nofun, h.size, nofun, h.head, h.last⟩
  · exact h

theorem FloppyDrive.Ok.rebuild {p : FloppyParams} {x : FloppyDrive} (h : x.Ok p) : (x.rebuild p).Ok p := by
  unfold FloppyDrive.rebuild
  split
  · exact ⟨fun _ => rfl, .inl rfl, h.clean, h.head, h.last⟩
  · rename_i img e
    exact ⟨fun e' => by simp [e] at e', .inr (buildTrack_length ..), h.clean, h.head, h.last⟩

theorem FloppyDrive.Ok.reload {p : FloppyParams} {x : FloppyDrive} (side : Bool) (h : x.Ok p) :
    (x.reload p side).Ok p :=
  FloppyDrive.Ok.rebuild ⟨h.flush.blank, h.flush.size, h.flush.clean, h.flush.head, h.flush.last⟩

theorem FloppyDrive.Ok.step {p : FloppyParams} {x : FloppyDrive} (inward : Bool) (h : x.Ok p) :
    (x.step p inward).Ok p := by
  unfold FloppyDrive.step
  split
  · exact h
  · refine FloppyDrive.Ok.rebuild ⟨h.flush.blank, h.flush.size, h.flush.clean, ?_, h.flush.last⟩
    exact Nat.lt_of_le_of_lt (Nat.min_le_right _ _) h.last

/-- A word put into the buffer, the drive marked dirty only if it may be written. -/
theorem FloppyDrive.Ok.putWord {p : FloppyParams} {x : FloppyDrive} (i : Nat) (r : RawWord) (d : Bool) (h : x.Ok p)
    (hd : d = true → x.image.isSome = true ∧ x.writeProtect = false) :
    (x.putWord i r d).Ok p := by
  refine ⟨fun e => ?_, ?_, hd, h.head, h.last⟩
  · show x.buffer.set i r = []
    rw [h.blank e]
    rfl
  · rcases h.size with e | e
    · left
      show x.buffer.set i r = []
      rw [e]
      rfl
    · right
      show (x.buffer.set i r).length = _
      rw [List.length_set, e]

/-- A flush changes the image and the dirty flag only. -/
theorem FloppyDrive.flush_same (p : FloppyParams) (x : FloppyDrive) :
    (x.flush p).image.isSome = x.image.isSome ∧ (x.flush p).writeProtect = x.writeProtect ∧
      (x.flush p).buffer = x.buffer := by
  unfold FloppyDrive.flush
  split
  · split <;> (rename_i e; rw [e]; exact ⟨rfl, rfl, rfl⟩)
  · exact ⟨rfl, rfl, rfl⟩

/-- A drive is clean after a flush (R395). -/
theorem FloppyDrive.flush_dirty (p : FloppyParams) (x : FloppyDrive) : (x.flush p).dirty = false := by
  unfold FloppyDrive.flush
  split
  · split <;> rfl
  · exact Bool.eq_false_iff.2 ‹_›

theorem FloppyDrive.Ok.unmount {p : FloppyParams} {x : FloppyDrive} (h : x.Ok p) : (x.unmount p).Ok p := by
  refine ⟨fun _ => rfl, .inl rfl, fun e => ?_, h.flush.head, h.flush.last⟩
  rw [show (x.unmount p).dirty = (x.flush p).dirty from rfl, FloppyDrive.flush_dirty] at e
  cases e

/-! ## The controller -/

@[simp] theorem Floppy.drive_setDrive (f : Floppy) (l m : DriveLetter) (x : FloppyDrive) :
    (f.setDrive l x).drive m = if m = l then x else f.drive m := by
  cases l <;> cases m <;> rfl

@[simp] theorem Floppy.setDrive_selected (f : Floppy) (l : DriveLetter) (x : FloppyDrive) :
    (f.setDrive l x).selected = f.selected := by cases l <;> rfl

@[simp] theorem Floppy.setDrive_writeState (f : Floppy) (l : DriveLetter) (x : FloppyDrive) :
    (f.setDrive l x).writeState = f.writeState := by cases l <;> rfl

@[simp] theorem Floppy.modifySelected_selected (f : Floppy) (g : FloppyDrive → FloppyDrive) :
    (f.modifySelected g).selected = f.selected := by
  unfold Floppy.modifySelected
  split <;> simp [*]

@[simp] theorem Floppy.modifySelected_writeState (f : Floppy) (g : FloppyDrive → FloppyDrive) :
    (f.modifySelected g).writeState = f.writeState := by
  unfold Floppy.modifySelected
  split <;> simp

theorem Floppy.drive_modifySelected (f : Floppy) (g : FloppyDrive → FloppyDrive) (l : DriveLetter) :
    (f.modifySelected g).drive l = if f.selected = some l then g (f.drive l) else f.drive l := by
  unfold Floppy.modifySelected
  split
  · rename_i e; simp [e]
  · rename_i m e
    rw [Floppy.drive_setDrive, e]
    by_cases h : l = m
    · simp [h]
    · simp [h, Ne.symm h]

theorem Floppy.Ok.powerOn (p : FloppyParams) : Floppy.powerOn.Ok p :=
  ⟨fun l => by cases l <;> exact FloppyDrive.Ok.empty p, nofun⟩

/-- The drives decide, but for the write state. -/
theorem Floppy.Ok.of_drives {p : FloppyParams} {f g : Floppy} (h : f.Ok p) (hd : ∀ l, g.drive l = f.drive l)
    (hw : g.writeState = .writing → g.selected.isSome = true) : g.Ok p :=
  ⟨fun l => hd l ▸ h.drives l, hw⟩

theorem Floppy.Ok.modifySelected {p : FloppyParams} {f : Floppy} {g : FloppyDrive → FloppyDrive} (h : f.Ok p)
    (hg : ∀ l, f.selected = some l → (g (f.drive l)).Ok p) : (f.modifySelected g).Ok p := by
  refine ⟨fun l => ?_, ?_⟩
  · rw [Floppy.drive_modifySelected]
    split
    · exact hg l ‹_›
    · exact h.drives l
  · rw [Floppy.modifySelected_writeState, Floppy.modifySelected_selected]
    exact h.writing

theorem Floppy.Ok.advanceSync {p : FloppyParams} {f : Floppy} (t : Nat) (h : f.Ok p) : (f.advanceSync p t).Ok p := by
  unfold Floppy.advanceSync
  split
  · split <;> exact ⟨fun l => by cases l <;> first | exact h.drives .a | exact h.drives .b | exact h.drives .c | exact h.drives .d, h.writing⟩
  · exact h

theorem Floppy.Ok.advanceWrite {p : FloppyParams} {f : Floppy} (t : Nat) (h : f.Ok p) : (f.advanceWrite p t).Ok p := by
  unfold Floppy.advanceWrite
  split
  · have hm : ∀ i r, (f.modifySelected fun x => (x.putWord i r x.dirty).flush p).Ok p := fun i r =>
      h.modifySelected fun l _ => ((h.drives l).putWord i r _ (h.drives l).clean).flush
    exact (hm _ _).of_drives (fun l => by cases l <;> rfl) nofun
  · exact h

theorem Floppy.Ok.advance {p : FloppyParams} {f : Floppy} (t : Nat) (h : f.Ok p) : (f.advance p t).Ok p :=
  (h.advanceSync t).advanceWrite t

theorem Floppy.Ok.select {p : FloppyParams} {f : Floppy} (new : Option DriveLetter) (h : f.Ok p) :
    (f.select p new).Ok p := by
  unfold Floppy.select
  split
  · exact h
  · have hm := h.modifySelected (g := FloppyDrive.flush p) fun l _ => (h.drives l).flush
    have h2 : ({ (f.modifySelected (FloppyDrive.flush p)) with selected := new, writeState := .idle } : Floppy).Ok p :=
      hm.of_drives (fun l => by cases l <;> rfl) nofun
    exact h2.modifySelected fun l _ => (h2.drives l).reload _

theorem Floppy.Ok.setSide {p : FloppyParams} {f : Floppy} (side : Bool) (h : f.Ok p) : (f.setSide p side).Ok p := by
  unfold Floppy.setSide
  split
  · exact h
  · have h2 : ({ f with side := side } : Floppy).Ok p := h.of_drives (fun l => by cases l <;> rfl) h.writing
    exact h2.modifySelected fun l _ => (h2.drives l).reload _

theorem Floppy.Ok.writeControl {p : FloppyParams} {f : Floppy} (v : Word) (h : f.Ok p) : (f.writeControl p v).Ok p := by
  unfold Floppy.writeControl
  have h1 := h.select (selectOf p v)
  have h2 : ({ (f.select p (selectOf p v)) with motor := v.getLsbD p.motorBit } : Floppy).Ok p :=
    h1.of_drives (fun l => by cases l <;> rfl) h1.writing
  have h3 := h2.setSide (v.getLsbD p.sideBit)
  refine Floppy.Ok.of_drives (f := if v.getLsbD p.stepBit then _ else _) ?_ (fun l => by cases l <;> rfl) ?_
  · split
    · exact h3.modifySelected fun l _ => (h3.drives l).step _
    · exact h3
  · show (if v.getLsbD p.stepBit then _ else _ : Floppy).writeState = _ → (if v.getLsbD p.stepBit then _ else _ : Floppy).selected.isSome = true
    split
    · simpa using h3.writing
    · exact h3.writing

theorem Floppy.Ok.readData {p : FloppyParams} {f : Floppy} (t : Nat) (h : f.Ok p) : (f.readData p t).2.Ok p := by
  unfold Floppy.readData
  show (if _ then _ else _ : Floppy).Ok p
  split <;> exact h.of_drives (fun l => by cases l <;> rfl) h.writing

theorem Floppy.advance_selected (p : FloppyParams) (t : Nat) (f : Floppy) : (f.advance p t).selected = f.selected := by
  unfold Floppy.advance Floppy.advanceWrite Floppy.advanceSync
  split <;> split <;> (try split) <;> simp

/-- Bringing the state up to a time mounts, unmounts and protects no drive. -/
theorem Floppy.advance_drive (p : FloppyParams) (t : Nat) (f : Floppy) (l : DriveLetter) :
    ((f.advance p t).drive l).image.isSome = (f.drive l).image.isSome ∧
      ((f.advance p t).drive l).writeProtect = (f.drive l).writeProtect := by
  have hs : ∀ g : Floppy, (g.advanceSync p t).drive l = g.drive l := by
    intro g
    unfold Floppy.advanceSync
    split
    · split <;> (cases l <;> rfl)
    · rfl
  have hw : ∀ g : Floppy, ((g.advanceWrite p t).drive l).image.isSome = (g.drive l).image.isSome ∧
      ((g.advanceWrite p t).drive l).writeProtect = (g.drive l).writeProtect := by
    intro g
    unfold Floppy.advanceWrite
    split
    · have hm : ∀ q r, ((g.modifySelected fun x => (x.putWord q r x.dirty).flush p).drive l).image.isSome =
            (g.drive l).image.isSome ∧
          ((g.modifySelected fun x => (x.putWord q r x.dirty).flush p).drive l).writeProtect =
            (g.drive l).writeProtect := by
        intro q r
        rw [Floppy.drive_modifySelected]
        split
        · exact ⟨(FloppyDrive.flush_same ..).1, (FloppyDrive.flush_same ..).2.1⟩
        · exact ⟨rfl, rfl⟩
      cases l <;> exact hm _ _
    · exact ⟨rfl, rfl⟩
  have := hw (f.advanceSync p t)
  rw [hs f] at this
  exact this

/-- Whether the selected drive takes writes does not depend on the time. -/
theorem Floppy.advance_writable (p : FloppyParams) (t : Nat) (f : Floppy) : (f.advance p t).writable = f.writable := by
  unfold Floppy.writable
  rw [Floppy.advance_selected]
  split
  · rfl
  · rename_i l _
    rw [(Floppy.advance_drive p t f l).1, (Floppy.advance_drive p t f l).2]

/-- A drive that takes writes is selected, has an image and is not protected (R393). -/
theorem Floppy.writable_selected {f : Floppy} (h : f.writable = true) :
    ∃ l, f.selected = some l ∧ (f.drive l).image.isSome = true ∧ (f.drive l).writeProtect = false := by
  unfold Floppy.writable at h
  split at h
  · cases h
  · rename_i l e
    rw [Bool.and_eq_true, Bool.not_eq_true'] at h
    exact ⟨l, e, h⟩

theorem Floppy.Ok.writeData {p : FloppyParams} {f : Floppy} (t : Nat) (v : Word) (h : f.Ok p) :
    (f.writeData p t v).2.Ok p := by
  unfold Floppy.writeData
  split
  · rename_i hwr
    obtain ⟨l, hl, hi, hp⟩ := Floppy.writable_selected hwr
    have h1 : ∀ g : Floppy, g = (if f.writeState = .idle then
        { f with writeState := .writing, syncState := .idle } else f) →
        g.Ok p ∧ g.selected = some l ∧ g.drive l = f.drive l := by
      intro g hg
      have hd : ∀ m, g.drive m = f.drive m := fun m => by
        rw [hg]
        split
        · cases m <;> rfl
        · rfl
      have hs : g.selected = some l := by
        rw [hg]
        split <;> exact hl
      exact ⟨h.of_drives hd (fun _ => by rw [hs]; rfl), hs, hd l⟩
    have hm : ∀ g : Floppy, g = (if f.writeState = .idle then
        { f with writeState := .writing, syncState := .idle } else f) →
        ∀ i r, (g.modifySelected (FloppyDrive.putWord i r true)).Ok p := by
      intro g hg i r
      obtain ⟨g1, g2, g3⟩ := h1 g hg
      refine g1.modifySelected fun m e => (g1.drives m).putWord i r _ (fun _ => ?_)
      rw [g2] at e
      cases e
      rw [g3]
      exact ⟨hi, hp⟩
    exact (hm _ rfl (headPos p t) ⟨swapBytes v, (if f.writeState = .idle then
        { f with writeState := .writing, syncState := .idle } else f : Floppy).wm⟩).of_drives
      (fun l => by cases l <;> rfl) (hm _ rfl _ _).writing
  · exact h

theorem Floppy.Ok.read {p : FloppyParams} {f : Floppy} (k t : Nat) (h : f.Ok p) : (f.read p k t).2.Ok p := by
  unfold Floppy.read
  show (if _ then _ else _ : Option Word × Floppy).2.Ok p
  split
  · exact h.advance t
  · exact (h.advance t).readData t

theorem Floppy.Ok.write {p : FloppyParams} {f : Floppy} (k t : Nat) (b : Bool) (v : Word) (h : f.Ok p) :
    (f.write p k t b v).2.Ok p := by
  unfold Floppy.write
  show (if _ then _ else _ : Bool × Floppy).2.Ok p
  split
  · exact h.advance t
  · split
    · exact (h.advance t).writeControl v
    · exact (h.advance t).writeData t v

theorem Floppy.Ok.init {p : FloppyParams} {f : Floppy} (h : f.Ok p) : (f.init p).Ok p :=
  (h.modifySelected (g := FloppyDrive.flush p) fun l _ => (h.drives l).flush).of_drives
    (fun l => by cases l <;> rfl) nofun

end Sys2Proof.Machine
end

