-- ==== Sys2Proof/Laws/Ide.lean ====
section
/-! SUPPORT. The IDE controller's invariant is kept by everything the controller does (63_ide_controller.md). -/

namespace Sys2Proof.Machine

/-- An interface with DRQ and BSY clear. -/
theorem IdeInterface.Ok.of_idle {i : IdeInterface} (hb : i.status.bsy = false) (hd : i.status.drq = false) : i.Ok :=
  ⟨hb, fun h => by simp [hd] at h, fun h => by simp [hd] at h, fun h => by simp [hd] at h,
    fun h => by simp [hd] at h⟩

/-- The task registers, the buffer and the geometry do not matter. -/
theorem IdeInterface.Ok.of_same {i j : IdeInterface} (h : i.Ok) (hs : j.status = i.status) (hd : j.drive = i.drive)
    (ho : j.off = i.off) (hf : j.fin = i.fin) (he : j.endFn = i.endFn) (hb : j.blk = i.blk) (hm : j.multi = i.multi)
    (hn : j.multiple = i.multiple) : j.Ok := by
  refine ⟨?_, ?_, ?_, ?_, ?_⟩
  · rw [hs]; exact h.idle
  · rw [hs, hd]; exact h.attached
  · rw [hs]; exact h.noError
  · rw [hs, ho, hf]; exact h.cursor
  · rw [hs, he, hb, hf, hm, hn]; exact h.sectors

theorem IdeInterface.Ok.abort {i : IdeInterface} (p : IdeParams) (h : i.status.bsy = false) : (i.abort p).Ok :=
  .of_idle h rfl

theorem IdeInterface.Ok.resetTask (i : IdeInterface) : i.resetTask.Ok := .of_idle rfl rfl

theorem IdeInterface.Ok.init (i : IdeInterface) : i.init.Ok := .of_idle rfl rfl

theorem IdeInterface.Ok.blank : IdeInterface.blank.Ok := .of_idle rfl rfl

theorem Ide.Ok.init (d : Ide) : d.init.Ok := ⟨.init _, .init _⟩

theorem Ide.Ok.powerOn : Ide.powerOn.Ok := .init _

theorem IdeInterface.addressable_isSome {p : IdeParams} {n : Nat} {i : IdeInterface} (h : i.addressable p n = true) :
    i.drive.isSome = true := by
  unfold IdeInterface.addressable at h
  split at h
  · cases h
  · rename_i d e; rw [e]; rfl

theorem IdeInterface.one_le_block {n : Nat} {i : IdeInterface} (hn : 1 ≤ n) (hm : i.multi = true → 1 ≤ i.multiple) :
    1 ≤ i.block n := by
  unfold IdeInterface.block
  split
  · exact Nat.le_min.2 ⟨hm ‹_›, hn⟩
  · exact Nat.le_refl 1

/-- Arming a transfer of `k` sectors. -/
theorem IdeInterface.Ok.start {i : IdeInterface} {fn : EndFn} {k : Nat} (hb : i.status.bsy = false)
    (he : i.status.err = false) (hr : i.status.drdy = true) (hd : i.drive.isSome = true) (hk : 1 ≤ k) (hkb : i.blk = k)
    (hm : i.multi = true → 1 ≤ i.multiple) : (i.start (sectorBytes * k) fn).Ok := by
  refine ⟨hb, fun _ => hd, fun _ => ⟨he, hr⟩, fun _ => ⟨?_, rfl, ?_⟩, fun _ _ => ⟨?_, ?_, hm⟩⟩
  · show 0 < 512 * k
    omega
  · show 512 * k % 2 = 0
    omega
  · show 1 ≤ i.blk
    omega
  · show sectorBytes * k = sectorBytes * i.blk
    rw [hkb]

theorem IdeInterface.Ok.startRead {i : IdeInterface} (p : IdeParams) {n : Nat} (hn : 1 ≤ n) (hb : i.status.bsy = false)
    (he : i.status.err = false) (hr : i.status.drdy = true) (hm : i.multi = true → 1 ≤ i.multiple) :
    (i.startRead p n).Ok := by
  unfold IdeInterface.startRead
  split
  · exact .abort p hb
  · rename_i d e
    split
    · exact .start hb he hr (by simp [e]) (IdeInterface.one_le_block hn hm) rfl hm
    · exact .abort p hb

theorem IdeInterface.Ok.startWrite {i : IdeInterface} (p : IdeParams) {n : Nat} (hn : 1 ≤ n) (hb : i.status.bsy = false)
    (he : i.status.err = false) (hr : i.status.drdy = true) (hm : i.multi = true → 1 ≤ i.multiple) :
    (i.startWrite p n).Ok := by
  unfold IdeInterface.startWrite
  split
  · exact .start hb he hr (IdeInterface.addressable_isSome ‹_›) (IdeInterface.one_le_block hn hm) rfl hm
  · exact .abort p hb

theorem IdeInterface.advanceBlock_status (p : IdeParams) (i : IdeInterface) :
    (i.advanceBlock p).status = i.status ∧ (i.advanceBlock p).multi = i.multi ∧
      (i.advanceBlock p).multiple = i.multiple := by
  unfold IdeInterface.advanceBlock IdeInterface.setLba
  split <;> exact ⟨rfl, rfl, rfl⟩

/-- The end of a transfer: whatever the cursor, if the transfer in progress is a good one. -/
theorem IdeInterface.Ok.endTransfer {i : IdeInterface} (p : IdeParams) (hb : i.status.bsy = false)
    (he : i.status.err = false) (hr : i.status.drdy = true)
    (hs : i.endFn = .readNext ∨ i.endFn = .writeSector → 1 ≤ i.blk ∧ (i.multi = true → 1 ≤ i.multiple)) :
    (i.endTransfer p).Ok := by
  unfold IdeInterface.endTransfer
  split
  · exact .of_idle hb rfl
  · exact .of_idle hb rfl
  · rename_i e
    have hs := hs (.inr e)
    split
    · show (if _ then _ else _ : IdeInterface).Ok
      split
      · refine .startWrite p (by omega) ?_ ?_ ?_ ?_
        · rw [(IdeInterface.advanceBlock_status p _).1]; exact hb
        · rw [(IdeInterface.advanceBlock_status p _).1]; exact he
        · rw [(IdeInterface.advanceBlock_status p _).1]; exact hr
        · rw [(IdeInterface.advanceBlock_status p _).2.1, (IdeInterface.advanceBlock_status p _).2.2]; exact hs.2
      · refine .of_idle ?_ rfl
        show (IdeInterface.advanceBlock p _).status.bsy = false
        rw [(IdeInterface.advanceBlock_status p _).1]; exact hb
    · exact .abort p hb
  · rename_i e
    have hs := hs (.inl e)
    split
    · show (if _ then _ else _ : IdeInterface).Ok
      split
      · refine .startRead p (by omega) ?_ ?_ ?_ ?_
        · rw [(IdeInterface.advanceBlock_status p _).1]; exact hb
        · rw [(IdeInterface.advanceBlock_status p _).1]; exact he
        · rw [(IdeInterface.advanceBlock_status p _).1]; exact hr
        · rw [(IdeInterface.advanceBlock_status p _).2.1, (IdeInterface.advanceBlock_status p _).2.2]; exact hs.2
      · refine .of_idle ?_ rfl
        show (IdeInterface.advanceBlock p _).status.bsy = false
        rw [(IdeInterface.advanceBlock_status p _).1]; exact hb
    · exact .abort p hb

/-- One word passes the cursor. -/
theorem IdeInterface.Ok.moveOn {i : IdeInterface} (p : IdeParams) (bs : List Byte) (h : i.Ok) (hd : i.status.drq = true) :
    (if i.off + 2 = i.fin then ({ i with buf := bs, off := i.off + 2 } : IdeInterface).endTransfer p
      else { i with buf := bs, off := i.off + 2 }).Ok := by
  obtain ⟨h1, h2, h3⟩ := h.cursor hd
  obtain ⟨he, hr⟩ := h.noError hd
  split
  · exact .endTransfer p h.idle he hr fun e => ⟨(h.sectors hd e).1, (h.sectors hd e).2.2⟩
  · refine ⟨h.idle, h.attached, h.noError, fun _ => ⟨?_, ?_, h3⟩, h.sectors⟩
    · show i.off + 2 < i.fin
      omega
    · show (i.off + 2) % 2 = 0
      omega

theorem IdeInterface.one_le_count (i : IdeInterface) : 1 ≤ i.count := by
  unfold IdeInterface.count
  split
  · omega
  · rename_i h
    have : i.sectorCount.toNat ≠ 0 := fun e => h (BitVec.eq_of_toNat_eq e)
    omega

theorem IdeInterface.Ok.command {i : IdeInterface} (p : IdeParams) (c : Byte) : (i.command p c).Ok := by
  unfold IdeInterface.command
  generalize hj : ({ i with error := 0, status := { bsy := false, drdy := true, drq := false, err := false } } : IdeInterface) = j
  have hb : j.status.bsy = false := by rw [← hj]
  have hq : j.status.drq = false := by rw [← hj]
  have he : j.status.err = false := by rw [← hj]
  have hr : j.status.drdy = true := by rw [← hj]
  have hc := j.one_le_count
  show IdeInterface.Ok (match j.drive with | none => _ | some d => _)
  split
  · exact .abort p hb
  · rename_i d e
    split
    · exact .abort p hb
    · refine ⟨hb, fun _ => ?_, fun _ => ⟨he, hr⟩, fun _ => ⟨?_, rfl, ?_⟩,
        fun _ h => by rcases h with h | h <;> cases h⟩
      · show j.drive.isSome = true
        rw [e]; rfl
      · show 0 < sectorBytes
        decide
      · show sectorBytes % 2 = 0
        decide
    · exact .startRead p hc hb he hr nofun
    · split
      · exact .abort p hb
      · exact .startRead p hc hb he hr fun _ => Nat.one_le_iff_ne_zero.2 ‹_›
    · exact .startWrite p hc hb he hr nofun
    · split
      · exact .abort p hb
      · exact .startWrite p hc hb he hr fun _ => Nat.one_le_iff_ne_zero.2 ‹_›
    · split
      · exact .of_idle hb hq
      · exact .abort p hb
    all_goals first | exact .of_idle hb hq | exact .resetTask _

theorem IdeInterface.Ok.readData {i : IdeInterface} (p : IdeParams) (h : i.Ok) : (i.readData p).2.Ok := by
  unfold IdeInterface.readData
  split
  · exact h.moveOn p i.buf ‹_›
  · exact h

theorem IdeInterface.Ok.writeData {i : IdeInterface} (p : IdeParams) (v : Word) (h : i.Ok) :
    (i.writeData p v).2.Ok := by
  unfold IdeInterface.writeData
  split
  · exact h.moveOn p _ ‹_›
  · exact h

theorem IdeInterface.Ok.writeTask {i : IdeInterface} (p : IdeParams) (k : Nat) (b : Byte) (h : i.Ok) :
    (i.writeTask p k b).Ok := by
  unfold IdeInterface.writeTask
  split <;> first | exact .command p b | exact h.of_same rfl rfl rfl rfl rfl rfl rfl rfl

theorem Ide.Ok.cur {d : Ide} (h : d.Ok) : d.cur.Ok := by
  unfold Ide.cur
  split
  · exact h.second
  · exact h.first

theorem Ide.Ok.setCur {d : Ide} {i : IdeInterface} (h : d.Ok) (hi : i.Ok) : (d.setCur i).Ok := by
  unfold Ide.setCur
  split
  · exact ⟨h.first, hi⟩
  · exact ⟨hi, h.second⟩

theorem Ide.Ok.read {d : Ide} (p : IdeParams) (k : Nat) (h : d.Ok) : (d.read p k).2.Ok := by
  unfold Ide.read
  split
  · exact h
  · split
    · exact h.setCur (h.cur.readData p)
    · exact h

theorem Ide.Ok.write {d : Ide} (p : IdeParams) (k : Nat) (b : Bool) (v : Word) (h : d.Ok) : (d.write p k b v).2.Ok := by
  unfold Ide.write
  show (if _ then _ else _ : Bool × Ide).2.Ok
  split
  · exact h
  · split
    · exact h.setCur (h.cur.writeData p _)
    · split
      · have h' : ({ d with current := (lowByte (present p v)).getLsbD p.driveBit } : Ide).Ok := ⟨h.first, h.second⟩
        exact h'.setCur (h'.cur.writeTask p 6 _)
      · exact h.setCur (h.cur.writeTask p k _)

end Sys2Proof.Machine
end

