-- ==== Sys2Proof/Laws/Invariant.lean ====
section
/-! SUPPORT. The lemmas behind the invariant of the machine: its part that no latch enters is kept by every bus access,
timer hook, device initialisation and trap entry, and an instruction that runs raises at most one exception. -/

namespace Sys2Proof.Machine

/-- The parts of the invariant that no latch enters. -/
structure State.Core (s : State) : Prop where
  memory : s.mem.wf = true
  status : s.psw &&& ~~~s.pswBits = 0
  timer : s.timerLast ≤ s.cpuTime
  floppy : s.floppy.Ok s.params.floppyParams
  ide : s.ide.Ok

theorem State.Core.of_same {s t : State} (h : s.Core) (hc : SameCpu s t) (hm : t.mem = s.mem) (ht : t.timerLast = s.timerLast)
   (hf : t.floppy = s.floppy) (hi : t.ide = s.ide) : t.Core :=
  ⟨hm ▸ h.memory, by rw [hc.pswBits, hc.psw]; exact h.status, by rw [ht, hc.cpuTime]; exact h.timer,
    by rw [hf, hc.params]; exact h.floppy, hi ▸ h.ide⟩

theorem State.Core.callOpen {s : State} (h : s.Core) (d c) : (s.callOpen d c).Core :=
  State.Core.of_same h (SameCpu.callOpen ..) (State.callOpen_mem ..) (State.callOpen_timerLast ..) (State.callOpen_floppy ..) (State.callOpen_ide ..)

theorem State.Core.reselect {s : State} (h : s.Core) (d) : (s.reselect d).Core :=
  State.Core.of_same h (SameCpu.reselect ..) (by simp) (by simp) (by simp) (by simp)

theorem State.Core.withFloppy {s : State} (h : s.Core) {f} (hf : f.Ok s.params.floppyParams) : ({ s with floppy := f } : State).Core :=
  ⟨h.memory, h.status, h.timer, hf, h.ide⟩
theorem State.Core.withIde {s : State} (h : s.Core) {f : Ide} (hf : f.Ok) : ({ s with ide := f } : State).Core :=
  ⟨h.memory, h.status, h.timer, h.floppy, hf⟩
theorem State.Core.fresh {s : State} (h : s.Core) : (s.fresh).2.Core := ⟨h.memory, h.status, h.timer, h.floppy, h.ide⟩

theorem State.Core.devRead {s : State} (h : s.Core) (d k a) : (s.devRead d k a).2.Core := by
  unfold State.devRead
  split
  · have := h.floppy.read k s.cpuTime
    split
    · rename_i e; rw [e] at this; exact h.withFloppy this
    · rename_i e; rw [e] at this; exact (h.withFloppy this).fresh
  · have := h.ide.read s.params.ide k
    split
    · rename_i e; rw [e] at this; exact h.withIde this
    · rename_i e; rw [e] at this; exact (h.withIde this).fresh
  · exact h.callOpen ..

theorem State.Core.devWrite {s : State} (h : s.Core) (d k b a v) : (s.devWrite d k b a v).2.Core := by
  unfold State.devWrite
  split
  · exact h.withFloppy (h.floppy.write k s.cpuTime b v)
  · exact h.withIde (h.ide.write _ k b v)
  · split
    · exact (h.callOpen ..).reselect _
    · exact State.Core.of_same h (SameCpu.logCall ..) (by simp) (by simp) (by simp) (by simp)

theorem State.Core.devInit {s : State} (h : s.Core) (b d) : (s.devInit b d).Core := by
  unfold State.devInit
  split
  · exact h.withFloppy h.floppy.init
  · exact h.withIde (.init _)
  · exact ⟨h.memory, h.status, Nat.le_refl _, h.floppy, h.ide⟩
  · exact (State.Core.of_same h (SameCpu.logCall ..) (by simp) (by simp) (by simp) (by simp)).reselect _

theorem State.Core.foldl {α : Type} (f : State → α → State) (hf : ∀ s a, s.Core → (f s a).Core) (l : List α) {s : State} (h : s.Core) :
   (l.foldl f s).Core := by
  induction l generalizing s with
  | nil => exact h
  | cons a l ih => exact ih (hf s a h)

theorem State.Core.initDevices {s : State} (h : s.Core) (b) : (s.initDevices b).Core :=
  State.Core.foldl _ (fun _ d h => h.devInit b d) _ h

theorem State.Core.hook {s : State} (h : s.Core) : s.systemTimerHook.Core := by
  unfold State.systemTimerHook
  split
  · rename_i hp
    refine ⟨by simpa using h.memory, ?_, ?_, by simpa using h.floppy, by simpa using h.ide⟩
    · simpa [State.pswBits] using h.status
    · have := h.timer
      show s.timerLast + timerPeriod s.params ≤ (s.raise _).cpuTime
      simp
      omega
  · exact h

theorem State.Core.devTimer {s : State} (h : s.Core) (e) : (s.devTimer e).Core := by
  unfold State.devTimer
  split
  · split
    · exact h
    · exact h
    · exact h.hook
    · exact h.callOpen ..
  · exact h

theorem State.Core.runTimers {s : State} (h : s.Core) : s.runTimers.Core := State.Core.foldl _ (fun _ d h => h.devTimer d) _ h

theorem State.Core.load {s : State} (h : s.Core) (w a) : (s.load w a).2.Core := by
  unfold State.load State.loadWord
  split
  · exact h
  · split
    · exact h.devRead ..
    · split <;> exact h

theorem State.Core.fetch {s : State} (h : s.Core) : s.fetch.2.Core := by
  obtain ⟨_, _, e⟩ | ⟨_, e⟩ := s.fetch_cases
  · rw [e]; exact h
  · rw [e]; exact h.load ..

theorem State.Core.store {s : State} (h : s.Core) (w a v) : (s.store w a v).2.Core := by
  refine ⟨State.store_wf _ _ _ _ h.memory, ?_, ?_, ?_, ?_⟩
  · have := SameCpu.store s w a v; rw [this.pswBits, this.psw]; exact h.status
  · rw [State.store_timerLast, (SameCpu.store s w a v).cpuTime]; exact h.timer
  · rw [(SameCpu.store s w a v).params]
    unfold State.store
    split
    · exact h.floppy
    · split
      · have h' := h.devWrite ‹DevId› ‹Nat› (decide (w = .byte)) (writeAddr w a) (writeLane w a v)
        have := h'.floppy; rw [(SameCpu.devWrite ..).params] at this; exact this
      · split <;> exact h.floppy
  · unfold State.store
    split
    · exact h.ide
    · split
      · exact (h.devWrite ..).ide
      · split <;> exact h.ide

/-- The invariant's core in a running processor with no latch of the instruction stream set. -/
structure State.Run (s : State) : Prop extends State.Core s where
  quiet : s.req.busError = false ∧ s.req.reserved = false ∧ s.req.trace = false
  running : s.runState = .running

theorem State.Run.of {s t : State} (h : s.Run) (k : t.Core) (c : SameCpu s t) : t.Run :=
  ⟨k, ⟨c.busError.trans h.quiet.1, c.reserved.trans h.quiet.2.1, c.trace.trans h.quiet.2.2⟩, c.runState.trans h.running⟩

theorem State.Inv.core {s : State} (h : s.Inv) : s.Core := ⟨h.memory, h.status, h.timer, h.floppy, h.ide⟩

/-- What holds after an instruction that ran from a quiet, running state. -/
structure State.After (s : State) : Prop extends State.Core s where
  notrace : s.req.trace = false
  one : s.req.busError = true → s.req.reserved = false
  running : s.req.busError = true ∨ s.req.reserved = true → s.runState = .running

/-- Bits within a masked status word or the mask are within the mask. -/
theorem sub_bits {v psw bits : Word} (h : v &&& ~~~(psw ||| bits) = 0) (k : psw &&& ~~~bits = 0) : v &&& ~~~bits = 0 := by
  apply BitVec.eq_of_getLsbD_eq
  intro j hj
  have h1 := congrArg (fun x => BitVec.getLsbD x j) h
  have h2 := congrArg (fun x => BitVec.getLsbD x j) k
  simp only [BitVec.getLsbD_and, BitVec.getLsbD_not, BitVec.getLsbD_or, hj, decide_true, Bool.true_and] at h1 h2 ⊢
  cases hv : v.getLsbD j <;> cases hp : psw.getLsbD j <;> cases hb : bits.getLsbD j <;> simp_all

/-- Every instruction takes a quiet running state to one in which it raised at most one exception. -/
theorem run_closed (i : Instr) : Closed i State.Run State.After := by
  have done : ∀ s, State.Run s → State.After s := fun s h => ⟨h.toCore, h.quiet.2.2, fun e => by simp [h.quiet.1] at e, fun _ => h.running⟩
  have withPsw : ∀ s v, pswMayBecome i s v → State.Run s → ({s with psw := v} : State).Run := fun s v hv h =>
     ⟨⟨h.memory, sub_bits hv.2.1 h.status, h.timer, h.floppy, h.ide⟩, h.quiet, h.running⟩
  constructor
  case load => intro x w a hx; exact hx.of (hx.toCore.load w a) (SameCpu.load x w a)
  case store => intro x w a v _ hx; exact hx.of (hx.toCore.store w a v) (SameCpu.store x w a v)
  case setReg => intro x q v _ hx; exact ⟨⟨hx.memory, hx.status, hx.timer, hx.floppy, hx.ide⟩, hx.quiet, hx.running⟩
  case psw => intro x v hv hx; exact done _ (withPsw x v hv hx)
  case enter =>
    intro x v r _ hv hx
    have := withPsw x v hv hx
    exact ⟨⟨this.memory, this.status, this.timer, this.floppy, this.ide⟩, hx.quiet.2.2, fun e => by simp [hx.quiet.1] at e, fun e => by simp [hx.quiet.1, hx.quiet.2.1] at e⟩
  case run =>
    intro x r _ hx
    exact ⟨⟨hx.memory, hx.status, hx.timer, hx.floppy, hx.ide⟩, hx.quiet.2.2, fun e => by simp [hx.quiet.1] at e, fun e => by simp [hx.quiet.1, hx.quiet.2.1] at e⟩
  case reset =>
    intro x _ hx
    have h1 := hx.toCore.initDevices false
    exact hx.of ⟨h1.memory, h1.status, h1.timer, h1.floppy, h1.ide⟩ ((SameCpu.initDevices false x).trans (SameCpu.clearIrqs _))
  case bus =>
    intro x hx
    exact ⟨⟨hx.memory, hx.status, hx.timer, hx.floppy, hx.ide⟩, hx.quiet.2.2, fun _ => hx.quiet.2.1, fun _ => hx.running⟩
  case reserved =>
    intro x _ hx
    exact ⟨⟨hx.memory, hx.status, hx.timer, hx.floppy, hx.ide⟩, hx.quiet.2.2, fun e => by simp [hx.quiet.1] at e, fun _ => hx.running⟩
  case done => exact done

theorem charge_next {n c : Nat} {x : Host.Outcome State Fault Refusal} {t : State} (h : charge n c x = .next t) : ∃ u, x = .next u ∧ t = { u with cpuTime := n + c } := by
  cases x with
  | next u => cases h; exact ⟨u, rfl, rfl⟩
  | fault f => cases h
  | refused r => cases h

theorem State.Inv.charge {u : State} {n c : Nat} (h : u.Inv) (hn : u.cpuTime = n) : ({ u with cpuTime := n + c } : State).Inv :=
  ⟨h.memory, h.status, h.latches, h.running, by have := h.timer; show u.timerLast ≤ n + c; omega, h.floppy, h.ide⟩

theorem outcomeSat.next {Q : State → Prop} {x : Host.Outcome State Fault Refusal} {t : State} (h : outcomeSat Q x) (e : x = .next t) : Q t := by subst e; exact h

theorem exec_cpuTime {i : Instr} {s t : State} (h : exec i s = .next t) : t.cpuTime = s.cpuTime := by
  refine outcomeSat.next (exec_closed i (P := fun t => t.cpuTime = s.cpuTime) (Q := fun t => t.cpuTime = s.cpuTime) ?_ rfl) h
  constructor
  case load => intro x w a hx; exact (SameCpu.load x w a).cpuTime.trans hx
  case store => intro x w a v _ hx; exact (SameCpu.store x w a v).cpuTime.trans hx
  case reset => intro x _ hx; exact ((SameCpu.initDevices false x).trans (SameCpu.clearIrqs _)).cpuTime.trans hx
  all_goals intros; assumption

theorem inv_runTimers {s : State} (h : s.Inv) : s.runTimers.Inv := by
  have c := SameCpu.runTimers s
  have k := h.core.runTimers
  refine ⟨k.memory, k.status, ?_, ?_, k.timer, k.floppy, k.ide⟩
  · unfold Requests.exclusive; rw [c.busError, c.reserved, c.trace]; exact h.latches
  · rw [c.busError, c.reserved, c.runState]; exact h.running

theorem State.After.inv_trace {t : State} (h : t.After) (i : Instr) : (t.traceCheck i).Inv := by
  unfold State.traceCheck
  split
  · rename_i hc
    simp only [Bool.and_eq_true, Bool.not_eq_true'] at hc
    refine ⟨h.memory, h.status, ⟨fun e => ?_, fun e => ?_⟩, h.running, h.timer, h.floppy, h.ide⟩
    · have : t.req.busError = true := e
      simp_all
    · have : t.req.reserved = true := e
      simp_all
  · exact ⟨h.memory, h.status, ⟨fun e => ⟨h.one e, h.notrace⟩, fun _ => h.notrace⟩, h.running, h.timer, h.floppy, h.ide⟩

theorem traceCheck_cpuTime (t : State) (i) : (t.traceCheck i).cpuTime = t.cpuTime := by
  unfold State.traceCheck; split <;> rfl


theorem State.push_latches {s t : State} {v : Word} (h : s.push v = .ok () t) :
    t.req.busError = s.req.busError ∧ t.req.reserved = s.req.reserved ∧ t.req.trace = s.req.trace := by
  have c := SameCpu.store (s.setReg .sp (s.reg .sp - 2)) .word (s.reg .sp - 2) v
  unfold State.push at h
  split at h
  · rename_i e; rw [e] at c; cases h; exact ⟨c.busError, c.reserved, c.trace⟩
  · cases h

theorem State.readVector_same {s t : State} {a v : Word} (h : s.readVector a = .ok v t) : SameCpu s t := by
  have c := SameCpu.load s .word a
  unfold State.readVector at h
  split at h
  · rename_i e; rw [e] at c; cases h; exact c
  · cases h

theorem Res.andThen_eq_ok {α β : Type} {x : Res α} {f : α → State → Res β} {v : β} {t : State}
    (h : x.andThen f = .ok v t) : ∃ a u, x = .ok a u ∧ f a u = .ok v t := by
  cases x with
  | ok a u => exact ⟨a, u, rfl, h⟩
  | abandoned u => cases h
  | fault e => cases h
  | refused r => cases h

theorem State.trapEntry_latches {s t : State} {vec : Word} (h : s.trapEntry vec = .ok () t) :
    t.req.busError = s.req.busError ∧ t.req.reserved = s.req.reserved ∧ t.req.trace = s.req.trace := by
  unfold State.trapEntry at h
  obtain ⟨_, s1, e1, h⟩ := Res.andThen_eq_ok h
  obtain ⟨_, s2, e2, h⟩ := Res.andThen_eq_ok h
  obtain ⟨_, s3, e3, h⟩ := Res.andThen_eq_ok h
  obtain ⟨_, s4, e4, h⟩ := Res.andThen_eq_ok h
  cases h
  have c1 := State.push_latches e1
  have c2 := State.push_latches e2
  have c3 := State.readVector_same e3
  have c4 := State.readVector_same e4
  exact ⟨c4.busError.trans (c3.busError.trans (c2.1.trans c1.1)),
    c4.reserved.trans (c3.reserved.trans (c2.2.1.trans c1.2.1)), c4.trace.trans (c3.trace.trans (c2.2.2.trans c1.2.2))⟩

/-- A trap entry keeps the core of the invariant. -/
theorem enter_core : Closed .iot State.Core State.Core := by
  have withPsw : ∀ s v, pswMayBecome .iot s v → State.Core s → ({s with psw := v} : State).Core := fun s v hv h =>
     ⟨h.memory, sub_bits hv.2.1 h.status, h.timer, h.floppy, h.ide⟩
  constructor
  case load => intro x w a hx; exact hx.load w a
  case store => intro x w a v _ hx; exact hx.store w a v
  case setReg => intro x q v _ hx; exact ⟨hx.memory, hx.status, hx.timer, hx.floppy, hx.ide⟩
  case psw => intro x v hv hx; exact withPsw x v hv hx
  case enter => intro x v r _ hv hx; have := withPsw x v hv hx; exact ⟨this.memory, this.status, this.timer, this.floppy, this.ide⟩
  case run => intro x r _ hx; exact ⟨hx.memory, hx.status, hx.timer, hx.floppy, hx.ide⟩
  case reset => intro x e; cases e
  case bus => intro x hx; exact ⟨hx.memory, hx.status, hx.timer, hx.floppy, hx.ide⟩
  case reserved => intro x e; cases e
  case done => exact fun _ h => h

theorem State.trapEntry_never_abandoned (s : State) (vec : Word) (t : State) : s.trapEntry vec ≠ .abandoned t := by
  unfold State.trapEntry State.push State.readVector
  intro h
  repeat' (first | split at h | (simp only [Res.andThen_ok, Res.andThen_fault] at h))
  all_goals cases h

theorem State.Core.trapEntry {s t : State} {vec : Word} (h : s.Core) (e : s.trapEntry vec = .ok () t) : t.Core := by
  have := enter_core.trapEntry (s := s) vec rfl (by simp [Instr.touched]) rfl rfl rfl rfl h
  rw [e] at this; exact this

theorem State.trapEntry_cpuTime {s t : State} {vec : Word} (h : s.trapEntry vec = .ok () t) : t.cpuTime = s.cpuTime := by
  unfold State.trapEntry at h
  obtain ⟨_, s1, e1, h⟩ := Res.andThen_eq_ok h
  obtain ⟨_, s2, e2, h⟩ := Res.andThen_eq_ok h
  obtain ⟨_, s3, e3, h⟩ := Res.andThen_eq_ok h
  obtain ⟨_, s4, e4, h⟩ := Res.andThen_eq_ok h
  cases h
  have p : ∀ {s t : State} {v}, s.push v = .ok () t → t.cpuTime = s.cpuTime := by
    intro s t v h
    have c := SameCpu.store (s.setReg .sp (s.reg .sp - 2)) .word (s.reg .sp - 2) v
    unfold State.push at h
    split at h
    · rename_i e; rw [e] at c; cases h; exact c.cpuTime
    · cases h
  have c3 := State.readVector_same e3
  have c4 := State.readVector_same e4
  exact c4.cpuTime.trans (c3.cpuTime.trans ((p e2).trans (p e1)))
end Sys2Proof.Machine
end

