-- ==== Sys2Proof/Laws/Host.lean ====
section
/-! SUPPORT. What the host's actions and the reset of the whole machine leave unchanged, and that they keep the parts of
the invariant (61_bus_timebase.md R364, 70_reset_and_hazards.md R450). -/

namespace Sys2Proof.Machine

/-! ## Loading cells -/

@[simp] theorem loadCells_nil (accepts : Nat → Bool) (m : Memory) : loadCells accepts [] m = m := rfl

@[simp] theorem loadCells_cons (accepts : Nat → Bool) (c : Host.Cell) (cs : List Host.Cell) (m : Memory) :
    loadCells accepts (c :: cs) m = loadCells accepts cs (if accepts c.1 then m.set c.1 c.2 else m) := rfl

theorem wf_loadCells (accepts : Nat → Bool) (cs : List Host.Cell) {m : Memory} (h : m.wf = true) :
    (loadCells accepts cs m).wf = true := by
  induction cs generalizing m with
  | nil => exact h
  | cons c cs ih =>
    rw [loadCells_cons]
    refine ih ?_
    split
    · exact Memory.wf_set _ _ h
    · exact h

/-- A cell that is not accepted, or not listed, keeps its byte. -/
theorem get_loadCells_of_not (accepts : Nat → Bool) (cs : List Host.Cell) (m : Memory) (q : Nat)
    (h : accepts q = false ∨ ∀ b, (q, b) ∉ cs) : (loadCells accepts cs m).get q = m.get q := by
  induction cs generalizing m with
  | nil => rfl
  | cons c cs ih =>
    rw [loadCells_cons]
    refine (ih _ (h.imp id fun h b hb => h b (List.mem_cons_of_mem _ hb))).trans ?_
    split
    · rename_i ha
      refine Memory.get_set_ne _ fun e => ?_
      subst e
      rcases h with h | h
      · rw [ha] at h; cases h
      · exact h c.2 List.mem_cons_self
    · rfl

/-- A listed cell that is accepted holds its byte, when each cell is listed once. -/
theorem get_loadCells_of_mem (accepts : Nat → Bool) (cs : List Host.Cell) {m : Memory} (hm : m.wf = true)
    (hn : (cs.map Prod.fst).Nodup) {q : Nat} {b : Byte} (hq : (q, b) ∈ cs) (ha : accepts q = true) :
    (loadCells accepts cs m).get q = b := by
  induction cs generalizing m with
  | nil => cases hq
  | cons c cs ih =>
    rw [List.map_cons, List.nodup_cons] at hn
    rw [loadCells_cons]
    rcases List.mem_cons.1 hq with e | hq
    · subst e
      refine (get_loadCells_of_not accepts cs _ q (.inr fun b' hb => hn.1 (List.mem_map.2 ⟨_, hb, rfl⟩))).trans ?_
      rw [if_pos ha]
      exact Memory.get_set_self _ _ hm
    · refine ih ?_ hn.2 hq
      split
      · exact Memory.wf_set _ _ hm
      · exact hm

/-- Dropping cells leaves the others. -/
theorem get_without_of_not (drop : Nat → Bool) (m : Memory) {q : Nat} (h : drop q = false) :
    (m.without drop).get q = m.get q := by
  induction m with
  | nil => rfl
  | cons c m ih =>
    obtain ⟨p, b⟩ := c
    unfold Memory.without
    split
    · rename_i hp
      rw [ih, Memory.get_cons, if_neg (fun e => by subst e; rw [hp] at h; cases h)]
    · rw [Memory.get_cons, Memory.get_cons, ih]

/-! ## The floppy controller -/

theorem FloppyDrive.Ok.mount {p : FloppyParams} {x : FloppyDrive} (img : List Byte) (protect : Bool) (h : x.Ok p) :
    (x.mount p img protect).Ok p := by
  have hu := h.unmount
  unfold FloppyDrive.mount
  show (if _ then _ else _ : FloppyDrive).Ok p
  split
  · rename_i hm
    have hd : (x.unmount p).dirty = false := FloppyDrive.flush_dirty ..
    have hl : lastTrackOf img < maxTracks := by
      unfold mountable at hm
      rw [Bool.and_eq_true, decide_eq_true_eq, decide_eq_true_eq] at hm
      show img.length / 10240 - 1 < 82
      have : img.length ≤ 82 * 10240 := hm.2
      omega
    exact ⟨nofun, .inr (buildTrack_length ..), fun e => absurd (hd.symm.trans e) nofun, hu.head, hl⟩
  · exact hu

theorem Floppy.Ok.setDrive {p : FloppyParams} {f : Floppy} {x : FloppyDrive} (l : DriveLetter) (h : f.Ok p) (hx : x.Ok p) :
    (f.setDrive l x).Ok p := by
  refine ⟨fun m => ?_, by simpa using h.writing⟩
  rw [Floppy.drive_setDrive]
  split
  · exact hx
  · exact h.drives m

theorem Floppy.Ok.restartClock {p : FloppyParams} {f : Floppy} (h : f.Ok p) : f.restartClock.Ok p :=
  h.of_drives (fun l => by cases l <;> rfl) h.writing

/-! ## The reset of the whole machine -/

/-- Masked bits are within the mask. -/
theorem masked_bits (v bits : Word) : (v &&& bits) &&& ~~~bits = 0 := by
  apply BitVec.eq_of_getLsbD_eq
  intro j hj
  simp only [BitVec.getLsbD_and, BitVec.getLsbD_not]
  cases bits.getLsbD j <;> simp

theorem State.hostReset_mem (s : State) : s.hostReset.mem = s.mem := State.initDevices_mem true s

theorem State.Core.hostReset {s : State} (h : s.Core) : s.hostReset.Core := by
  have k := h.initDevices true
  exact ⟨k.memory, masked_bits _ _, k.timer, k.floppy, k.ide⟩

theorem State.Core.powerOn {s : State} (d : Draw) (h : s.Core) : (s.powerOn d).Core :=
  State.Core.hostReset ⟨wf_loadCells _ _ (Memory.wfFrom_without _ h.memory), h.status, Nat.le_refl _,
    h.floppy.init.restartClock, h.ide⟩

theorem State.Core.raise {s : State} (h : s.Core) (r : Raise) : (s.raise r).Core :=
  State.Core.of_same h (SameCpu.raise s r) (by simp) (by simp) (by simp) (by simp)

end Sys2Proof.Machine
end

