-- ==== Sys2Proof/Laws/MemoryFrame.lean ====
section
/-! SUPPORT. What the operations of an instruction leave of memory: everything for a read, and everything but the cells
of the place for a write, at the address the operation computes. -/

namespace Sys2Proof.Machine

/-- The second state has the memory, the maps and the parameters of the first. -/
structure SameMem (s t : State) : Prop extends SameMap s t where
  mem : t.mem = s.mem

theorem closed_mem (s : State) (r : Reg) : Closed (.sob r 0) (SameMem s) (SameMem s) where
  load t w a ht := { toSameMap := ht.toSameMap.trans (SameMap.load t w a), mem := (State.load_mem t w a).trans ht.mem }
  store t w a v hi _ := by cases hi
  setReg t q v _ ht := ⟨⟨ht.params, ht.mapSel⟩, ht.mem⟩
  psw t v _ ht := ⟨⟨ht.params, ht.mapSel⟩, ht.mem⟩
  enter t v r _ _ ht := ⟨⟨ht.params, ht.mapSel⟩, ht.mem⟩
  run t r _ ht := ⟨⟨ht.params, ht.mapSel⟩, ht.mem⟩
  reset t e _ := by cases e
  bus t ht := ⟨⟨ht.params, ht.mapSel⟩, ht.mem⟩
  reserved _ h _ := by cases h
  done _ h := h

theorem SameMem.refl (s : State) : SameMem s s := ⟨⟨rfl, rfl⟩, rfl⟩
theorem SameMem.trans {s t u : State} (h : SameMem s t) (k : SameMem t u) : SameMem s u :=
  ⟨h.toSameMap.trans k.toSameMap, k.mem.trans h.mem⟩

theorem stepped_sob {o : Operand} : ∀ r ∈ o.stepped, r ∈ (Instr.sob o.reg 0).touched := by
  obtain ⟨m, q⟩ := o
  cases m <;> simp [Instr.touched, Operand.stepped]

theorem resolve_sameMem (s : State) (w o) : (s.resolve w o).Sat (fun _ => SameMem s) (SameMem s) (fun _ => True) := by
  have := (closed_mem s o.reg).resolve w o stepped_sob (SameMem.refl s)
  cases e : s.resolve w o <;> rw [e] at this
  · exact this.1
  · exact this
  · rename_i f; cases f; trivial
  · trivial

theorem srcRead_sameMem (s : State) (w o) : (s.srcRead w o).Sat (fun _ => SameMem s) (SameMem s) (SameMem s) :=
  (closed_mem s o.reg).srcRead w o stepped_sob (SameMem.refl s)

theorem readLoc_sameMem (s : State) (w l) : (s.readLoc w l).Sat (fun _ => SameMem s) (SameMem s) (SameMem s) :=
  (closed_mem s .r0).readLoc w l (SameMem.refl s)

theorem doPost_sameMem (s : State) (p : Place) : SameMem s (s.doPost p) := by
  unfold State.doPost; split <;> exact ⟨⟨rfl,rfl⟩,rfl⟩

/-- The cell reads as in `s`. -/
def Away (s : State) (c : Nat) (t : State) : Prop := t.mem.get c = s.mem.get c

theorem writeLoc_away {s u : State} {w} {p : Place} {v : Word} {c : Nat} (hu : SameMem s u)
   (h : c ∉ s.placeCells w p) : (u.writeLoc w p.loc v).Sat (fun _ => Away s c) (Away s c) (Away s c) := by
  unfold State.writeLoc
  obtain ⟨loc, post⟩ := p
  cases loc with
  | reg r => cases w <;> exact congrArg (Memory.get · c) hu.mem
  | mem a =>
    have h' : c ∉ u.storeCells w a := by rw [hu.toSameMap.storeCells]; exact h
    have hf := State.store_frame u w a v c h'
    unfold State.write
    rw [hu.mem] at hf
    cases e : u.store w a v with
    | mk b t => rw [e] at hf; simp only [e]; cases b <;> exact hf

theorem dstWrite_away {s u : State} {w} {p : Place} {v : Word} {c : Nat} (hu : SameMem s u)
   (h : c ∉ s.placeCells w p) : (u.dstWrite w p v).Sat (fun _ => Away s c) (Away s c) (Away s c) :=
  (writeLoc_away hu h).andThen fun _ t ht => by
    show Away s c (t.doPost p)
    unfold Away; rw [(doPost_sameMem t p).mem]; exact ht

theorem Away.of_sameMem {s t : State} {c} (h : SameMem s t) : Away s c t := congrArg (Memory.get · c) h.mem

/-- The cells of a place depend only on the maps and the parameters. -/
theorem SameMap.placeCells {s t : State} (h : SameMap s t) (w p) : t.placeCells w p = s.placeCells w p := by
  unfold State.placeCells; split
  · exact h.storeCells ..
  · rfl

/-- Going on, with the result known. -/
theorem Res.Sat.andThen' {α β : Type} {P' : β → State → Prop} {P : α → State → Prop} {Q R : State → Prop} {x : Res α}
    {f : α → State → Res β} (hx : x.Sat P Q R) (hf : ∀ v s, x = .ok v s → P v s → (f v s).Sat P' Q R) :
    (x.andThen f).Sat P' Q R := by
  cases x with
  | ok v s => exact hf v s rfl hx
  | abandoned s => exact hx
  | fault e => exact hx
  | refused r => trivial

theorem Res.Sat.weaken {α : Type} {P P' : α → State → Prop} {Q Q' R R' : State → Prop} {x : Res α} (hx : x.Sat P Q R)
    (h : ∀ v s, P v s → P' v s) (hq : ∀ s, Q s → Q' s) (hr : ∀ s, R s → R' s) : x.Sat P' Q' R' := by
  cases x with
  | ok v s => exact h v s hx
  | abandoned s => exact hq s hx
  | fault e => cases e; exact hr _ hx
  | refused r => trivial

section
variable {s : State} {c : Nat}

theorem resolve_no_fault (s : State) (w o) : (s.resolve w o).Sat (fun _ => SameMem s) (SameMem s) (SameMem s) :=
  ((closed_mem s o.reg).resolve w o stepped_sob (SameMem.refl s)).mono fun _ _ h => h.1

theorem dstStore_away {u : State} (w : Width) (dst : Operand) (v : Word) (hu : SameMem s u)
   (h : c ∉ u.operandCells w dst) : (u.dstStore w dst v).Sat (fun _ => Away s c) (Away s c) (Away s c) := by
  refine Res.Sat.andThen' ((resolve_no_fault u w dst).weaken (fun _ _ k => hu.trans k) (fun _ k => Away.of_sameMem (hu.trans k)) (fun _ k => Away.of_sameMem (hu.trans k))) ?_
  intro p t e ht
  unfold State.operandCells at h; rw [e] at h
  have ht' : SameMem t t := SameMem.refl t
  refine (dstWrite_away (s := t) ht' h).weaken ?_ ?_ ?_ <;> intros <;> simp_all [Away, ht.mem]

theorem dstRead_then {u : State} (w : Width) (dst : Operand) (hu : SameMem s u)
   (h : c ∉ u.operandCells w dst) {f : Place × Word → State → Res Unit}
   (hf : ∀ pd t, SameMem s t → c ∉ t.placeCells w pd.1 → (f pd t).Sat (fun _ => Away s c) (Away s c) (Away s c)) :
   ((u.dstRead w dst).andThen f).Sat (fun _ => Away s c) (Away s c) (Away s c) := by
  have key : (u.dstRead w dst).Sat (fun pd t => SameMem s t ∧ c ∉ t.placeCells w pd.1) (Away s c) (Away s c) := by
    refine Res.Sat.andThen' ((resolve_no_fault u w dst).weaken (fun _ _ k => hu.trans k) (fun _ k => Away.of_sameMem (hu.trans k)) (fun _ k => Away.of_sameMem (hu.trans k))) ?_
    intro p t e ht
    unfold State.operandCells at h; rw [e] at h
    refine ((readLoc_sameMem t w p.loc).weaken (fun _ _ k => k) (fun _ k => Away.of_sameMem (ht.trans k)) (fun _ k => Away.of_sameMem (ht.trans k))).andThen ?_
    intro v x hx
    exact ⟨ht.trans hx, by rw [hx.toSameMap.placeCells]; exact h⟩
  exact key.andThen fun pd t ht => hf pd t ht.1 ht.2

theorem setAlu_away {t : State} {r} (h : Away s c t) : Away s c (t.setAlu r) := h

theorem single_away (w : Width) (dst : Operand) (f) (h : c ∉ s.operandCells w dst) :
   (singleOp w dst f s).Sat (fun _ => Away s c) (Away s c) (Away s c) := by
  refine guardBytes_sat _ _ ?_
  refine dstRead_then w dst (SameMem.refl s) h ?_
  intro pd t ht hc
  refine Res.Sat.andThen (P := fun _ => Away s c) ?_ (fun _ x hx => setAlu_away hx)
  exact (dstWrite_away (SameMem.refl t) hc).weaken (fun _ _ k => by simp_all [Away, ht.mem]) (fun _ k => by simp_all [Away, ht.mem]) (fun _ k => by simp_all [Away, ht.mem])

theorem double_away (w : Width) (src dst : Operand) (f) (h : ∀ v t, s.srcRead w src = .ok v t → c ∉ t.operandCells w dst) :
   (doubleOp w src dst f s).Sat (fun _ => Away s c) (Away s c) (Away s c) := by
  refine guardBytes_sat _ _ ?_
  refine Res.Sat.andThen' ((srcRead_sameMem s w src).weaken (fun _ _ k => k) (fun _ k => Away.of_sameMem k) (fun _ k => Away.of_sameMem k)) ?_
  intro v u e hu
  refine dstRead_then w dst hu (h v u e) ?_
  intro pd t ht hc
  refine Res.Sat.andThen (P := fun _ => Away s c) ?_ (fun _ x hx => setAlu_away hx)
  exact (dstWrite_away (SameMem.refl t) hc).weaken (fun _ _ k => by simp_all [Away, ht.mem]) (fun _ k => by simp_all [Away, ht.mem]) (fun _ k => by simp_all [Away, ht.mem])

theorem store_away (w : Width) (dst : Operand) (r) (h : c ∉ s.operandCells w dst) :
   (storeOp w dst r s).Sat (fun _ => Away s c) (Away s c) (Away s c) :=
  guardBytes_sat _ _ ((dstStore_away w dst _ (SameMem.refl s) h).andThen fun _ _ hx => setAlu_away hx)

theorem nostore_away (i : Instr) (hi : i.stores = false) : outcomeSat (Away s c) (exec i s) := by
  refine exec_closed i (P := Away s c) (Q := Away s c) ?_ rfl
  constructor
  case load => intro x w a hx; unfold Away; rw [State.load_mem]; exact hx
  case store => intro x w a v h; rw [hi] at h; cases h
  case reset => intro x _ hx; unfold Away; rw [show (x.initDevices false).clearIrqs.mem = (x.initDevices false).mem from rfl, State.initDevices_mem]; exact hx
  all_goals intros; assumption

theorem push_away {u : State} (v : Word) (hu : Away s c u) (h : c ∉ u.pushCells) :
   (u.push v).Sat (fun _ => Away s c) (Away s c) (Away s c) := by
  have h' : c ∉ (u.setReg .sp (u.reg .sp - 2)).storeCells .word (u.reg .sp - 2) := h
  have hf := State.store_frame _ .word (u.reg .sp - 2) v c h'
  unfold State.push
  split
  · rename_i e; rw [e] at hf; exact hf.trans hu
  · rename_i e; rw [e] at hf; exact hf.trans hu

theorem readVector_away {u : State} (a : Word) (hu : Away s c u) :
   (u.readVector a).Sat (fun _ => Away s c) (Away s c) (Away s c) := by
  have hf := State.load_mem u .word a
  unfold State.readVector
  split
  · rename_i e; rw [e] at hf; exact (congrArg (Memory.get · c) hf).trans hu
  · rename_i e; rw [e] at hf; exact (congrArg (Memory.get · c) hf).trans hu

theorem trap_away (vec : Word) (h : c ∉ s.trapCells) : (s.trapEntry vec).Sat (fun _ => Away s c) (Away s c) (Away s c) := by
  unfold State.trapCells at h
  rw [List.mem_append, not_or] at h
  refine Res.Sat.andThen' (push_away s.psw rfl h.1) ?_
  intro _ s1 e h1
  have h2 : c ∉ s1.pushCells := by have := h.2; rw [e] at this; exact this
  refine (push_away _ h1 h2).andThen fun _ s2 h3 => ?_
  refine (readVector_away _ h3).andThen fun _ s3 h4 => ?_
  refine (readVector_away _ h4).andThen fun _ s4 h5 => ?_
  exact h5

end

theorem byteStore_away {s u : State} {c : Nat} (dst : Operand) (v : Word) (hu : SameMem s u) (h : c ∉ u.operandCells .byte dst) :
  (u.storeByteExtended dst v).Sat (fun _ => Away s c) (Away s c) (Away s c) := by
  unfold State.storeByteExtended
  split
  · exact Away.of_sameMem (s := s) (t := u) hu
  · exact dstStore_away _ _ _ hu h

end Sys2Proof.Machine
end

