-- ==== Sys2Proof/Laws/PerInstr.lean ====
section
/-! SUPPORT. Claims about every instruction as syntax, one lemma per constructor. -/

namespace Sys2Proof

theorem Reg.code_lt (r : Reg) : r.code < 8 := by cases r <;> decide

theorem Operand.code_lt (o : Operand) : o.code < 64 := by
  obtain ⟨m, r⟩ := o
  cases m <;> cases r <;> decide

theorem Operand.extensionWords_le (o : Operand) : o.extensionWords ≤ 1 := by
  unfold Operand.extensionWords
  split <;> (try split) <;> decide

end Sys2Proof

namespace Sys2Proof.Laws.Encoding

/-- R100, R101, R110: an instruction word has 16 bits, an instruction is 2, 4 or 6 bytes long, and the operands of a
byte form are its operand fields. -/
def Statement (i : Instr) : Prop :=
  encodeNat i < 65536 ∧ (i.lengthBytes = 2 ∨ i.lengthBytes = 4 ∨ i.lengthBytes = 6) ∧
    ∀ o ∈ i.byteOperands, o ∈ i.operands

/-- The length of an instruction without operand fields. -/
theorem length_none {i : Instr} (h : i.operands = []) : i.lengthBytes = 2 ∨ i.lengthBytes = 4 ∨ i.lengthBytes = 6 := by
  simp [Instr.lengthBytes, h]

/-- The length of an instruction with one operand field. -/
theorem length_one {i : Instr} {d : Operand} (h : i.operands = [d]) :
    i.lengthBytes = 2 ∨ i.lengthBytes = 4 ∨ i.lengthBytes = 6 := by
  have := d.extensionWords_le
  simp only [Instr.lengthBytes, h, List.map_cons, List.map_nil, List.sum_cons, List.sum_nil]
  omega

/-- The length of an instruction with two operand fields. -/
theorem length_two {i : Instr} {s d : Operand} (h : i.operands = [s, d]) :
    i.lengthBytes = 2 ∨ i.lengthBytes = 4 ∨ i.lengthBytes = 6 := by
  have := s.extensionWords_le
  have := d.extensionWords_le
  simp only [Instr.lengthBytes, h, List.map_cons, List.map_nil, List.sum_cons, List.sum_nil]
  omega

theorem halt : Statement .halt := by
  exact ⟨by decide, length_none rfl, nofun⟩

theorem wait : Statement .wait := by
  exact ⟨by decide, length_none rfl, nofun⟩

theorem rti : Statement .rti := by
  exact ⟨by decide, length_none rfl, nofun⟩

theorem bpt : Statement .bpt := by
  exact ⟨by decide, length_none rfl, nofun⟩

theorem iot : Statement .iot := by
  exact ⟨by decide, length_none rfl, nofun⟩

theorem reset : Statement .reset := by
  exact ⟨by decide, length_none rfl, nofun⟩

theorem rtt : Statement .rtt := by
  exact ⟨by decide, length_none rfl, nofun⟩

theorem jmp (dst : Operand) : Statement (.jmp dst) := by
  have := dst.code_lt
  refine ⟨?_, length_one rfl, nofun⟩
  simp only [encodeNat, encodeSingle]
  omega

theorem rts (r : Reg) : Statement (.rts r) := by
  have := r.code_lt
  refine ⟨?_, length_none rfl, nofun⟩
  simp only [encodeNat]
  omega

theorem ccop (set : Bool) (m : BitVec 4) : Statement (.ccop set m) := by
  have := m.isLt
  refine ⟨?_, length_none rfl, nofun⟩
  simp only [encodeNat]
  split <;> omega

theorem swab (dst : Operand) : Statement (.swab dst) := by
  have := dst.code_lt
  refine ⟨?_, length_one rfl, nofun⟩
  simp only [encodeNat, encodeSingle]
  omega

theorem br (off : Byte) : Statement (.br off) := by
  have := off.isLt
  refine ⟨?_, length_none rfl, nofun⟩
  simp only [encodeNat]
  omega

theorem bne (off : Byte) : Statement (.bne off) := by
  have := off.isLt
  refine ⟨?_, length_none rfl, nofun⟩
  simp only [encodeNat]
  omega

theorem beq (off : Byte) : Statement (.beq off) := by
  have := off.isLt
  refine ⟨?_, length_none rfl, nofun⟩
  simp only [encodeNat]
  omega

theorem bge (off : Byte) : Statement (.bge off) := by
  have := off.isLt
  refine ⟨?_, length_none rfl, nofun⟩
  simp only [encodeNat]
  omega

theorem blt (off : Byte) : Statement (.blt off) := by
  have := off.isLt
  refine ⟨?_, length_none rfl, nofun⟩
  simp only [encodeNat]
  omega

theorem bgt (off : Byte) : Statement (.bgt off) := by
  have := off.isLt
  refine ⟨?_, length_none rfl, nofun⟩
  simp only [encodeNat]
  omega

theorem ble (off : Byte) : Statement (.ble off) := by
  have := off.isLt
  refine ⟨?_, length_none rfl, nofun⟩
  simp only [encodeNat]
  omega

theorem jsr (r : Reg) (dst : Operand) : Statement (.jsr r dst) := by
  have := r.code_lt
  have := dst.code_lt
  refine ⟨?_, length_one rfl, nofun⟩
  simp only [encodeNat]
  omega

theorem clr (dst : Operand) : Statement (.clr dst) := by
  have := dst.code_lt
  refine ⟨?_, length_one rfl, nofun⟩
  simp only [encodeNat, encodeSingle]
  omega

theorem com (dst : Operand) : Statement (.com dst) := by
  have := dst.code_lt
  refine ⟨?_, length_one rfl, nofun⟩
  simp only [encodeNat, encodeSingle]
  omega

theorem inc (dst : Operand) : Statement (.inc dst) := by
  have := dst.code_lt
  refine ⟨?_, length_one rfl, nofun⟩
  simp only [encodeNat, encodeSingle]
  omega

theorem dec (dst : Operand) : Statement (.dec dst) := by
  have := dst.code_lt
  refine ⟨?_, length_one rfl, nofun⟩
  simp only [encodeNat, encodeSingle]
  omega

theorem neg (dst : Operand) : Statement (.neg dst) := by
  have := dst.code_lt
  refine ⟨?_, length_one rfl, nofun⟩
  simp only [encodeNat, encodeSingle]
  omega

theorem adc (dst : Operand) : Statement (.adc dst) := by
  have := dst.code_lt
  refine ⟨?_, length_one rfl, nofun⟩
  simp only [encodeNat, encodeSingle]
  omega

theorem sbc (dst : Operand) : Statement (.sbc dst) := by
  have := dst.code_lt
  refine ⟨?_, length_one rfl, nofun⟩
  simp only [encodeNat, encodeSingle]
  omega

theorem tst (dst : Operand) : Statement (.tst dst) := by
  have := dst.code_lt
  refine ⟨?_, length_one rfl, nofun⟩
  simp only [encodeNat, encodeSingle]
  omega

theorem ror (dst : Operand) : Statement (.ror dst) := by
  have := dst.code_lt
  refine ⟨?_, length_one rfl, nofun⟩
  simp only [encodeNat, encodeSingle]
  omega

theorem rol (dst : Operand) : Statement (.rol dst) := by
  have := dst.code_lt
  refine ⟨?_, length_one rfl, nofun⟩
  simp only [encodeNat, encodeSingle]
  omega

theorem asr (dst : Operand) : Statement (.asr dst) := by
  have := dst.code_lt
  refine ⟨?_, length_one rfl, nofun⟩
  simp only [encodeNat, encodeSingle]
  omega

theorem asl (dst : Operand) : Statement (.asl dst) := by
  have := dst.code_lt
  refine ⟨?_, length_one rfl, nofun⟩
  simp only [encodeNat, encodeSingle]
  omega

theorem mark (nn : BitVec 6) : Statement (.mark nn) := by
  have := nn.isLt
  refine ⟨?_, length_none rfl, nofun⟩
  simp only [encodeNat]
  omega

theorem sxt (dst : Operand) : Statement (.sxt dst) := by
  have := dst.code_lt
  refine ⟨?_, length_one rfl, nofun⟩
  simp only [encodeNat, encodeSingle]
  omega

theorem mov (src dst : Operand) : Statement (.mov src dst) := by
  have := src.code_lt
  have := dst.code_lt
  refine ⟨?_, length_two rfl, nofun⟩
  simp only [encodeNat, encodeDouble]
  omega

theorem cmp (src dst : Operand) : Statement (.cmp src dst) := by
  have := src.code_lt
  have := dst.code_lt
  refine ⟨?_, length_two rfl, nofun⟩
  simp only [encodeNat, encodeDouble]
  omega

theorem bit (src dst : Operand) : Statement (.bit src dst) := by
  have := src.code_lt
  have := dst.code_lt
  refine ⟨?_, length_two rfl, nofun⟩
  simp only [encodeNat, encodeDouble]
  omega

theorem bic (src dst : Operand) : Statement (.bic src dst) := by
  have := src.code_lt
  have := dst.code_lt
  refine ⟨?_, length_two rfl, nofun⟩
  simp only [encodeNat, encodeDouble]
  omega

theorem bis (src dst : Operand) : Statement (.bis src dst) := by
  have := src.code_lt
  have := dst.code_lt
  refine ⟨?_, length_two rfl, nofun⟩
  simp only [encodeNat, encodeDouble]
  omega

theorem add (src dst : Operand) : Statement (.add src dst) := by
  have := src.code_lt
  have := dst.code_lt
  refine ⟨?_, length_two rfl, nofun⟩
  simp only [encodeNat, encodeDouble]
  omega

theorem xor (r : Reg) (dst : Operand) : Statement (.xor r dst) := by
  have := r.code_lt
  have := dst.code_lt
  refine ⟨?_, length_one rfl, nofun⟩
  simp only [encodeNat]
  omega

theorem sob (r : Reg) (off : BitVec 6) : Statement (.sob r off) := by
  have := r.code_lt
  have := off.isLt
  refine ⟨?_, length_none rfl, nofun⟩
  simp only [encodeNat]
  omega

theorem bpl (off : Byte) : Statement (.bpl off) := by
  have := off.isLt
  refine ⟨?_, length_none rfl, nofun⟩
  simp only [encodeNat]
  omega

theorem bmi (off : Byte) : Statement (.bmi off) := by
  have := off.isLt
  refine ⟨?_, length_none rfl, nofun⟩
  simp only [encodeNat]
  omega

theorem bhi (off : Byte) : Statement (.bhi off) := by
  have := off.isLt
  refine ⟨?_, length_none rfl, nofun⟩
  simp only [encodeNat]
  omega

theorem blos (off : Byte) : Statement (.blos off) := by
  have := off.isLt
  refine ⟨?_, length_none rfl, nofun⟩
  simp only [encodeNat]
  omega

theorem bvc (off : Byte) : Statement (.bvc off) := by
  have := off.isLt
  refine ⟨?_, length_none rfl, nofun⟩
  simp only [encodeNat]
  omega

theorem bvs (off : Byte) : Statement (.bvs off) := by
  have := off.isLt
  refine ⟨?_, length_none rfl, nofun⟩
  simp only [encodeNat]
  omega

theorem bcc (off : Byte) : Statement (.bcc off) := by
  have := off.isLt
  refine ⟨?_, length_none rfl, nofun⟩
  simp only [encodeNat]
  omega

theorem bcs (off : Byte) : Statement (.bcs off) := by
  have := off.isLt
  refine ⟨?_, length_none rfl, nofun⟩
  simp only [encodeNat]
  omega

theorem emt (num : Byte) : Statement (.emt num) := by
  have := num.isLt
  refine ⟨?_, length_none rfl, nofun⟩
  simp only [encodeNat]
  omega

theorem trap (num : Byte) : Statement (.trap num) := by
  have := num.isLt
  refine ⟨?_, length_none rfl, nofun⟩
  simp only [encodeNat]
  omega

theorem clrb (dst : Operand) : Statement (.clrb dst) := by
  have := dst.code_lt
  refine ⟨?_, length_one rfl, fun _ h => h⟩
  simp only [encodeNat, encodeSingle]
  omega

theorem comb (dst : Operand) : Statement (.comb dst) := by
  have := dst.code_lt
  refine ⟨?_, length_one rfl, fun _ h => h⟩
  simp only [encodeNat, encodeSingle]
  omega

theorem incb (dst : Operand) : Statement (.incb dst) := by
  have := dst.code_lt
  refine ⟨?_, length_one rfl, fun _ h => h⟩
  simp only [encodeNat, encodeSingle]
  omega

theorem decb (dst : Operand) : Statement (.decb dst) := by
  have := dst.code_lt
  refine ⟨?_, length_one rfl, fun _ h => h⟩
  simp only [encodeNat, encodeSingle]
  omega

theorem negb (dst : Operand) : Statement (.negb dst) := by
  have := dst.code_lt
  refine ⟨?_, length_one rfl, fun _ h => h⟩
  simp only [encodeNat, encodeSingle]
  omega

theorem adcb (dst : Operand) : Statement (.adcb dst) := by
  have := dst.code_lt
  refine ⟨?_, length_one rfl, fun _ h => h⟩
  simp only [encodeNat, encodeSingle]
  omega

theorem sbcb (dst : Operand) : Statement (.sbcb dst) := by
  have := dst.code_lt
  refine ⟨?_, length_one rfl, fun _ h => h⟩
  simp only [encodeNat, encodeSingle]
  omega

theorem tstb (dst : Operand) : Statement (.tstb dst) := by
  have := dst.code_lt
  refine ⟨?_, length_one rfl, fun _ h => h⟩
  simp only [encodeNat, encodeSingle]
  omega

theorem rorb (dst : Operand) : Statement (.rorb dst) := by
  have := dst.code_lt
  refine ⟨?_, length_one rfl, fun _ h => h⟩
  simp only [encodeNat, encodeSingle]
  omega

theorem rolb (dst : Operand) : Statement (.rolb dst) := by
  have := dst.code_lt
  refine ⟨?_, length_one rfl, fun _ h => h⟩
  simp only [encodeNat, encodeSingle]
  omega

theorem asrb (dst : Operand) : Statement (.asrb dst) := by
  have := dst.code_lt
  refine ⟨?_, length_one rfl, fun _ h => h⟩
  simp only [encodeNat, encodeSingle]
  omega

theorem aslb (dst : Operand) : Statement (.aslb dst) := by
  have := dst.code_lt
  refine ⟨?_, length_one rfl, fun _ h => h⟩
  simp only [encodeNat, encodeSingle]
  omega

theorem mtps (src : Operand) : Statement (.mtps src) := by
  have := src.code_lt
  refine ⟨?_, length_one rfl, fun _ h => h⟩
  simp only [encodeNat, encodeSingle]
  omega

theorem mfps (dst : Operand) : Statement (.mfps dst) := by
  have := dst.code_lt
  refine ⟨?_, length_one rfl, fun _ h => h⟩
  simp only [encodeNat, encodeSingle]
  omega

theorem movb (src dst : Operand) : Statement (.movb src dst) := by
  have := src.code_lt
  have := dst.code_lt
  refine ⟨?_, length_two rfl, fun _ h => h⟩
  simp only [encodeNat, encodeDouble]
  omega

theorem cmpb (src dst : Operand) : Statement (.cmpb src dst) := by
  have := src.code_lt
  have := dst.code_lt
  refine ⟨?_, length_two rfl, fun _ h => h⟩
  simp only [encodeNat, encodeDouble]
  omega

theorem bitb (src dst : Operand) : Statement (.bitb src dst) := by
  have := src.code_lt
  have := dst.code_lt
  refine ⟨?_, length_two rfl, fun _ h => h⟩
  simp only [encodeNat, encodeDouble]
  omega

theorem bicb (src dst : Operand) : Statement (.bicb src dst) := by
  have := src.code_lt
  have := dst.code_lt
  refine ⟨?_, length_two rfl, fun _ h => h⟩
  simp only [encodeNat, encodeDouble]
  omega

theorem bisb (src dst : Operand) : Statement (.bisb src dst) := by
  have := src.code_lt
  have := dst.code_lt
  refine ⟨?_, length_two rfl, fun _ h => h⟩
  simp only [encodeNat, encodeDouble]
  omega

theorem sub (src dst : Operand) : Statement (.sub src dst) := by
  have := src.code_lt
  have := dst.code_lt
  refine ⟨?_, length_two rfl, nofun⟩
  simp only [encodeNat, encodeDouble]
  omega

theorem reserved (w : Word) : Statement (.reserved w) := by
  have := w.isLt
  refine ⟨?_, length_none rfl, nofun⟩
  simp only [encodeNat]
  omega

end Sys2Proof.Laws.Encoding
end

