-- ==== Sys2Proof/Tests/Slice0.lean ====
section
/-! SUPPORT. Tests: the decoder on words written out from 30_encoding.md, one step of an instruction on the vectors of
95_test_vectors.md (a name ending in t5 is its vector T5), its exception, memory, floppy and IDE vectors, and for
every obligation with hypotheses a state that meets them (names ending in `_witness`). Expected values are the
spec's. -/

namespace Sys2Proof.Tests

open Sys2Proof Sys2Proof.Machine

/-! ## Small states -/

/-- The platform of the vectors: RAM from 0 to 0o157777, no device (95_test_vectors.md, Conventions). -/
def ramParams : Params := { defaultParams with maps := [[⟨.ram, 0, 0o160000, 0⟩]], devices := [] }

/-- Words put into memory. -/
def place (s : State) (ms : List (Word × Word)) : State := ms.foldl (fun s x => s.placeWord x.1 x.2) s

/-- The start state of a vector: PSW, the words from 0o1000 on, registers and memory that differ from the default. -/
def start (psw : Word) (ws : List Word) (rs : List (Reg × Word)) (ms : List (Word × Word)) : State :=
  let s : State := { State.reset with psw := psw, params := ramParams, devLog := [] }
  let s := place s (List.zip [0o1000, 0o1002, 0o1004, 0o1006] ws)
  place (rs.foldl (fun s x => s.setReg x.1 x.2) (s.setReg .pc 0o1000)) ms

/-- The state has this PSW, these registers and these words in memory. -/
def shows (t : State) (psw : Word) (rs : List (Reg × Word)) (ms : List (Word × Word)) : Bool :=
  decide (t.psw = psw) && rs.all (fun x => decide (t.reg x.1 = x.2)) &&
    ms.all fun x => decide ((t.load .word x.1).1 = some x.2)

/-- A step goes on to a state that a check accepts. -/
def after (s : State) (check : State → Bool) : Bool :=
  match step s with
  | .next t => check t
  | _ => false

/-- A step ends with this PSW, these registers and these words in memory. -/
def endsIn (s : State) (psw : Word) (rs : List (Reg × Word)) (ms : List (Word × Word)) : Bool :=
  after s fun t => shows t psw rs ms

/-- No latch set. -/
def noRequests : Requests :=
  { busError := false, reserved := false, trace := false, irq1 := false, irq2 := false, virq := none }

/-! ## Well-formed terms (30_encoding.md R112, 10_state.md R24) -/

theorem test_wf_reserved_refuses_instruction_words :
    [0o000000, 0o000006, 0o000100, 0o000207, 0o000240, 0o006477, 0o006700, 0o067777, 0o074000, 0o074777, 0o077000,
      0o106477, 0o106700, 0o167777].all (fun w : Nat => !(Instr.reserved (BitVec.ofNat 16 w)).wf) = true := by decide

theorem test_wf_reserved_ranges_ends :
    [0o000007, 0o000077, 0o000210, 0o000237, 0o006500, 0o006677, 0o007000, 0o007777, 0o070000, 0o073777, 0o075000,
      0o076777, 0o106500, 0o106677, 0o107000, 0o107777, 0o170000, 0o177777].all
      (fun w : Nat => (Instr.reserved (BitVec.ofNat 16 w)).wf) = true := by decide

theorem test_byte_form_on_sp_has_no_meaning :
    (Instr.clrb ⟨.register, .sp⟩).hasMeaning = false ∧ (Instr.movb ⟨.register, .pc⟩ ⟨.register, .r0⟩).hasMeaning = false ∧
      (Instr.cmpb ⟨.register, .r0⟩ ⟨.register, .sp⟩).hasMeaning = false ∧ (Instr.mfps ⟨.register, .pc⟩).hasMeaning = false ∧
      (Instr.clrb ⟨.autoInc, .sp⟩).hasMeaning = true ∧ (Instr.movb ⟨.autoInc, .pc⟩ ⟨.register, .r0⟩).hasMeaning = true := by
  decide

/-- Vector T77. -/
theorem test_clrb_sp_is_refused : step (start 0 [0o105006] [] []) = .refused .byteRegisterSpPc := by rfl

/-- The platform of the vectors with UNNAMED_OPCODES = refuse. -/
def refusing (s : State) : State := { s with params := { s.params with unnamedOpcodes := .refuse } }

/-- R106, R270: ADC is refused and INC runs; CMPB is no unnamed class. -/
theorem test_unnamed_opcodes_refused :
    step (refusing (start 0 [0o005501] [] [])) = .refused .unnamedOpcode ∧
      endsIn (refusing (start 0 [0o005201] [] [])) 0 [(.r1, 1)] [] = true ∧ (Instr.cmpb ⟨.register, .r0⟩ ⟨.register, .r1⟩).isUnnamed = false :=
  ⟨by rfl, by decide, rfl⟩

/-! ## Words and the instructions they stand for (30_encoding.md R105) -/

/-- The decoder reads this instruction from this word. -/
def reads (l : List (Word × Instr)) : Bool := l.all fun x => decide (decode x.1 = x.2)

theorem test_decode_system :
    reads [(0o000000, .halt), (0o000001, .wait), (0o000002, .rti), (0o000003, .bpt), (0o000004, .iot),
      (0o000005, .reset), (0o000006, .rtt), (0o000007, .reserved 0o000007)] = true := by decide

theorem test_decode_jumps :
    reads [(0o000113, .jmp ⟨.deferred, .r3⟩), (0o000205, .rts .r5), (0o004676, .jsr .sp ⟨.indexDef, .sp⟩),
      (0o006412, .mark 0o12), (0o077412, .sob .r4 0o12)] = true := by decide

theorem test_decode_condition_codes :
    reads [(0o000240, .ccop false 0), (0o000257, .ccop false 0o17), (0o000260, .ccop true 0), (0o000261, .ccop true 1)]
      = true := by decide

theorem test_decode_branches_plus :
    reads [(0o000400, .br 0), (0o001377, .bne 0xff), (0o001401, .beq 1), (0o002200, .bge 0x80), (0o002577, .blt 0x7f),
      (0o003002, .bgt 2), (0o003403, .ble 3)] = true := by decide

theorem test_decode_branches_minus :
    reads [(0o100004, .bpl 4), (0o100777, .bmi 0xff), (0o101005, .bhi 5), (0o101406, .blos 6), (0o102007, .bvc 7),
      (0o102410, .bvs 8), (0o103011, .bcc 9), (0o103412, .bcs 10), (0o104000, .emt 0), (0o104777, .trap 0xff)]
      = true := by decide

theorem test_decode_single_word :
    reads [(0o000301, .swab ⟨.register, .r1⟩), (0o005012, .clr ⟨.deferred, .r2⟩), (0o005123, .com ⟨.autoInc, .r3⟩),
      (0o005234, .inc ⟨.autoIncDef, .r4⟩), (0o005345, .dec ⟨.autoDec, .r5⟩), (0o005456, .neg ⟨.autoDecDef, .sp⟩),
      (0o005567, .adc ⟨.index, .pc⟩), (0o005670, .sbc ⟨.indexDef, .r0⟩), (0o005701, .tst ⟨.register, .r1⟩),
      (0o006012, .ror ⟨.deferred, .r2⟩), (0o006123, .rol ⟨.autoInc, .r3⟩), (0o006234, .asr ⟨.autoIncDef, .r4⟩),
      (0o006345, .asl ⟨.autoDec, .r5⟩), (0o006756, .sxt ⟨.autoDecDef, .sp⟩)] = true := by decide

theorem test_decode_single_byte :
    reads [(0o105012, .clrb ⟨.deferred, .r2⟩), (0o105123, .comb ⟨.autoInc, .r3⟩),
      (0o105234, .incb ⟨.autoIncDef, .r4⟩), (0o105345, .decb ⟨.autoDec, .r5⟩), (0o105456, .negb ⟨.autoDecDef, .sp⟩),
      (0o105567, .adcb ⟨.index, .pc⟩), (0o105670, .sbcb ⟨.indexDef, .r0⟩), (0o105701, .tstb ⟨.register, .r1⟩),
      (0o106012, .rorb ⟨.deferred, .r2⟩), (0o106123, .rolb ⟨.autoInc, .r3⟩), (0o106234, .asrb ⟨.autoIncDef, .r4⟩),
      (0o106345, .aslb ⟨.autoDec, .r5⟩), (0o106456, .mtps ⟨.autoDecDef, .sp⟩), (0o106767, .mfps ⟨.index, .pc⟩)]
      = true := by decide

theorem test_decode_double :
    reads [(0o012345, .mov ⟨.autoInc, .r3⟩ ⟨.autoDec, .r5⟩), (0o020167, .cmp ⟨.register, .r1⟩ ⟨.index, .pc⟩),
      (0o037201, .bit ⟨.indexDef, .r2⟩ ⟨.register, .r1⟩), (0o041526, .bic ⟨.deferred, .r5⟩ ⟨.autoInc, .sp⟩),
      (0o053412, .bis ⟨.autoIncDef, .r4⟩ ⟨.deferred, .r2⟩), (0o065433, .add ⟨.autoDecDef, .r4⟩ ⟨.autoIncDef, .r3⟩),
      (0o112345, .movb ⟨.autoInc, .r3⟩ ⟨.autoDec, .r5⟩), (0o120167, .cmpb ⟨.register, .r1⟩ ⟨.index, .pc⟩),
      (0o137201, .bitb ⟨.indexDef, .r2⟩ ⟨.register, .r1⟩), (0o141526, .bicb ⟨.deferred, .r5⟩ ⟨.autoInc, .sp⟩),
      (0o153412, .bisb ⟨.autoIncDef, .r4⟩ ⟨.deferred, .r2⟩), (0o165433, .sub ⟨.autoDecDef, .r4⟩ ⟨.autoIncDef, .r3⟩),
      (0o074523, .xor .r5 ⟨.autoInc, .r3⟩)] = true := by decide

/-- The operand fields of CMPB, bit by bit (R101, R102): source mode 5 register 5, destination mode 4 register 4; and
the same word with another source field. -/
theorem test_decode_operand_fields :
    decode 0b1010101101100100#16 = .cmpb ⟨.autoDecDef, .r5⟩ ⟨.autoDec, .r4⟩ ∧
      decode 0b1010110011101100#16 = .cmpb ⟨.index, .r3⟩ ⟨.autoDecDef, .r4⟩ := by decide

/-- No word belongs to two rows of the table: any two patterns differ in a bit that both masks fix. -/
theorem test_opcode_rows_disjoint :
    (opcodeTable.all fun a => opcodeTable.all fun b =>
      decide (a = b) || decide (a.pattern &&& b.mask ≠ b.pattern &&& a.mask)) = true := by decide

/-- Decoding from bytes takes the low byte first and leaves the rest. -/
theorem test_decode_table_word :
    decodeTableWord 16 0o012701 = some (.mov ⟨.autoInc, .pc⟩ ⟨.register, .r1⟩) ∧
      decodeTableWord 16 0o177777 = some (.reserved 0o177777) := by decide

/-! ## One step of an instruction (95_test_vectors.md, section 2) -/

theorem test_mov_t5 :
    endsIn (start 0 [0o012020] [(.r0, 0o2000)] [(0o2000, 0o111111), (0o2002, 0o22222)])
      0o10 [(.r0, 0o2004), (.pc, 0o1002)] [(0o2002, 0o111111)] = true := by decide

theorem test_mov_t8 :
    endsIn (start 0 [0o012000] [(.r0, 0o2000)] [(0o2000, 0o4444)])
      0 [(.r0, 0o4444), (.pc, 0o1002)] [] = true := by decide

theorem test_movb_t3 :
    endsIn (start 0 [0o112701, 0o000200] [(.r1, 0)] []) 0o10 [(.r1, 0o177600), (.pc, 0o1004)] [] = true := by decide

theorem test_movb_t4 :
    endsIn (start 0 [0o110037, 0o002001] [(.r0, 0o377)] [(0o2000, 0o52525)])
      0o10 [(.pc, 0o1004)] [(0o2000, 0o177525)] = true := by decide

theorem test_cmp_t11 :
    endsIn (start 0 [0o022701, 0o100000] [(.r1, 1)] []) 2 [(.pc, 0o1004)] [] = true := by decide

theorem test_cmp_t12 :
    endsIn (start 0 [0o020001] [(.r0, 0o77777), (.r1, 0o177777)] []) 0o13 [(.pc, 0o1002)] [] = true := by decide

theorem test_cmpb_t13 :
    endsIn (start 0 [0o120001] [(.r0, 0o1200), (.r1, 0o177)] []) 2 [(.pc, 0o1002)] [] = true := by decide

theorem test_bit_t15 :
    endsIn (start 1 [0o032700, 0o100000] [(.r0, 0o100001)] []) 0o11 [(.pc, 0o1004)] [] = true := by decide

theorem test_bitb_t17 :
    endsIn (start 0 [0o132700, 0o000200] [(.r0, 0o200)] []) 0o10 [(.pc, 0o1004)] [] = true := by decide

theorem test_bic_t18 :
    endsIn (start 0 [0o042700, 0o177400] [(.r0, 0o123456)] []) 0 [(.r0, 0o56), (.pc, 0o1004)] [] = true := by decide

theorem test_bicb_t19 :
    endsIn (start 3 [0o142700, 0o000017] [(.r0, 0o123457)] [])
      1 [(.r0, 0o123440), (.pc, 0o1004)] [] = true := by decide

theorem test_bis_t21 :
    endsIn (start 3 [0o052700, 0o100000] [(.r0, 1)] []) 0o11 [(.r0, 0o100001), (.pc, 0o1004)] [] = true := by decide

theorem test_bisb_t22 :
    endsIn (start 0 [0o152700, 0o000200] [(.r0, 1)] []) 0o10 [(.r0, 0o201), (.pc, 0o1004)] [] = true := by decide

theorem test_add_t23 :
    endsIn (start 0 [0o062700, 0o000001] [(.r0, 0o77777)] [])
      0o12 [(.r0, 0o100000), (.pc, 0o1004)] [] = true := by decide

theorem test_add_t25 :
    endsIn (start 0 [0o060000] [(.r0, 0o100000)] []) 7 [(.r0, 0), (.pc, 0o1002)] [] = true := by decide

theorem test_sub_t30 :
    endsIn (start 0 [0o160100] [(.r0, 0o100000), (.r1, 1)] [])
      2 [(.r0, 0o77777), (.pc, 0o1002)] [] = true := by decide

theorem test_sub_t32 :
    endsIn (start 0 [0o160100] [(.r0, 0), (.r1, 0o100000)] [])
      0o13 [(.r0, 0o100000), (.pc, 0o1002)] [] = true := by decide

theorem test_clr_t42 :
    endsIn (start 0 [0o005021] [(.r1, 0o2000)] [(0o2000, 0o7777)])
      4 [(.r1, 0o2002), (.pc, 0o1002)] [(0o2000, 0)] = true := by decide

theorem test_clrb_t43 :
    endsIn (start 0 [0o105021] [(.r1, 0o2001)] [(0o2000, 0o177777)])
      4 [(.r1, 0o2002), (.pc, 0o1002)] [(0o2000, 0o377)] = true := by decide

theorem test_com_t44 :
    endsIn (start 0 [0o005100] [(.r0, 0o13333)] []) 0o11 [(.r0, 0o164444), (.pc, 0o1002)] [] = true := by decide

theorem test_comb_t46 :
    endsIn (start 0 [0o105100] [(.r0, 0o377)] []) 5 [(.r0, 0), (.pc, 0o1002)] [] = true := by decide

theorem test_inc_t47 :
    endsIn (start 1 [0o005200] [(.r0, 0o77777)] []) 0o13 [(.r0, 0o100000), (.pc, 0o1002)] [] = true := by decide

theorem test_inc_t101 :
    endsIn (start 0 [0o005267, 0o000002, 0o000000, 0o000041] [] [])
      0 [(.pc, 0o1004)] [(0o1006, 0o42)] = true := by decide

theorem test_incb_t50 :
    endsIn (start 0 [0o105200] [(.r0, 0o177)] []) 0o12 [(.r0, 0o200), (.pc, 0o1002)] [] = true := by decide

theorem test_dec_t53 :
    endsIn (start 0 [0o005300] [(.r0, 0o100000)] []) 2 [(.r0, 0o77777), (.pc, 0o1002)] [] = true := by decide

theorem test_decb_t54 :
    endsIn (start 0 [0o105341] [(.r1, 0o2001)] [(0o2000, 0o200)])
      2 [(.r1, 0o2000), (.pc, 0o1002)] [(0o2000, 0o177)] = true := by decide

theorem test_neg_t57 :
    endsIn (start 0 [0o005400] [(.r0, 0o100000)] []) 0o13 [(.pc, 0o1002)] [] = true := by decide

theorem test_negb_t58 :
    endsIn (start 0 [0o105400] [(.r0, 0o200)] []) 0o13 [(.pc, 0o1002)] [] = true := by decide

theorem test_tst_t61 :
    endsIn (start 0o13 [0o005726] [(.sp, 0o776)] [(0o776, 0)]) 4 [(.sp, 0o1000), (.pc, 0o1002)] [] = true := by decide

theorem test_tstb_t60 :
    endsIn (start 3 [0o105720] [(.r0, 0o2000)] [(0o2000, 0o200)])
      0o10 [(.r0, 0o2001), (.pc, 0o1002)] [] = true := by decide

theorem test_asr_t62 :
    endsIn (start 0 [0o006200] [(.r0, 0o100001)] []) 0o11 [(.r0, 0o140000), (.pc, 0o1002)] [] = true := by decide

theorem test_asrb_t64 :
    endsIn (start 0 [0o106200] [(.r0, 0o201)] []) 0o11 [(.r0, 0o300), (.pc, 0o1002)] [] = true := by decide

theorem test_asl_t65 :
    endsIn (start 0 [0o006300] [(.r0, 0o40000)] []) 0o12 [(.r0, 0o100000), (.pc, 0o1002)] [] = true := by decide

theorem test_aslb_t67 :
    endsIn (start 0 [0o106300] [(.r0, 0o300)] []) 0o11 [(.r0, 0o200), (.pc, 0o1002)] [] = true := by decide

theorem test_ror_t69 :
    endsIn (start 1 [0o006000] [(.r0, 0)] []) 0o12 [(.r0, 0o100000), (.pc, 0o1002)] [] = true := by decide

theorem test_rorb_t70 :
    endsIn (start 1 [0o106000] [(.r0, 1)] []) 0o11 [(.r0, 0o200), (.pc, 0o1002)] [] = true := by decide

theorem test_rol_t73 :
    endsIn (start 1 [0o006100] [(.r0, 0o40000)] []) 0o12 [(.r0, 0o100001), (.pc, 0o1002)] [] = true := by decide

theorem test_rolb_t72 :
    endsIn (start 1 [0o106100] [(.r0, 0o200)] []) 3 [(.r0, 1), (.pc, 0o1002)] [] = true := by decide

theorem test_swab_t74 :
    endsIn (start 0o17 [0o000300] [(.r0, 0o77777)] []) 0 [(.r0, 0o177577), (.pc, 0o1002)] [] = true := by decide

theorem test_swab_t75 :
    endsIn (start 0 [0o000300] [(.r0, 0o377)] []) 4 [(.r0, 0o177400), (.pc, 0o1002)] [] = true := by decide

theorem test_br_t114 :
    endsIn (start 0 [0o000600] [] []) 0 [(.pc, 0o402)] [] = true := by decide

theorem test_bne_t115 :
    endsIn (start 0 [0o001002] [] []) 0 [(.pc, 0o1006)] [] = true := by decide

theorem test_bne_t116 :
    endsIn (start 4 [0o001002] [] []) 4 [(.pc, 0o1002)] [] = true := by decide

theorem test_beq_t117 :
    endsIn (start 0 [0o001402] [] []) 0 [(.pc, 0o1002)] [] = true := by decide

theorem test_beq_t118 :
    endsIn (start 4 [0o001402] [] []) 4 [(.pc, 0o1006)] [] = true := by decide

theorem test_bge_t121 :
    endsIn (start 2 [0o002002] [] []) 2 [(.pc, 0o1002)] [] = true := by decide

theorem test_bge_t122 :
    endsIn (start 0o12 [0o002002] [] []) 0o12 [(.pc, 0o1006)] [] = true := by decide

theorem test_blt_t124 :
    endsIn (start 0o10 [0o002402] [] []) 0o10 [(.pc, 0o1006)] [] = true := by decide

theorem test_blt_t126 :
    endsIn (start 0o12 [0o002402] [] []) 0o12 [(.pc, 0o1002)] [] = true := by decide

theorem test_bgt_t130 :
    endsIn (start 0o12 [0o003002] [] []) 0o12 [(.pc, 0o1006)] [] = true := by decide

theorem test_bgt_t131 :
    endsIn (start 0o16 [0o003002] [] []) 0o16 [(.pc, 0o1002)] [] = true := by decide

theorem test_ble_t135 :
    endsIn (start 0o12 [0o003402] [] []) 0o12 [(.pc, 0o1002)] [] = true := by decide

theorem test_ble_t136 :
    endsIn (start 0o16 [0o003402] [] []) 0o16 [(.pc, 0o1006)] [] = true := by decide

theorem test_bpl_t137 :
    endsIn (start 0 [0o100002] [] []) 0 [(.pc, 0o1006)] [] = true := by decide

theorem test_bpl_t138 :
    endsIn (start 0o10 [0o100002] [] []) 0o10 [(.pc, 0o1002)] [] = true := by decide

theorem test_bmi_t139 :
    endsIn (start 0 [0o100402] [] []) 0 [(.pc, 0o1002)] [] = true := by decide

theorem test_bmi_t140 :
    endsIn (start 0o10 [0o100402] [] []) 0o10 [(.pc, 0o1006)] [] = true := by decide

theorem test_bhi_t141 :
    endsIn (start 0 [0o101002] [] []) 0 [(.pc, 0o1006)] [] = true := by decide

theorem test_bhi_t143 :
    endsIn (start 4 [0o101002] [] []) 4 [(.pc, 0o1002)] [] = true := by decide

theorem test_blos_t145 :
    endsIn (start 0 [0o101402] [] []) 0 [(.pc, 0o1002)] [] = true := by decide

theorem test_blos_t147 :
    endsIn (start 4 [0o101402] [] []) 4 [(.pc, 0o1006)] [] = true := by decide

theorem test_bvc_t149 :
    endsIn (start 0 [0o102002] [] []) 0 [(.pc, 0o1006)] [] = true := by decide

theorem test_bvc_t150 :
    endsIn (start 2 [0o102002] [] []) 2 [(.pc, 0o1002)] [] = true := by decide

theorem test_bvs_t151 :
    endsIn (start 0 [0o102402] [] []) 0 [(.pc, 0o1002)] [] = true := by decide

theorem test_bvs_t152 :
    endsIn (start 2 [0o102402] [] []) 2 [(.pc, 0o1006)] [] = true := by decide

theorem test_bcc_t153 :
    endsIn (start 0 [0o103002] [] []) 0 [(.pc, 0o1006)] [] = true := by decide

theorem test_bcc_t154 :
    endsIn (start 1 [0o103002] [] []) 1 [(.pc, 0o1002)] [] = true := by decide

theorem test_bcs_t155 :
    endsIn (start 0 [0o103402] [] []) 0 [(.pc, 0o1002)] [] = true := by decide

theorem test_bcs_t156 :
    endsIn (start 1 [0o103402] [] []) 1 [(.pc, 0o1006)] [] = true := by decide

theorem test_jmp_t106 :
    endsIn (start 0 [0o000121] [(.r1, 0o2000)] []) 0 [(.r1, 0o2002), (.pc, 0o2000)] [] = true := by decide

theorem test_jsr_t168 :
    endsIn (start 0 [0o004537, 0o003000] [(.r5, 0o5555)] [])
      0 [(.r5, 0o1004), (.sp, 0o776), (.pc, 0o3000)] [(0o776, 0o5555)] = true := by decide

theorem test_jsr_t170 :
    endsIn (start 0 [0o004736] [(.sp, 0o776)] [(0o776, 0o3000)])
      0 [(.pc, 0o3000)] [(0o776, 0o1002)] = true := by decide

theorem test_rts_t174 :
    endsIn (start 0 [0o000205] [(.r5, 0o3000), (.sp, 0o776)] [(0o776, 0o5555)])
      0 [(.r5, 0o5555), (.sp, 0o1000), (.pc, 0o3000)] [] = true := by decide

theorem test_rts_t175 :
    endsIn (start 0 [0o000206] [(.sp, 0o776)] [(0o776, 0o2222)]) 0 [(.sp, 0o2222)] [] = true := by decide

theorem test_emt_t180 :
    endsIn (start 0o11 [0o104123] [] [(0o30, 0o4040), (0o32, 0o344)])
      0o344 [(.sp, 0o774), (.pc, 0o4040)] [(0o774, 0o1002), (0o776, 0o11)] = true := by decide

theorem test_trap_t181 :
    endsIn (start 2 [0o104777] [] [(0o34, 0o4050), (0o36, 0o357)])
      0o357 [(.sp, 0o774), (.pc, 0o4050)] [(0o774, 0o1002), (0o776, 2)] = true := by decide

theorem test_iot_t182 :
    endsIn (start 0o10 [0o000004] [] [(0o20, 0o4030), (0o22, 0o343)])
      0o343 [(.sp, 0o774), (.pc, 0o4030)] [(0o774, 0o1002), (0o776, 0o10)] = true := by decide

theorem test_bpt_t183 :
    endsIn (start 5 [0o000003] [] [(0o14, 0o4020), (0o16, 0o342)])
      0o342 [(.sp, 0o774), (.pc, 0o4020)] [(0o774, 0o1002), (0o776, 5)] = true := by decide

theorem test_rti_t185 :
    endsIn (start 0 [0o000002] [(.sp, 0o774)] [(0o774, 0o3000), (0o776, 0o177757)])
      0o357 [(.sp, 0o1000), (.pc, 0o3000)] [] = true := by decide

theorem test_rtt_t240 :
    endsIn (start 0 [0o000006] [(.sp, 0o774)] [(0o774, 0o3000), (0o776, 0o20)])
      0o20 [(.sp, 0o1000), (.pc, 0o3000)] [] = true := by decide

theorem test_ccop_t211 :
    endsIn (start 0o17 [0o000243] [] []) 0o14 [(.pc, 0o1002)] [] = true := by decide

theorem test_ccop_t212 :
    endsIn (start 0o12 [0o000265] [] []) 0o17 [(.pc, 0o1002)] [] = true := by decide

theorem test_adc_t220 :
    endsIn (start 1 [0o005501] [(.r1, 0o177777)] []) 5 [(.r1, 0), (.pc, 0o1002)] [] = true := by decide

theorem test_adc_t222 :
    endsIn (start 0o16 [0o005501] [(.r1, 0o77777)] []) 0 [(.pc, 0o1002)] [] = true := by decide

theorem test_adcb_t223 :
    endsIn (start 1 [0o105501] [(.r1, 0o377)] []) 5 [(.r1, 0), (.pc, 0o1002)] [] = true := by decide

theorem test_sbc_t225 :
    endsIn (start 1 [0o005601] [(.r1, 0o100000)] []) 2 [(.r1, 0o77777), (.pc, 0o1002)] [] = true := by decide

theorem test_sbc_t226 :
    endsIn (start 0 [0o005601] [(.r1, 0o100000)] []) 0o10 [(.pc, 0o1002)] [] = true := by decide

theorem test_sbcb_t227 :
    endsIn (start 1 [0o105601] [(.r1, 0o200)] []) 2 [(.r1, 0o177), (.pc, 0o1002)] [] = true := by decide

theorem test_sxt_t228 :
    endsIn (start 0o10 [0o006701] [(.r1, 0o1234)] []) 0o10 [(.r1, 0o177777), (.pc, 0o1002)] [] = true := by decide

theorem test_sxt_t229 :
    endsIn (start 2 [0o006701] [(.r1, 0o1234)] []) 4 [(.r1, 0), (.pc, 0o1002)] [] = true := by decide

theorem test_xor_t231 :
    endsIn (start 0 [0o074020] [(.r0, 0o2000)] [(0o2000, 0o2000)])
      4 [(.r0, 0o2002), (.pc, 0o1002)] [(0o2000, 0)] = true := by decide

theorem test_sob_t233 :
    endsIn (start 0o17 [0o077002] [(.r0, 1)] []) 0o17 [(.r0, 0), (.pc, 0o1002)] [] = true := by decide

theorem test_sob_t234 :
    endsIn (start 0 [0o077002] [(.r0, 0)] []) 0 [(.r0, 0o177777), (.pc, 0o776)] [] = true := by decide

theorem test_mfps_t236 :
    endsIn (start 0o340 [0o106700] [] []) 0o350 [(.r0, 0o177740), (.pc, 0o1002)] [] = true := by decide

theorem test_mfps_t237 :
    endsIn (start 5 [0o106737, 0o002000] [] [(0o2000, 0o177777)])
      1 [(.pc, 0o1004)] [(0o2000, 0o177405)] = true := by decide

theorem test_mtps_t239 :
    endsIn (start 0o340 [0o106400] [(.r0, 0o177437)] []) 0o17 [(.pc, 0o1002)] [] = true := by decide

/-- Vectors T165 and X7: register-mode JMP and a reserved word only set the latch. -/
theorem test_jmp_register_and_reserved_word :
    after (start 0 [0o000101] [(.r1, 0o3000)] []) (fun t =>
      shows t 0 [(.pc, 0o1002), (.sp, 0o1000)] [] && t.req.reserved) = true ∧
    after (start 5 [0o000007] [] []) (fun t => shows t 5 [(.pc, 0o1002)] [] && t.req.reserved) = true := by decide

/-- Vectors T186 and T188. -/
theorem test_halt_and_wait :
    after (start 0 [0] [] []) (fun t => decide (t.runState = .halted) && shows t 0 [(.pc, 0o1002)] []) = true ∧
    after (start 0 [1] [] []) (fun t => decide (t.runState = .waiting) && shows t 0 [(.pc, 0o1002)] []) = true := by
  decide

/-- Vector T191. -/
theorem test_reset_clears_the_interrupt_latches :
    after { start 0o357 [0o000005] [] [] with req := { noRequests with irq1 := true, irq2 := true, virq := some 0o60 } }
      (fun t => decide (t.req = noRequests) && shows t 0o357 [(.pc, 0o1002), (.sp, 0o1000)] []) = true := by decide

/-- Vector T241: MARK 2 at 0o770. -/
theorem test_mark_t241 :
    endsIn (start 0 [] [(.pc, 0o770), (.sp, 0o770), (.r5, 0o1234)] [(0o770, 0o6402), (0o776, 0o5555)]) 0
      [(.r5, 0o5555), (.sp, 0o1000), (.pc, 0o1234)] [] = true := by decide

/-- Vector T238: MTPS keeps T, and the trace request follows. -/
theorem test_mtps_t238 :
    after (start 0o21 [0o106427, 0o340] [] []) (fun t => shows t 0o360 [(.pc, 0o1004)] [] && t.req.trace) = true := by
  decide

/-! ## Addressing modes (vectors T81 to T105) -/

/-- Vectors T81, T83, T92, T94 and T104, as the location an operand names. -/
theorem test_resolve_modes :
    (start 0 [] [(.r1, 0o2000)] [(0o2000, 0o3000)]).resolve .word ⟨.autoIncDef, .r1⟩ =
      .ok ⟨.mem 0o3000, some (.r1, 2)⟩ (start 0 [] [(.r1, 0o2000)] [(0o2000, 0o3000)]) ∧
    (start 0 [] [(.r1, 0o2002)] [(0o2000, 0o3000)]).resolve .word ⟨.autoDecDef, .r1⟩ =
      .ok ⟨.mem 0o3000, none⟩ (start 0 [] [(.r1, 0o2000)] [(0o2000, 0o3000)]) ∧
    (start 0 [] [] []).resolve .byte ⟨.autoInc, .sp⟩ = .ok ⟨.mem 0o1000, some (.sp, 2)⟩ (start 0 [] [] []) ∧
    (start 0 [] [(.r1, 0o2000)] [(0o2000, 0o3001)]).resolve .byte ⟨.autoIncDef, .r1⟩ =
      .ok ⟨.mem 0o3001, some (.r1, 2)⟩ (start 0 [] [(.r1, 0o2000)] [(0o2000, 0o3001)]) ∧
    (start 0 [0o177777] [(.r1, 0o2001)] []).resolve .word ⟨.index, .r1⟩ =
      .ok ⟨.mem 0o2000, none⟩ (start 0 [0o177777] [(.r1, 0o2001), (.pc, 0o1002)] []) := by decide

/-! ## Exceptions and interrupts (95_test_vectors.md, section 3) -/

/-- The vector table of the vectors. -/
def vectorTable : List (Word × Word) :=
  [(0o4, 0o4000), (0o6, 0o340), (0o10, 0o4010), (0o12, 0o341), (0o14, 0o4020), (0o16, 0o342), (0o60, 0o5100),
   (0o62, 0o200), (0o64, 0o5200), (0o66, 0o200), (0o100, 0o5000), (0o102, 0o200)]

/-- Vector X1, step 1: a bus error on the source read. -/
theorem test_x1_source_bus_error :
    after (start 0o17 [0o013701, 0o160000] [(.r1, 0o7777)] []) (fun t =>
      t.req.busError && shows t 0o17 [(.r1, 0o7777), (.pc, 0o1002)] []) = true := by decide

/-- Vector X3, step 1: the source's step stays when the destination read fails. -/
theorem test_x3_source_step_stays :
    after (start 1 [0o012021] [(.r0, 0o2000), (.r1, 0o160000)] [(0o2000, 0o1234)]) (fun t =>
      t.req.busError && shows t 1 [(.r0, 0o2002), (.r1, 0o160000), (.pc, 0o1002)] []) = true := by decide

/-- Vector X5, step 2: a fetch that fails leaves PC. -/
theorem test_x5_fetch_bus_error :
    after (start 1 [] [(.pc, 0o160000)] []) (fun t => t.req.busError && shows t 1 [(.pc, 0o160000)] []) = true := by decide

/-- R462: a fetch in device space is a bus error (log 37), and where the parameter lets the device answer, its word
runs: the control register of a floppy controller with no drive selected reads 0, HALT. -/
theorem test_fetch_in_device_space :
    after (State.reset.setReg .pc 0o177716) (fun t => t.req.busError && shows t 0o340 [(.pc, 0o177716)] []) = true ∧
      after ({ State.reset with params := { defaultParams with deviceFetch := .deviceAnswers } }.setReg .pc 0o177130)
        (fun t => decide (t.runState = .halted) && decide (t.reg .pc = 0o177132)) = true := by decide

/-- Vectors X1, X7 and X9, step 2: the dispatch of the three latches. -/
theorem test_dispatch_of_latches :
    endsIn { start 0o17 [] [(.pc, 0o1002)] vectorTable with req := { noRequests with busError := true } } 0o340
      [(.pc, 0o4000), (.sp, 0o774)] [(0o774, 0o1002), (0o776, 0o17)] = true ∧
    endsIn { start 5 [] [(.pc, 0o1002)] vectorTable with req := { noRequests with reserved := true } } 0o341
      [(.pc, 0o4010), (.sp, 0o774)] [(0o774, 0o1002), (0o776, 5)] = true ∧
    endsIn { start 0o20 [] [(.pc, 0o1002)] vectorTable with req := { noRequests with trace := true } } 0o342
      [(.pc, 0o4020), (.sp, 0o774)] [(0o774, 0o1002), (0o776, 0o20)] = true := by decide

/-- Vectors X9, X10, X12: the trace request follows an instruction that completes with T set, but not an abandoned
one, and not RTT. -/
theorem test_trace_request :
    after (start 0o20 [0o005200] [] []) (fun t => t.req.trace) = true ∧
    after (start 0o20 [0o005737, 0o160000] [] []) (fun t => !t.req.trace && t.req.busError) = true ∧
    after (start 0 [0o000006] [(.sp, 0o774)] [(0o774, 0o3000), (0o776, 0o20)]) (fun t =>
      !t.req.trace && decide (t.psw = 0o20)) = true ∧
    after (start 0 [0o000002] [(.sp, 0o774)] [(0o774, 0o3000), (0o776, 0o20)]) (fun t =>
      t.req.trace && decide (t.psw = 0o20)) = true := by decide

/-- Vectors X14, X15 and X16: bit 7 masks, bits 6:5 do not, and IRQ1 goes first. -/
theorem test_interrupts :
    after { start 0o200 [0o005200] [] vectorTable with req := { noRequests with irq2 := true } }
      (fun t => shows t 0o200 [(.r0, 1), (.pc, 0o1002)] [] && t.req.irq2) = true ∧
    after { start 0o140 [0o005200] [] vectorTable with req := { noRequests with irq2 := true } }
      (fun t => shows t 0o200 [(.pc, 0o5000)] [(0o774, 0o1000), (0o776, 0o140)] && !t.req.irq2) = true ∧
    after { start 1 [0o005200] [] vectorTable with req := { noRequests with irq1 := true, irq2 := true, virq := some 0o60 } }
      (fun t => shows t 0o200 [(.pc, 0o5200)] [] && !t.req.irq1 && t.req.irq2 && decide (t.req.virq = some 0o60)) = true := by
  decide

/-- Vectors X19 to X22: idle, resumed, and a wait that a masked request ends. -/
theorem test_idle :
    after { start 1 [] [] [] with runState := .halted } (fun t => decide (t.runState = .halted)) = true ∧
    after { start 1 [] [(.pc, 0o1002)] vectorTable with runState := .halted, req := { noRequests with irq2 := true } }
      (fun t => decide (t.runState = .running) && shows t 0o200 [(.pc, 0o5000)] [(0o774, 0o1002)]) = true ∧
    after { start 0o200 [] [] [] with runState := .halted, req := { noRequests with irq2 := true } }
      (fun t => decide (t.runState = .halted)) = true ∧
    after { start 0o200 [] [] [] with runState := .waiting, req := { noRequests with irq2 := true } }
      (fun t => decide (t.runState = .running) && t.req.irq2 && shows t 0o200 [(.pc, 0o1000)] []) = true := by decide

/-- Vectors X23 and X24: a double bus error keeps PC, with SP decremented. -/
theorem test_double_bus_error :
    (match step (start 0 [3] [(.sp, 0o160004)] []) with
      | .fault (.doubleBusError t) => shows t 0 [(.sp, 0o160002), (.pc, 0o1002)] []
      | _ => false) = true ∧
    (match step (start 1 [3] [(.sp, 2)] []) with
      | .fault (.doubleBusError t) => shows t 1 [(.sp, 0o177776), (.pc, 0o1002)] [(0, 1)]
      | _ => false) = true := by decide

/-! ## Memory (95_test_vectors.md, section 4.1) -/

/-- Vectors M1 to M5. -/
theorem test_memory_accesses :
    ((start 0 [] [] [(0o2000, 0o123456)]).load .byte 0o2000).1 = some 0o056 ∧
    ((start 0 [] [] [(0o2000, 0o123456)]).load .byte 0o2001).1 = some 0o247 ∧
    (((start 0 [] [] [(0o2000, 0o52525)]).store .byte 0o2001 0o377).2.load .word 0o2000).1 = some 0o177525 ∧
    ((start 0 [] [] [(0o2000, 0o52525)]).load .word 0o2001).1 = some 0o52525 ∧
    (({ start 0 [] [] [] with params := { ramParams with oddWordAccess := .busError } } : State).load .word 0o2001).1 = none ∧
    ((start 0 [] [] []).load .word 0o160000).1 = none ∧ ((start 0 [] [] []).store .word 0o160000 1).1 = false := by decide

/-- Vector M6: a write to ROM changes nothing and is no error. -/
theorem test_rom_write : State.reset.store .word 0o100000 0o1234 = (true, State.reset) := by decide

/-- Vector M8: the address and the lane of a byte write to a device. -/
theorem test_device_byte_lane :
    writeAddr .byte 0o177715 = 0o177715 ∧ writeLane .byte 0o177715 0o252 = 0o125000 ∧ writeLane .byte 0o177714 0o252 = 0o252 := by
  decide

/-- Vector M11: an address of the I/O range without a device falls through to the map. -/
theorem test_io_range_falls_through :
    (({ start 0 [] [] [] with params := { ramParams with maps := [[⟨.ram, 0, 0o200000, 0⟩]] } } : State).store .word 0o177000
      0o1234).1 = true := by decide

/-- The canonical form: writing what an unlisted cell reads as removes the entry; cells rise. -/
theorem test_memory_canonical :
    (Memory.set [(2, 5)] 2 0) = [] ∧ (Memory.set [(2, 5)] 1 7) = [(1, 7), (2, 5)] ∧
      (Memory.set [(1, 7), (2, 5)] 3 9) = [(1, 7), (2, 5), (3, 9)] ∧ Memory.wf [(2, 5), (1, 7)] = false ∧
      Memory.wf [(1, 0)] = false := by decide

/-! ## Reset (70_reset_and_hazards.md R450, program P0) -/

/-- Power-on with the draw that State.reset names, and nothing in RAM. -/
theorem test_power_on_gives_reset :
    ({ State.reset with devLog := [] } : State).powerOn ⟨0, 0, 0, 0, 0, 0, resetSp, []⟩ = State.reset := by rfl

/-- R364, R85: ROM is loaded before the first step, and only where no map places RAM. -/
theorem test_load_rom_before_the_first_step :
    (State.reset.loadRom [(0o100000, 7), (0o1000, 8)]).mem = [(0o100000, 7)] ∧
      ({ State.reset with cpuTime := 1 } : State).loadRom [(0o100000, 7)] = { State.reset with cpuTime := 1 } := by decide

/-- R310: a second virtual request replaces the vector of the first. -/
theorem test_second_virtual_request :
    (hostAct (.raiseVirq 0o274) (hostAct (.keyPress 0o60) State.reset)).req = { noRequests with virq := some 0o274 } := by
  decide

/-- Program P0: the first instruction after reset, MOV #1000, SP in ROM. -/
theorem test_first_instruction_after_reset :
    after (place State.reset [(0o100000, 0o012706), (0o100002, 0o001000)])
      (fun t => shows t 0o340 [(.sp, 0o1000), (.pc, 0o100004)] [] && decide (t.cpuTime = 1)) = true := by decide

/-- A word placed where the next step fetches is the instruction that runs. -/
theorem test_with_fetch_word :
    after (State.reset.withFetchWord 16 0o005200) (fun t => shows t 0o340 [(.r0, 1), (.pc, 0o100002)] []) = true := by
  decide

/-! ## Floppy (95_test_vectors.md, section 4.2; the constants of the example are the defaults) -/

/-- The floppy constants of State.reset on its clock. -/
def floppyClock : FloppyParams := defaultParams.floppyParams

/-- R363 and the example's numbers at 3 MHz: 64 microseconds a word are 192 ticks, 2 ms are 6000. -/
theorem test_clock_conversion :
    floppyClock.ticksPerWord = 192 ∧ floppyClock.ticksPerIndexHole = 6000 ∧ nsToTicks 3000000 64000 = 192 ∧
      ticksToNs 3000000 192 = 64000 ∧ nsToTicks 4000000 64000 = 256 := by decide

/-- Vectors F1 to F8. -/
theorem test_floppy_rotation :
    ([0, 191, 192, 5999, 6000, 599999, 600000, 1200191].map fun t => (headPos floppyClock t, indexActive floppyClock t)) =
      [(0, true), (0, true), (1, true), (31, true), (31, false), (3124, false), (0, true), (0, true)] := by decide

/-- The image offsets of section 4.2 and the last track of an 819200-byte image. -/
theorem test_floppy_offsets :
    imageOffset 0 0 1 = 0 ∧ imageOffset 0 0 10 = 4608 ∧ imageOffset 0 1 1 = 5120 ∧ imageOffset 1 0 1 = 10240 ∧
      imageOffset 79 1 3 = 815104 ∧ lastTrackOf (List.replicate 20480 0) = 1 := ⟨by decide, by decide, by decide, by decide, by decide, by
        unfold lastTrackOf; rw [List.length_replicate]; decide⟩

/-- R387, R390: select drive A and the motor; a drive with the head on track 0 says so, and the index pulse shows. -/
theorem test_floppy_control :
    (((Floppy.powerOn.write floppyClock 0 0 false 0o21).2.read floppyClock 0 0).1 = some 0o100001) ∧
      ((Floppy.powerOn.write floppyClock 0 0 true 0o21).1 = false) := by decide

/-- R387: the lowest of several set select bits, each at its own place. -/
theorem test_floppy_select_bits :
    selectOf floppyClock 0o14 = some .c ∧ selectOf floppyClock 0o20 = none ∧
      selectOf { floppyClock with selectA := 9, selectC := 7, selectD := 2 } 0o1204 = some .d := by decide

/-- A controller with a drive of four raw words selected, and the parameters of such a track. -/
def shortTrack : FloppyParams := { floppyClock with wordsPerTrack := 4 }
def smallFloppy (protect : Bool) : Floppy :=
  { Floppy.powerOn with
    selected := some .b
    driveB := { FloppyDrive.empty with image := some [], writeProtect := protect, buffer := fillWords 4 0o123456 } }

/-- R380, R394, R395: an access that is rejected, a byte write, ends a write that is due, and the drive is flushed. -/
theorem test_floppy_end_of_write :
    (let f := ((smallFloppy false).write shortTrack 1 0 false 0o1234).2
     let g := (f.write shortTrack 1 384 true 0).2
     (f.writeState, f.driveB.dirty, g.writeState, g.driveB.dirty)) = (.writing, true, .idle, false) := by decide

/-! ## IDE (95_test_vectors.md, section 4.3) -/

/-- An interface with a small drive, geometry 1024, 16, 63. -/
def disk : IdeInterface :=
  { IdeInterface.blank with
    drive := some ⟨1024, 16, 63, 1032192, [], [], []⟩, geometry := ⟨1024, 16, 63⟩
    status := { bsy := false, drdy := true, drq := false, err := false } }

/-- Vector D2: cylinder 2, head 3, sector 4. -/
theorem test_ide_chs : ({ disk with cylLow := 2, driveHead := 3, sectorNumber := 4 } : IdeInterface).lba defaultIde = 2208 := by
  decide

/-- Vectors D3 and D4: sector number 0, and an unsupported code, abort. -/
theorem test_ide_abort :
    ((({ disk with cylLow := 2, driveHead := 3, sectorCount := 1 } : IdeInterface).command defaultIde 0x20).error = 0x04) ∧
    ((({ disk with cylLow := 2, driveHead := 3, sectorCount := 1 } : IdeInterface).command defaultIde 0x20).status =
      ⟨false, true, false, true⟩) ∧
    ((disk.command defaultIde 0xff).status = ⟨false, true, false, true⟩) := by decide

/-- Vectors D6 and D7: a read of the data register, and one with DRQ clear. -/
theorem test_ide_data :
    (({ disk with status := ⟨false, true, true, false⟩, buf := [0, 0, 0x34, 0x12], off := 2, fin := 512 } : IdeInterface).readData
      defaultIde).1 = some 0x1234 ∧
    (({ disk with status := ⟨false, true, true, false⟩, buf := [0, 0, 0x34, 0x12], off := 2, fin := 512 } : IdeInterface).readData
      defaultIde).2.off = 4 ∧
    disk.readData defaultIde = (none, disk) := by decide

/-- R430: (2 - 4) mod 256 when the count was rewritten during a transfer; R425, D40: a CHS sector number of 0 aborts
a read between its blocks. -/
theorem test_ide_end_of_transfer :
    (({ disk with endFn := .readNext, blk := 4, sectorCount := 2, driveHead := 0x40 } : IdeInterface).endTransfer
      defaultIde).sectorCount = 254 ∧
    (({ disk with endFn := .readNext, blk := 1, sectorCount := 2 } : IdeInterface).endTransfer defaultIde).status =
      ⟨false, true, false, true⟩ := by decide

/-- R421: the head field where the parameters put it. -/
theorem test_ide_head_field :
    ({ disk with driveHead := 0b01010110 } : IdeInterface).head { defaultIde with headBit := 2, headWidth := 3 } = 5 ∧
      withHead { defaultIde with headBit := 2, headWidth := 3 } 0b11111111 2 = 0b11101011 := by decide

/-- Vector D1, steps 1 and 2: SET_MULTIPLE of 4, then WRITE_MULTIPLE of 5 arms four sectors. -/
theorem test_ide_write_multiple_begins :
    (({ disk with sectorCount := 4 } : IdeInterface).command defaultIde 0xc6).multiple = 4 ∧
    (let j := ({ disk with multiple := 4, sectorCount := 5, driveHead := 0x40 } : IdeInterface).command defaultIde 0xc5
     (j.blk, j.fin, j.endFn, j.status.drq) = (4, 2048, EndFn.writeSector, true)) := by decide

/-! ## Witnesses: for every obligation with hypotheses, states and operands that meet them -/

/-- The operation goes on. -/
def goesOn {α : Type} (x : Res α) : Bool :=
  match x with
  | .ok _ _ => true
  | _ => false

theorem goesOn_ok {α : Type} {x : Res α} (h : goesOn x = true) : ∃ v t, x = .ok v t := by
  cases x with
  | ok v t => exact ⟨v, t, rfl⟩
  | abandoned t => cases h
  | fault e => cases h
  | refused r => cases h

theorem goesOn_andThen {α β : Type} {x : Res α} {f : α → State → Res β} (h : goesOn (x.andThen f) = true) :
    ∃ v t, x = .ok v t ∧ goesOn (f v t) = true := by
  cases x with
  | ok v t => exact ⟨v, t, rfl, h⟩
  | abandoned t => cases h
  | fault e => cases h
  | refused r => cases h

/-- The operation is abandoned. -/
def stopsShort {α : Type} (x : Res α) : Bool :=
  match x with
  | .abandoned _ => true
  | _ => false

theorem stopsShort_abandoned {α : Type} {x : Res α} (h : stopsShort x = true) : ∃ t, x = .abandoned t := by
  cases x with
  | ok v t => cases h
  | abandoned t => exact ⟨t, rfl⟩
  | fault e => cases h
  | refused r => cases h

/-- A state for the operand witnesses: R0 to R2 point into RAM, C is set, the stack is in RAM. -/
def busy : State :=
  start 0o11 [] [(.r0, 0o2000), (.r1, 0o3000), (.r2, 0o157776), (.r3, 0o160000)]
    [(0o2000, 0o100000), (0o2002, 1), (0o3000, 0o77777), (0o4000, 0o3000)]

/-- The same with N, Z, V and C as given. -/
def busyWith (psw : Word) : State := { busy with psw := psw }

/-- Operands for the witnesses: in RAM through R0, in the last word of RAM through R2, in R4. -/
def inRam : Operand := ⟨.autoInc, .r0⟩
def inLast : Operand := ⟨.deferred, .r2⟩
def inReg : Operand := ⟨.register, .r4⟩

/-- DecodeOfEncodeIsIdentity: the ends of the reserved space. -/
theorem decodeOfEncode_witness : (Instr.reserved 0o000007).wf = true ∧ (Instr.reserved 0o177777).wf = true := by decide

/-- OnlyUnnamedAndByteSpPcFormsAreRefused: a named and an unnamed byte form, an unnamed class refused, and both
refusals. -/
theorem onlyRefused_witness :
    ((Instr.bisb ⟨.register, .r0⟩ ⟨.register, .pc⟩).isUnnamed = false ∧
      (Instr.bisb ⟨.register, .r0⟩ ⟨.register, .pc⟩).hasMeaning = false ∧
      exec (.bisb ⟨.register, .r0⟩ ⟨.register, .pc⟩) (refusing busy) = .refused .byteRegisterSpPc) ∧
    ((Instr.mtps ⟨.register, .sp⟩).hasMeaning = false ∧ busy.params.unnamedOpcodes = .execute ∧
      exec (.mtps ⟨.register, .sp⟩) busy = .refused .byteRegisterSpPc) ∧
    ((Instr.mtps ⟨.register, .sp⟩).isUnnamed = true ∧ (refusing busy).params.unnamedOpcodes = .refuse ∧
      exec (.mtps ⟨.register, .sp⟩) (refusing busy) = .refused .unnamedOpcode) :=
  ⟨⟨rfl, by decide, rfl⟩, ⟨by decide, rfl, rfl⟩, ⟨rfl, rfl, rfl⟩⟩

/-- The power-on state under the other alignment rule. -/
def strict : State := { State.reset with params := { defaultParams with oddWordAccess := .busError } }

/-- ReadCycle, WriteCycle and the device clause of OperandPrimitives, each clause: a refused odd word; a device at the first and the last of its addresses;
the ends of RAM and of ROM, the byte at an odd address; nothing at 0o160000 and at the top. -/
theorem cycles_witness :
    (strict.misaligned .word 0o2001 = true ∧ strict.misaligned .byte 0o2001 = false) ∧
    (State.reset.misaligned .word 0o177131 = false ∧
      State.reset.device (evenAddr 0o177131) = some (.floppyController, 0) ∧
      State.reset.device (evenAddr 0o177716) = some (.sel1RegisterSystemBits, 0)) ∧
    (State.reset.misaligned .byte 0o077777 = false ∧ State.reset.device (evenAddr 0o077777) = none ∧
      State.reset.cellOf (evenAddr 0o077777) = some (.ram, 0o077776) ∧ State.reset.cellOf (evenAddr 0) = some (.ram, 0)) ∧
    (State.reset.device (evenAddr 0o100000) = none ∧ State.reset.cellOf (evenAddr 0o100000) = some (.rom, 0o100000) ∧
      State.reset.cellOf (evenAddr 0o177576) = some (.rom, 0o177576)) ∧
    (State.reset.device (evenAddr 0o177777) = none ∧ State.reset.cellOf (evenAddr 0o177777) = none ∧
      State.reset.device (evenAddr 0o177600) = none ∧ State.reset.cellOf (evenAddr 0o177600) = none) := by decide

/-- StoredWordIsReadBackLowByteFirst: the first and the last word of RAM, the last by its odd address. -/
theorem storedWord_witness :
    busy.mem.wf = true ∧ busy.memoryAt .word 0 .ram 0 ∧ busy.memoryAt .word 0o157777 .ram 0o157776 :=
  ⟨by decide, ⟨by decide, by decide, by decide⟩, ⟨by decide, by decide, by decide⟩⟩

/-- A step goes on. -/
def stepsOn (s : State) : Bool := after s fun _ => true

theorem stepsOn_next {s : State} (h : stepsOn s = true) : ∃ t, step s = .next t := by
  unfold stepsOn after at h
  split at h
  · exact ⟨_, ‹_›⟩
  · cases h

/-- StepChangesOnlyRam: a step from reset with an instruction loaded, and the first ROM cell. -/
theorem stepChangesOnlyRam_witness :
    Machine.Params.wordRegions State.reset.params = true ∧
      (∃ t, step (State.reset.withFetchWord 16 0o005200) = .next t) ∧
      Params.hasCell State.reset.params .ram 0o100000 = false ∧ Params.hasCell State.reset.params .ram 0o077777 = true :=
  ⟨by decide, stepsOn_next (by decide), by decide, by decide⟩

/-- AddressingModes: the reads of pointers and extension words, served and refused. -/
theorem addressingModes_witness :
    (∃ a t, busy.read .word (busy.reg .r0) = .ok a t) ∧ (∃ t, busy.read .word (busy.reg .r3) = .abandoned t) ∧
    (∃ a t, (busy.setReg .r2 (busy.reg .r2 - 2)).read .word (busy.reg .r2 - 2) = .ok a t) ∧
    (∃ t, (busy.setReg .r3 (0 - 2)).read .word (0 - 2) = .abandoned t) ∧
    (∃ d t a u, busy.read .word (busy.reg .pc) = .ok d t ∧
      (t.setReg .pc (t.reg .pc + 2)).read .word ((t.setReg .pc (t.reg .pc + 2)).reg .r0 + d) = .ok a u) ∧
    (∃ d t u, busy.read .word (busy.reg .pc) = .ok d t ∧
      (t.setReg .pc (t.reg .pc + 2)).read .word ((t.setReg .pc (t.reg .pc + 2)).reg .r3 + d) = .abandoned u) ∧
    (∃ t, (busy.setReg .pc 0o160000).read .word 0o160000 = .abandoned t) :=
  ⟨goesOn_ok (by decide), stopsShort_abandoned (by decide), goesOn_ok (by decide), stopsShort_abandoned (by decide),
    ⟨_, _, _, _, rfl, rfl⟩, ⟨_, _, _, rfl, rfl⟩, stopsShort_abandoned (by decide)⟩

/-- OperandReadStepsRegisters: a general register and PC. -/
theorem operandReadSteps_witness :
    (∃ v t, busy.srcRead .word ⟨.autoDec, .r2⟩ = .ok v t) ∧ (∃ v t, busy.srcRead .byte ⟨.autoInc, .pc⟩ = .ok v t) ∧
      (∃ v t, busy.srcRead .byte ⟨.index, .r0⟩ = .ok v t) :=
  ⟨goesOn_ok (by decide), goesOn_ok (by decide), goesOn_ok (by decide)⟩

/-- OperandsInMemoryAreReadAndWritten: every mode, RAM and ROM, the ends of RAM. -/
theorem operandsInMemory_witness :
    busy.operandAt .byte ⟨.register, .sp⟩ .ram ∧ busy.operandAt .word inLast .ram ∧ busy.operandAt .word inRam .ram ∧
    (busy.setReg .r5 0o4000).operandAt .word ⟨.autoIncDef, .r5⟩ .ram ∧
    (busy.setReg .r5 1).operandAt .byte ⟨.autoDec, .r5⟩ .ram ∧
    (busy.setReg .r5 0o4002).operandAt .word ⟨.autoDecDef, .r5⟩ .ram ∧ busy.operandAt .word ⟨.index, .r0⟩ .ram ∧
    (busy.setReg .r5 0o4000).operandAt .word ⟨.indexDef, .r5⟩ .ram ∧
    (State.reset.setReg .r0 0o100000).operandAt .word ⟨.deferred, .r0⟩ .rom :=
  have at' : ∀ {s : State} {w : Width} {a : Word} {k : MemKind} {p : Nat}, s.misaligned w a = false →
      s.device (evenAddr a) = none → s.cellOf (evenAddr a) = some (k, p) → s.memoryAt w a k p := fun h1 h2 h3 => ⟨h1, h2, h3⟩
  ⟨trivial, ⟨0o157776, at' (by decide) (by decide) (by decide)⟩, ⟨0o2000, at' (by decide) (by decide) (by decide)⟩,
    ⟨0o3000, 0o3000, ⟨.ram, 0o4000, at' (by decide) (by decide) (by decide), by decide⟩, at' (by decide) (by decide) (by decide)⟩,
    ⟨0, at' (by decide) (by decide) (by decide)⟩,
    ⟨0o3000, 0o3000, ⟨.ram, 0o4000, at' (by decide) (by decide) (by decide), by decide⟩, at' (by decide) (by decide) (by decide)⟩,
    ⟨0, 0o2000, ⟨.ram, 0o1000, at' (by decide) (by decide) (by decide), by decide⟩, at' (by decide) (by decide) (by decide)⟩,
    ⟨0, 0o3000, 0o3000, ⟨.ram, 0o1000, at' (by decide) (by decide) (by decide), by decide⟩,
      ⟨.ram, 0o4000, at' (by decide) (by decide) (by decide), by decide⟩, at' (by decide) (by decide) (by decide)⟩,
    ⟨0o100000, at' (by decide) (by decide) (by decide)⟩⟩

/-- SourceBusErrorLeavesDestinationAndFlags: a word and a byte form. -/
theorem sourceBusError_witness :
    ((Instr.add ⟨.autoDec, .r3⟩ inRam).doubleSource = some (.word, ⟨.autoDec, .r3⟩) ∧
      (Instr.add ⟨.autoDec, .r3⟩ inRam).hasMeaning = true ∧
      ∃ t, (busy.setReg .r3 0).srcRead .word ⟨.autoDec, .r3⟩ = .abandoned t) ∧
    ((Instr.bicb ⟨.deferred, .r3⟩ inReg).doubleSource = some (.byte, ⟨.deferred, .r3⟩) ∧
      (Instr.bicb ⟨.deferred, .r3⟩ inReg).hasMeaning = true ∧ ∃ t, busy.srcRead .byte ⟨.deferred, .r3⟩ = .abandoned t) :=
  ⟨⟨rfl, rfl, stopsShort_abandoned (by decide)⟩, ⟨rfl, rfl, stopsShort_abandoned (by decide)⟩⟩

/-- AbandonedInstructionKeepsStatus: a bus error, and a reserved word. -/
theorem abandonedInstruction_witness :
    (∃ t, exec (.clr ⟨.deferred, .r3⟩) busy = .next t ∧ busy.req.busError = false ∧ busy.req.reserved = false ∧
      t.req.busError = true) ∧
    (∃ t, exec (.jmp inReg) busy = .next t ∧ t.req.reserved = true) :=
  ⟨⟨_, rfl, rfl, rfl, rfl⟩, ⟨_, rfl, rfl⟩⟩

/-- MoveResult: MOV to memory, MOVB to a register and to memory. -/
theorem moveResult_witness :
    (∃ v s1 s2, busy.srcRead .word inRam = .ok v s1 ∧ s1.dstStore .word inLast v = .ok () s2) ∧
    ((Instr.movb inRam inReg).hasMeaning = true ∧ inReg.mode = .register ∧ ∃ v s1, busy.srcRead .byte inRam = .ok v s1) ∧
    ((Instr.movb inRam inLast).hasMeaning = true ∧ inLast.mode ≠ .register ∧
      ∃ v s1 s2, busy.srcRead .byte inRam = .ok v s1 ∧ s1.dstStore .byte inLast v = .ok () s2) :=
  ⟨⟨_, _, _, rfl, rfl⟩, ⟨rfl, rfl, _, _, rfl⟩, ⟨rfl, by decide, _, _, _, rfl, rfl⟩⟩

/-- The hypotheses of a double-operand result: both operands read, and any value written back. -/
theorem double_witness (w : Width) (src dst : Operand)
    (h : goesOn ((busy.srcRead w src).andThen fun a t => (t.dstRead w dst).andThen fun q u => u.dstWrite w q.1 (a + q.2)) = true) :
    ∃ a s1 p d s2 s3, busy.srcRead w src = .ok a s1 ∧ s1.dstRead w dst = .ok (p, d) s2 ∧ s2.dstWrite w p (a + d) = .ok () s3 := by
  obtain ⟨a, s1, h1, h⟩ := goesOn_andThen h
  obtain ⟨⟨p, d⟩, s2, h2, h⟩ := goesOn_andThen h
  obtain ⟨_, s3, h3⟩ := goesOn_ok h
  exact ⟨a, s1, p, d, s2, s3, h1, h2, h3⟩

/-- CompareResult, BitInstructionsResult and AddAndSubtractResult: both widths, memory and register destinations. -/
theorem doubleResult_witness :
    ((byWidth .byte (.cmp inRam inReg) (.cmpb inRam inReg)).hasMeaning = true ∧
      (byWidth .byte (.bit inRam inLast) (.bitb inRam inLast)).hasMeaning = true ∧
      (byWidth .word (.bit inRam inLast) (.bitb inRam inLast)).hasMeaning = true) ∧
    (∃ a s1 p d s2 s3, busy.srcRead .byte inRam = .ok a s1 ∧ s1.dstRead .byte inReg = .ok (p, d) s2 ∧
      s2.dstWrite .byte p (a + d) = .ok () s3) ∧
    (∃ a s1 p d s2 s3, busy.srcRead .word inRam = .ok a s1 ∧ s1.dstRead .word inLast = .ok (p, d) s2 ∧
      s2.dstWrite .word p (a + d) = .ok () s3) :=
  ⟨by decide, double_witness _ _ _ (by decide), double_witness _ _ _ (by decide)⟩

/-- BitInstructionsResult and AddAndSubtractResult: the written values of their clauses. -/
theorem doubleWrites_witness :
    (∃ a s1 p d s2 s3, busy.srcRead .word inRam = .ok a s1 ∧ s1.dstRead .word inLast = .ok (p, d) s2 ∧
      s2.dstWrite .word p (d &&& ~~~a) = .ok () s3) ∧
    (∃ a s1 p d s2 s3, busy.srcRead .word inRam = .ok a s1 ∧ s1.dstRead .word inLast = .ok (p, d) s2 ∧
      s2.dstWrite .word p (d ||| a) = .ok () s3) ∧
    (∃ a s1 p d s2 s3, busy.srcRead .word inRam = .ok a s1 ∧ s1.dstRead .word inLast = .ok (p, d) s2 ∧
      s2.dstWrite .word p (d - a) = .ok () s3) :=
  ⟨⟨_, _, _, _, _, _, rfl, rfl, rfl⟩, ⟨_, _, _, _, _, _, rfl, rfl, rfl⟩, ⟨_, _, _, _, _, _, rfl, rfl, rfl⟩⟩

/-- ClearAndSignExtendResult: both widths of CLR, and SXT with N set and clear; and of every statement about the unnamed
classes, the value of the parameter. -/
theorem clearResult_witness : busy.params.unnamedOpcodes = .execute ∧ (busyWith 0).params.unnamedOpcodes = .execute ∧
    ((byWidth .byte (.clr inRam) (.clrb inRam)).hasMeaning = true ∧ ∃ s1, busy.dstStore .byte inRam 0 = .ok () s1) ∧
    ((byWidth .word (.clr inLast) (.clrb inLast)).hasMeaning = true ∧ ∃ s1, busy.dstStore .word inLast 0 = .ok () s1) ∧
    (∃ s1, busy.dstStore .word inLast (if busy.flagN then 0o177777 else 0) = .ok () s1) ∧ busy.flagN = true ∧
    (∃ s1, (busyWith 0).dstStore .word inReg (if (busyWith 0).flagN then 0o177777 else 0) = .ok () s1) ∧
    (busyWith 0).flagN = false :=
  ⟨rfl, rfl, ⟨rfl, _, rfl⟩, ⟨rfl, _, rfl⟩, ⟨_, rfl⟩, rfl, ⟨_, rfl⟩, rfl⟩

/-- The hypotheses of a single-operand result: the operand read, and a value written back. -/
theorem single_witness (s : State) (w : Width) (dst : Operand) (f : Word → Word)
    (h : goesOn ((s.dstRead w dst).andThen fun q t => t.dstWrite w q.1 (f q.2)) = true) :
    ∃ p d s1 s2, s.dstRead w dst = .ok (p, d) s1 ∧ s1.dstWrite w p (f d) = .ok () s2 := by
  obtain ⟨⟨p, d⟩, s1, h1, h⟩ := goesOn_andThen h
  obtain ⟨_, s2, h2⟩ := goesOn_ok h
  exact ⟨p, d, s1, s2, h1, h2⟩

/-- ComplementAndNegateResult, IncrementAndDecrementResult, ArithmeticShiftResult, RotateResult (C set and clear),
SwapBytesAndExclusiveOrResult and AddAndSubtractCarryResult: the value each clause writes, in RAM and in a register. -/
theorem singleResult_witness :
    (∀ w, (byWidth w (.com inRam) (.comb inRam)).hasMeaning = true ∧ (byWidth w (.inc inRam) (.incb inRam)).hasMeaning = true ∧
      (byWidth w (.asr inReg) (.asrb inReg)).hasMeaning = true ∧ (byWidth w (.ror inReg) (.rorb inReg)).hasMeaning = true ∧
      (byWidth w (.adc inRam) (.adcb inRam)).hasMeaning = true ∧ (byWidth w (.tst inRam) (.tstb inRam)).hasMeaning = true) ∧
    (∀ f : Word → Word, f ∈ [fun d => ~~~d &&& widthMask .byte, fun d => (0 - d) &&& widthMask .byte,
        fun d => (d + 1) &&& widthMask .byte, fun d => (d - 1) &&& widthMask .byte, fun d => (d >>> 1) ||| (d &&& widthSign .byte),
        fun d => (d <<< 1) &&& widthMask .byte, fun d => (d >>> 1) ||| (if busy.flagC then widthSign .byte else 0),
        fun d => ((d <<< 1) ||| (if busy.flagC then 1 else 0)) &&& widthMask .byte,
        fun d => (d + if busy.flagC then 1 else 0) &&& widthMask .byte,
        fun d => (d - if busy.flagC then 1 else 0) &&& widthMask .byte] →
      ∃ p d s1 s2, busy.dstRead .byte inRam = .ok (p, d) s1 ∧ s1.dstWrite .byte p (f d) = .ok () s2) ∧
    (∃ p d s1 s2, busy.dstRead .word inLast = .ok (p, d) s1 ∧ s1.dstWrite .word p ((d <<< 8) ||| (d >>> 8)) = .ok () s2) ∧
    (∃ p d s1 s2, busy.dstRead .word inRam = .ok (p, d) s1 ∧ s1.dstWrite .word p (busy.reg .r0 ^^^ d) = .ok () s2) := by
  refine ⟨fun w => by cases w <;> decide, fun f hf => ?_, single_witness _ _ _ (fun d => (d <<< 8) ||| (d >>> 8)) (by decide),
    single_witness _ _ _ (fun d => busy.reg .r0 ^^^ d) (by decide)⟩
  simp only [List.mem_cons, List.not_mem_nil, or_false] at hf
  rcases hf with rfl | rfl | rfl | rfl | rfl | rfl | rfl | rfl | rfl | rfl <;> exact single_witness _ _ _ _ (by decide)

/-- TestResult. -/
theorem testResult_witness : ∃ p d s1, busy.dstRead .byte inRam = .ok (p, d) s1 := ⟨_, _, _, rfl⟩

/-- SubtractOneBranchAndMarkResult: a register other than PC that reaches 0 and one that does not, and the word MARK
reads. -/
theorem sobMark_witness :
    (Reg.r0 ≠ .pc ∧ busy.reg .r0 - 1 ≠ 0 ∧ (busy.setReg .r0 1).reg .r0 - 1 = 0) ∧
    (∃ v s1, busy.read .word (busy.reg .pc + 2 * (0 : BitVec 6).setWidth 16) = .ok v s1) ∧
    (∃ v s1, busy.read .word (busy.reg .pc + 2 * (63 : BitVec 6).setWidth 16) = .ok v s1) :=
  ⟨by decide, goesOn_ok (by decide), goesOn_ok (by decide)⟩

/-- JumpResult: a memory mode, and register mode. -/
theorem jump_witness : (∃ a s1, busy.effAddr ⟨.deferred, .r3⟩ = .ok a s1) ∧ inReg.mode = .register := ⟨⟨_, _, rfl⟩, rfl⟩

/-- SubroutineCallAndReturnResult: a push that succeeds and one that fails, a pop that succeeds and one that fails. -/
theorem subroutine_witness :
    (∃ a s1 s2, busy.effAddr inRam = .ok a s1 ∧ s1.push (s1.reg .r5) = .ok () s2) ∧
    (∃ a s1 s2, (busy.setReg .sp 0).effAddr inRam = .ok a s1 ∧ s1.push (s1.reg .r5) = .fault (.doubleBusError s2)) ∧
    (∃ v s1, busy.pop = .ok v s1) ∧ (∃ s1, (busy.setReg .sp 0o160000).pop = .abandoned s1) :=
  ⟨⟨_, _, _, rfl, rfl⟩, ⟨_, _, _, rfl, rfl⟩, goesOn_ok (by decide), stopsShort_abandoned (by decide)⟩

/-- TrapInstructionResult: entries that succeed, and one that faults. -/
theorem trapInstruction_witness :
    (∃ f, (busy.setReg .sp 0).trapEntry busy.params.vectors.emt = .fault f ∧
      (busy.setReg .sp 0).trapEntry busy.params.vectors.trap = .fault f ∧
      (busy.setReg .sp 0).trapEntry busy.params.vectors.iot = .fault f ∧
      (busy.setReg .sp 0).trapEntry busy.params.vectors.bpt = .fault f) ∧
    (∃ t, busy.trapEntry busy.params.vectors.emt = .ok () t) ∧ (∃ t, busy.trapEntry busy.params.vectors.trap = .ok () t) ∧
    (∃ t, busy.trapEntry busy.params.vectors.iot = .ok () t) ∧ (∃ t, busy.trapEntry busy.params.vectors.bpt = .ok () t) :=
  ⟨⟨_, rfl, rfl, rfl, rfl⟩, ⟨_, rfl⟩, ⟨_, rfl⟩, ⟨_, rfl⟩, ⟨_, rfl⟩⟩

/-- TrapEntryInMemory and TrapReturnUndoesTrapEntry. -/
theorem trapEntry_witness :
    busy.mem.wf = true ∧ busy.psw &&& ~~~busy.pswBits = 0 ∧
    busy.memoryAt .word (busy.reg .sp - 2) .ram 0o776 ∧ busy.memoryAt .word (busy.reg .sp - 4) .ram 0o774 ∧
    busy.memoryAt .word 0o30 .ram 0o30 ∧ busy.memoryAt .word (0o30 + 2) .ram 0o32 ∧
    (∀ x ∈ [0o776, 0o774], ∀ y ∈ [0o30, 0o32], x + 1 < y ∨ y + 1 < x) ∧ (0o776 + 1 < 0o774 ∨ 0o774 + 1 < 0o776) ∧
    ∃ t, busy.trapEntry 0o30 = .ok () t :=
  ⟨by decide, by decide, ⟨by decide, by decide, by decide⟩, ⟨by decide, by decide, by decide⟩,
    ⟨by decide, by decide, by decide⟩, ⟨by decide, by decide, by decide⟩, by decide, by decide, _, rfl⟩

/-- ReturnFromTrapResult: RTT on the states of the witness; both pops, none, and only the first. -/
theorem returnFromTrap_witness :
    (Instr.rtt = .rti ∨ (Instr.rtt = .rtt ∧ busy.params.unnamedOpcodes = .execute)) ∧
    ((busy.setReg .sp 0o160000).params.unnamedOpcodes = .execute ∧ (busy.setReg .sp 0o157776).params.unnamedOpcodes = .execute) ∧
    (∃ npc s1 npsw s2, busy.pop = .ok npc s1 ∧ s1.pop = .ok npsw s2) ∧ (∃ s1, (busy.setReg .sp 0o160000).pop = .abandoned s1) ∧
    (∃ npc s1 s2, (busy.setReg .sp 0o157776).pop = .ok npc s1 ∧ s1.pop = .abandoned s2) :=
  ⟨.inr ⟨rfl, rfl⟩, ⟨rfl, rfl⟩, ⟨_, _, _, _, rfl, rfl⟩, ⟨_, rfl⟩, ⟨_, _, _, rfl, rfl⟩⟩

/-- StatusWordInstructionResult: MFPS to a register and to memory, MTPS. -/
theorem statusWord_witness :
    inReg.isSpPcRegister = false ∧ inReg.mode = .register ∧ inRam.isSpPcRegister = false ∧ inRam.mode ≠ .register ∧
    (∃ s1, busy.dstStore .byte inRam (busy.psw &&& 0x00ff) = .ok () s1) ∧ (∃ v s1, busy.srcRead .byte inRam = .ok v s1) :=
  ⟨rfl, rfl, rfl, by decide, ⟨_, rfl⟩, ⟨_, _, rfl⟩⟩

/-- DoubleBusErrorOnlyFromStackAndVectors: JSR on a stack outside memory, its push, a trap entry whose first push
fails, one whose second fails, and one whose vector is outside memory. -/
theorem doubleBusError_witness :
    (∃ t, exec (.jsr .r5 inRam) (busy.setReg .sp 0) = .fault (.doubleBusError t)) ∧
    (∃ t, (busy.setReg .sp 0).push 1 = .fault (.doubleBusError t)) ∧
    (∃ t, (busy.setReg .sp 0).trapEntry 0o30 = .fault (.doubleBusError t)) ∧
    (∃ t, (busy.setReg .sp 2).trapEntry 0o30 = .fault (.doubleBusError t)) ∧
    (∃ t, busy.trapEntry 0o160000 = .fault (.doubleBusError t)) :=
  ⟨⟨_, rfl⟩, ⟨_, rfl⟩, ⟨_, rfl⟩, ⟨_, rfl⟩, ⟨_, rfl⟩⟩

/-- StepRunsDecodedInstruction: an instruction that completes, one that faults, one that is refused, and one that a
device answers. -/
theorem stepRuns_witness :
    (∃ w u t, busy.runTimers.pendingEvent = none ∧ busy.runTimers.runState = .running ∧
      busy.runTimers.device (evenAddr (busy.runTimers.reg .pc)) = none ∧
      busy.runTimers.load .word (busy.runTimers.reg .pc) = (some w, u) ∧
      exec (decode w) (u.setReg .pc (u.reg .pc + 2)) = .next t) ∧
    (∃ w u f, let s := start 0 [3] [(.sp, 0)] []
      s.runTimers.pendingEvent = none ∧ s.runTimers.runState = .running ∧
      s.runTimers.device (evenAddr (s.runTimers.reg .pc)) = none ∧
      s.runTimers.load .word (s.runTimers.reg .pc) = (some w, u) ∧ exec (decode w) (u.setReg .pc (u.reg .pc + 2)) = .fault f) ∧
    (∃ w u r, let s := start 0 [0o105006] [] []
      s.runTimers.pendingEvent = none ∧ s.runTimers.runState = .running ∧
      s.runTimers.device (evenAddr (s.runTimers.reg .pc)) = none ∧
      s.runTimers.load .word (s.runTimers.reg .pc) = (some w, u) ∧
      exec (decode w) (u.setReg .pc (u.reg .pc + 2)) = .refused r) ∧
    (∃ w u t, let s := { State.reset with params := { defaultParams with deviceFetch := .deviceAnswers } }.setReg .pc 0o177130
      s.runTimers.pendingEvent = none ∧ s.runTimers.runState = .running ∧ s.params.deviceFetch = .deviceAnswers ∧
      s.runTimers.load .word (s.runTimers.reg .pc) = (some w, u) ∧
      exec (decode w) (u.setReg .pc (u.reg .pc + 2)) = .next t) :=
  ⟨⟨_, _, _, rfl, rfl, rfl, rfl, rfl⟩, ⟨_, _, _, rfl, rfl, rfl, rfl, rfl⟩, ⟨_, _, _, rfl, rfl, rfl, rfl, rfl⟩,
    ⟨_, _, _, rfl, rfl, rfl, rfl, rfl⟩⟩

/-- FetchBusErrorLeavesPc: nothing at PC, and a device at PC. -/
theorem fetchBusError_witness :
    (∃ u, let s := start 0 [] [(.pc, 0o160000)] []
      s.runTimers.pendingEvent = none ∧ s.runTimers.runState = .running ∧
      s.runTimers.load .word (s.runTimers.reg .pc) = (none, u)) ∧
    (let s := State.reset.setReg .pc 0o177717
     s.runTimers.pendingEvent = none ∧ s.runTimers.runState = .running ∧
      s.runTimers.device (evenAddr (s.runTimers.reg .pc)) ≠ none ∧ s.params.deviceFetch = .busError) :=
  ⟨⟨_, rfl, rfl, rfl⟩, by decide⟩

/-- EventPriority: each clause, every lower event pending too. -/
theorem eventPriority_witness :
    (∃ s : State, s.runTimers.req.busError = true ∧ s.runTimers.req.reserved = true) ∧
    (∃ s : State, s.runTimers.req.busError = false ∧ s.runTimers.req.reserved = true ∧ s.runTimers.req.trace = true) ∧
    (∃ s : State, s.runTimers.req.busError = false ∧ s.runTimers.req.reserved = false ∧ s.runTimers.req.trace = true ∧
      s.runTimers.req.irq1 = true) ∧
    (∃ s : State, s.runTimers.req = { noRequests with irq1 := true, irq2 := true, virq := some 0o60 } ∧
      s.runTimers.psw.getLsbD 7 = true) ∧
    (∃ s : State, s.runTimers.req = { noRequests with irq1 := true, irq2 := true, virq := some 0o60 } ∧
      s.runTimers.psw.getLsbD 7 = false) ∧
    (∃ s : State, s.runTimers.req = { noRequests with irq2 := true, virq := some 0o60 } ∧ s.runTimers.psw.getLsbD 7 = false) ∧
    (∃ s : State, s.runTimers.req = { noRequests with virq := some 0o60 } ∧ s.runTimers.psw.getLsbD 7 = false) :=
  ⟨⟨{ busy with req := { noRequests with busError := true, reserved := true } }, rfl, rfl⟩,
    ⟨{ busy with req := { noRequests with reserved := true, trace := true } }, rfl, rfl, rfl⟩,
    ⟨{ busy with req := { noRequests with trace := true, irq1 := true } }, rfl, rfl, rfl, rfl⟩,
    ⟨{ busyWith 0o200 with req := { noRequests with irq1 := true, irq2 := true, virq := some 0o60 } }, rfl, rfl⟩,
    ⟨{ busy with req := { noRequests with irq1 := true, irq2 := true, virq := some 0o60 } }, rfl, rfl⟩,
    ⟨{ busy with req := { noRequests with irq2 := true, virq := some 0o60 } }, rfl, rfl⟩,
    ⟨{ busy with req := { noRequests with virq := some 0o60 } }, rfl, rfl⟩⟩

/-- IdleTicks: halted with a masked request, waiting with one and with none. -/
theorem idleTicks_witness :
    (∃ s : State, s.runTimers.pendingEvent = none ∧ s.runTimers.runState = .halted ∧ s.runTimers.req.irq2 = true) ∧
    (∃ s : State, s.runTimers.pendingEvent = none ∧ s.runTimers.runState = .waiting ∧ s.runTimers.req.irq2 = true) ∧
    (∃ s : State, s.runTimers.pendingEvent = none ∧ s.runTimers.runState = .waiting ∧ s.runTimers.req = noRequests) :=
  ⟨⟨{ busyWith 0o200 with runState := .halted, req := { noRequests with irq2 := true } }, rfl, rfl, rfl⟩,
    ⟨{ busyWith 0o200 with runState := .waiting, req := { noRequests with irq2 := true } }, rfl, rfl, rfl⟩,
    ⟨{ busy with runState := .waiting }, rfl, rfl, rfl⟩⟩

/-- TimeNeverGoesBack: a step that takes no event, and one that takes one. -/
theorem time_witness :
    (busy.runTimers.pendingEvent = none ∧ ∃ t, step busy = .next t) ∧
    ∃ t, step { busy with req := { noRequests with busError := true } } = .next t :=
  ⟨⟨rfl, stepsOn_next (by decide)⟩, stepsOn_next (by decide)⟩

/-- RequestsAreLatched, the system timer: the last tick before a period and its end, on each line. -/
theorem systemTimer_witness :
    (∃ s : State, s.cpuTime - s.timerLast < s.params.clockHz / 50 ∧ s.cpuTime = 59999) ∧
    (∃ s : State, s.params.clockHz / 50 ≤ s.cpuTime - s.timerLast ∧ s.cpuTime = 60000 ∧ s.params.timerLine = .irq2) ∧
    (∃ s : State, s.params.clockHz / 50 ≤ s.cpuTime - s.timerLast ∧ s.params.timerLine = .irq1) :=
  ⟨⟨{ State.reset with cpuTime := 59999 }, by decide, rfl⟩, ⟨{ State.reset with cpuTime := 60000 }, by decide, rfl, rfl⟩,
    ⟨{ State.reset with cpuTime := 60000, params := { defaultParams with timerLine := .irq1 } }, by decide, rfl⟩⟩

/-- HostResetResult: a cell that is not RAM, and a drawn byte of RAM, the last. -/
theorem hostReset_witness :
    State.reset.mem.wf = true ∧ ([(0o077777, (7 : Byte))].map Prod.fst).Nodup ∧
      (0o077777, (7 : Byte)) ∈ [(0o077777, (7 : Byte))] ∧ Params.hasCell State.reset.params .ram 0o077777 = true ∧
      Params.hasCell State.reset.params .ram 0o100000 = false := by decide

/-- RegisterFrame, StatusWordFrame, ControlStateFrame and MemoryFrame: an instruction that completes, a register it
does not touch, one that keeps PSW, one that keeps C, and a cell beside the stored ones. -/
theorem frames_witness :
    (∃ t, exec (.inc inRam) busy = .next t) ∧ Reg.r1 ≠ .pc ∧ Reg.r1 ∉ (Instr.inc inRam).touched ∧
    (∃ t, exec (.jsr .r5 inRam) busy = .next t) ∧ (Instr.jsr .r5 inRam).keepsPsw = true ∧
    (Instr.inc inRam).loadsPsw = false ∧ (Instr.inc inRam).keepsCarry = true ∧ (Instr.inc inRam).setsRunState = false ∧
    (Instr.inc inRam).raisesReserved = false ∧ 0o2002 ∉ busy.storedCells (.inc inRam) ∧
    0o2000 ∈ busy.storedCells (.inc inRam) ∧ 0o774 ∉ busy.storedCells (.jsr .r5 inRam) ∧
    0o776 ∈ busy.storedCells (.jsr .r5 inRam) :=
  ⟨⟨_, rfl⟩, by decide, by decide, ⟨_, rfl⟩, rfl, rfl, rfl, rfl, rfl, by decide, by decide, by decide, by decide⟩

/-- ControlStateFrame: latches set before an instruction. -/
theorem latches_witness :
    ∃ s t : State, exec (.inc inRam) s = .next t ∧ s.req.busError = true ∧ s.req.reserved = true :=
  ⟨{ busy with req := { noRequests with busError := true, reserved := true } }, _, rfl, rfl, rfl⟩

/-- DeviceFrame: an instruction on a machine without devices. -/
theorem deviceFrame_witness : busy.params.devices = [] ∧ (∃ t, exec (.inc inRam) busy = .next t) ∧ Instr.inc inRam ≠ .reset :=
  ⟨rfl, ⟨_, rfl⟩, nofun⟩

/-- StepsAndHostActionsKeepInvariant: a state that meets the invariant and steps on. -/
theorem keepsInvariant_witness : busy.Inv ∧ ∃ t, step busy = .next t :=
  ⟨⟨by decide, by decide, ⟨nofun, nofun⟩, fun _ => rfl, by decide, Floppy.Ok.powerOn _, Ide.Ok.powerOn⟩, stepsOn_next (by decide)⟩

/-- FloppyRotation: the last tick of a rotation. -/
theorem floppyRotation_witness : 599999 < floppyClock.wordsPerTrack * floppyClock.ticksPerWord := by decide

/-- FloppyWordRoundTrip: a protected drive, no drive, and a writable one with the head on the last word, a rotation
later too. -/
theorem floppyWord_witness :
    (smallFloppy true).writable = false ∧ Floppy.powerOn.writable = false ∧ (smallFloppy false).writable = true ∧
      headPos shortTrack (3 * 192) = 3 ∧ headPos shortTrack (3 * 192) < (smallFloppy false).buffer.length ∧
      1 < shortTrack.wordsPerTrack ∧ headPos shortTrack (8 * 192 - 1) = headPos shortTrack (3 * 192) := by decide

/-- IdentifyReportsTheDrive. -/
theorem identify_witness :
    defaultIde.layout = defaultLayout ∧ commandOf defaultIde 0xec = some .identify ∧ ∃ d, disk.drive = some d :=
  ⟨rfl, by decide, _, rfl⟩

/-- The hypotheses of WriteMultipleOfFiveByFour on an interface. -/
def fiveByFour (i : IdeInterface) : Prop :=
  commandOf defaultIde 0xc5 = some .writeMultiple ∧ i.drive = disk.drive ∧ i.multiple = 4 ∧ i.sectorCount = 5 ∧
    defaultIde.headBit = 0 ∧ defaultIde.headWidth = 4 ∧ 4 ≤ defaultIde.lbaBit ∧ i.addressable defaultIde 5 = true ∧
    (i.lbaMode defaultIde = true → i.lba defaultIde + 5 ≤ 0x10000000) ∧
    (i.lbaMode defaultIde = false → 1 ≤ i.geometry.sectors ∧ i.geometry.sectors ≤ 255 ∧ 1 ≤ i.geometry.heads ∧
      i.geometry.heads ≤ 16 ∧ i.lba defaultIde + 5 ≤ 65536 * i.geometry.heads * i.geometry.sectors)

/-- WriteMultipleOfFiveByFour: the last five sectors of the drive in LBA mode, and in cylinder, head and sector. -/
theorem writeMultiple_witness :
    (∃ i : IdeInterface, fiveByFour i ∧ i.lbaMode defaultIde = true ∧ i.lba defaultIde + 5 = 1032192) ∧
      ∃ i : IdeInterface, fiveByFour i ∧ i.lbaMode defaultIde = false ∧ i.lba defaultIde + 5 = 1032192 := by
  unfold fiveByFour
  exact ⟨⟨{ disk with
      multiple := 4, sectorCount := 5, driveHead := 0x40, cylHigh := 0x0f, cylLow := 0xbf, sectorNumber := 0xfb }, by decide⟩,
    ⟨{ disk with multiple := 4, sectorCount := 5, driveHead := 0x0f, cylHigh := 3, cylLow := 0xff, sectorNumber := 59 },
      by decide⟩⟩

/-- IdeAbort: no drive, and an unsupported code. -/
theorem ideAbort_witness : IdeInterface.blank.drive = none ∧ commandOf defaultIde 0xff = none := by decide

end Sys2Proof.Tests
end

/-! ## Abandoned instructions keep the status (00_scope.md R11, R12; 10_state.md R32) -/

namespace Sys2Proof.Machine

/-- Neither BusError nor ReservedInstruction has been raised. -/
def State.unraised (s : State) : Prop := s.req.busError = false ∧ s.req.reserved = false

/-- While an instruction that began in `s` runs, up to its last action: the status word and the run state are those of
`s`, and no exception has been raised. -/
structure State.StatusPending (s t : State) : Prop where
  psw : t.psw = s.psw
  runState : t.runState = s.runState
  unraised : t.unraised

/-- After an instruction that began in `s`: if it raised an exception, the status word and the run state are those of
`s`. -/
def State.StatusKeptIfRaised (s t : State) : Prop :=
  t.req.busError = true ∨ t.req.reserved = true → t.psw = s.psw ∧ t.runState = s.runState

theorem SameCpu.statusPending {s t u : State} (h : SameCpu t u) (ht : s.StatusPending t) : s.StatusPending u where
  psw := h.psw.trans ht.psw
  runState := h.runState.trans ht.runState
  unraised := ⟨h.busError.trans ht.unraised.1, h.reserved.trans ht.unraised.2⟩

/-- An end without an exception may leave any status. -/
theorem State.unraised.statusKeptIfRaised {s t : State} (h : t.unraised) : s.StatusKeptIfRaised t := by
  obtain ⟨hbus, hreserved⟩ := h
  rintro (e | e)
  · exact absurd e (by simp [hbus])
  · exact absurd e (by simp [hreserved])

/-- An instruction writes the status word or the run state only as its last action, on a path that raises nothing; a path
that ends by raising an exception has written neither. -/
theorem closed_statusKeptIfRaised (i : Instr) (s : State) : Closed i s.StatusPending s.StatusKeptIfRaised where
  load t w a ht := (SameCpu.load t w a).statusPending ht
  store t w a v _ ht := (SameCpu.store t w a v).statusPending ht
  setReg _ _ _ _ ht := ⟨ht.psw, ht.runState, ht.unraised⟩
  reset t _ ht := ((SameCpu.initDevices false t).trans (SameCpu.clearIrqs _)).statusPending ht
  psw t v _ ht := State.unraised.statusKeptIfRaised (t := { t with psw := v }) ht.unraised
  enter t v r _ _ ht := State.unraised.statusKeptIfRaised (t := { t with psw := v, runState := r }) ht.unraised
  run t r _ ht := State.unraised.statusKeptIfRaised (t := { t with runState := r }) ht.unraised
  bus _ ht _ := ⟨ht.psw, ht.runState⟩
  reserved _ _ ht _ := ⟨ht.psw, ht.runState⟩
  done _ ht _ := ⟨ht.psw, ht.runState⟩

/-- Settles O17, by the closure of every instruction under the actions it may take. -/
theorem abandonedInstructionKeepsStatus : Obligations.AbandonedInstructionKeepsStatus := by
  intro i s t hexec hbus hreserved
  have hstart : s.StatusPending s := ⟨rfl, rfl, hbus, hreserved⟩
  exact (exec_closed i (closed_statusKeptIfRaised i s) hstart).next hexec

end Sys2Proof.Machine

/-! ## The invariant of the machine (10_state.md R31, R50; 60_exceptions.md R318, R320; 61_bus_timebase.md R364) -/

namespace Sys2Proof.Machine

/-! ### The invariant from its core -/

/-- With no latch of the instruction stream set, the core of the invariant is the whole of it. -/
theorem State.Core.inv_of_quiet {s : State} (h : s.Core) (hq : s.req.quiet) : s.Inv := by
  obtain ⟨hbus, hreserved, htrace⟩ := hq
  exact { h with
    latches := ⟨fun _ => ⟨hreserved, htrace⟩, fun _ => htrace⟩
    running := fun e => by simp [hbus, hreserved] at e }

/-- A change outside the processor that keeps the core of the invariant keeps the invariant. -/
theorem State.Inv.of_sameCpu {s t : State} (h : s.Inv) (hc : t.Core) (he : SameCpu s t) : t.Inv :=
  { hc with
    latches := by unfold Requests.exclusive; rw [he.busError, he.reserved, he.trace]; exact h.latches
    running := by rw [he.busError, he.reserved, he.runState]; exact h.running }

theorem State.After.inv {s : State} (h : s.After) : s.Inv :=
  { h.toCore with
    latches := ⟨fun e => ⟨h.one e, h.notrace⟩, fun _ => h.notrace⟩
    running := h.running }

/-! ### One step -/

/-- Taking an event sets no latch. -/
theorem Requests.quiet.accept {s : State} (h : s.req.quiet) (e : Event) : (s.accept e).req.quiet := by
  obtain ⟨hbus, hreserved, htrace⟩ := h
  cases e with
  | busError => exact ⟨rfl, hreserved, htrace⟩
  | reserved => exact ⟨hbus, rfl, htrace⟩
  | trace => exact ⟨hbus, hreserved, rfl⟩
  | irq1 | irq2 | virq _ => exact ⟨hbus, hreserved, htrace⟩

/-- R318: the dispatch takes a latch of the instruction stream first, and at most one is set; once the latch of the event
taken is cleared, none is. -/
theorem State.accept_quiet {s : State} {e : Event} (h : s.Inv) (he : s.pendingEvent = some e) :
    (s.accept e).req.quiet := by
  cases hbus : s.req.busError with
  | true =>
    obtain rfl : Event.busError = e := by simpa [State.pendingEvent, hbus] using he
    exact ⟨rfl, h.latches.1 hbus⟩
  | false =>
    cases hreserved : s.req.reserved with
    | true =>
      obtain rfl : Event.reserved = e := by simpa [State.pendingEvent, hbus, hreserved] using he
      exact ⟨hbus, rfl, h.latches.2 hreserved⟩
    | false =>
      cases htrace : s.req.trace with
      | true =>
        obtain rfl : Event.trace = e := by simpa [State.pendingEvent, hbus, hreserved, htrace] using he
        exact ⟨hbus, hreserved, rfl⟩
      | false => exact Requests.quiet.accept ⟨hbus, hreserved, htrace⟩ e

/-- No latch of the instruction stream is set when the dispatch finds no event. -/
theorem State.quiet_of_no_event {s : State} (h : s.pendingEvent = none) : s.req.quiet := by
  unfold State.pendingEvent at h
  split at h
  · cases h
  · split at h
    · cases h
    · split at h
      · cases h
      · exact ⟨Bool.eq_false_iff.2 ‹_›, Bool.eq_false_iff.2 ‹_›, Bool.eq_false_iff.2 ‹_›⟩

theorem State.Core.accept {s : State} (h : s.Core) (e : Event) : (s.accept e).Core := by
  cases e <;> exact ⟨h.memory, h.status, h.timer, h.floppy, h.ide⟩

theorem State.accept_cpuTime (s : State) (e : Event) : (s.accept e).cpuTime = s.cpuTime := by cases e <;> rfl

/-- R322: taking an event is a trap entry, and one that goes on has gone through. -/
theorem State.takeEvent_next {s t : State} {e : Event} (h : s.takeEvent e = .next t) :
    (s.accept e).trapEntry (eventVector s.params.vectors e) = .ok () t := by
  unfold State.takeEvent at h
  cases he : (s.accept e).trapEntry (eventVector s.params.vectors e) with
  | ok u x => rw [he] at h; cases h; rfl
  | abandoned x => exact (State.trapEntry_never_abandoned _ _ x he).elim
  | fault f => rw [he] at h; cases h
  | refused r => rw [he] at h; cases h

theorem State.takeEvent_cpuTime {s t : State} {e : Event} (h : s.takeEvent e = .next t) : t.cpuTime = s.cpuTime :=
  (State.trapEntry_cpuTime (State.takeEvent_next h)).trans (s.accept_cpuTime e)

theorem State.Inv.takeEvent {s t : State} {e : Event} (h : s.Inv) (he : s.pendingEvent = some e)
    (ht : s.takeEvent e = .next t) : t.Inv := by
  have hentry := State.takeEvent_next ht
  obtain ⟨hbus, hreserved, htrace⟩ := State.accept_quiet h he
  obtain ⟨kbus, kreserved, ktrace⟩ := State.trapEntry_latches hentry
  exact ((h.core.accept e).trapEntry hentry).inv_of_quiet
    ⟨kbus.trans hbus, kreserved.trans hreserved, ktrace.trans htrace⟩

theorem State.endWait_cpuTime (s : State) : s.endWait.cpuTime = s.cpuTime := by
  unfold State.endWait
  split <;> rfl

/-- R317: the end of a wait sets the run state only. -/
theorem State.Core.endWait_inv {s : State} (h : s.Core) (hq : s.req.quiet) : s.endWait.Inv := by
  unfold State.endWait
  split
  · exact State.Core.inv_of_quiet ⟨h.memory, h.status, h.timer, h.floppy, h.ide⟩ hq
  · exact h.inv_of_quiet hq

theorem State.Run.fetch {s : State} (h : s.Run) : s.fetch.2.Run := h.of h.toCore.fetch (SameCpu.fetch s)

theorem State.Run.advancePc {s : State} (h : s.Run) : s.advancePc.Run :=
  ⟨⟨h.memory, h.status, h.timer, h.floppy, h.ide⟩, h.quiet, h.running⟩

theorem runInstr_next {i : Instr} {s t : State} (h : runInstr i s = .next t) :
    ∃ u, exec i s = .next u ∧ t = u.traceCheck i := by
  unfold runInstr at h
  split at h
  · rename_i u e
    cases h
    exact ⟨u, e, rfl⟩
  · cases h
  · cases h

theorem State.Run.runInstr {i : Instr} {s t : State} (h : s.Run) (ht : runInstr i s = .next t) :
    t.Inv ∧ t.cpuTime = s.cpuTime := by
  obtain ⟨u, hu, rfl⟩ := runInstr_next ht
  have hafter : u.After := (exec_closed i (run_closed i) h).next hu
  exact ⟨hafter.inv_trace i, (traceCheck_cpuTime u i).trans (exec_cpuTime hu)⟩

/-- R321: one instruction, from its fetch to the advance of the time. -/
theorem State.Run.fetchDecodeExecute {s t : State} (h : s.Run)
    (ht : fetchDecodeExecute s.cpuTime s = .next t) : t.Inv := by
  have hrun := h.fetch
  have htime := (SameCpu.fetch s).cpuTime
  unfold Machine.fetchDecodeExecute at ht
  split at ht
  · rename_i u e
    rw [e] at hrun htime
    obtain ⟨v, hv, rfl⟩ := charge_next ht
    cases hv
    exact ((run_closed .halt).bus u hrun).inv.charge htime
  · rename_i w u e
    rw [e] at hrun htime
    obtain ⟨v, hv, rfl⟩ := charge_next ht
    obtain ⟨hinv, hv⟩ := hrun.advancePc.runInstr hv
    exact hinv.charge (hv.trans htime)

/-- R320: a step keeps the invariant, whether it takes an event, idles or runs an instruction. -/
theorem State.Inv.step {s t : State} (h : s.Inv) (ht : step s = .next t) : t.Inv := by
  have hinv := inv_runTimers h
  have htime := (SameCpu.runTimers s).cpuTime
  unfold Machine.step at ht
  dsimp only at ht
  split at ht
  · rename_i e he
    obtain ⟨u, hu, rfl⟩ := charge_next ht
    exact (hinv.takeEvent he hu).charge ((State.takeEvent_cpuTime hu).trans htime)
  · rename_i he
    have hquiet := State.quiet_of_no_event he
    split at ht
    · obtain ⟨u, hu, rfl⟩ := charge_next ht
      cases hu
      exact hinv.charge htime
    · obtain ⟨u, hu, rfl⟩ := charge_next ht
      cases hu
      exact (hinv.core.endWait_inv hquiet).charge ((State.endWait_cpuTime _).trans htime)
    · rename_i hrunning
      rw [← htime] at ht
      exact State.Run.fetchDecodeExecute ⟨hinv.core, hquiet, hrunning⟩ ht

/-! ### The host's actions -/

theorem State.Inv.raise {s : State} (h : s.Inv) (r : Raise) : (s.raise r).Inv :=
  h.of_sameCpu (h.core.raise r) (SameCpu.raise s r)

theorem State.Inv.logCall {s : State} (h : s.Inv) (d : DevId) (c : DevCall) : (s.logCall d c).Inv :=
  h.of_sameCpu (h.core.of_same (SameCpu.logCall s d c) rfl rfl rfl rfl) (SameCpu.logCall s d c)

theorem State.Inv.withFloppy {s : State} (h : s.Inv) {f : Floppy} (hf : f.Ok s.params.floppyParams) :
    ({ s with floppy := f } : State).Inv := { h with floppy := hf }

theorem State.Inv.withIde {s : State} (h : s.Inv) {d : Ide} (hd : d.Ok) : ({ s with ide := d } : State).Inv :=
  { h with ide := hd }

theorem State.Inv.loadRom {s : State} (h : s.Inv) (cells : List Host.Cell) : (s.loadRom cells).Inv := by
  unfold State.loadRom
  split
  · exact { h with memory := wf_loadCells _ cells h.memory }
  · exact h

/-- R364, R450: every action of the host keeps the invariant. -/
theorem State.Inv.hostAct {s : State} (h : s.Inv) (a : HostAction) : (hostAct a s).Inv := by
  cases a with
  | raiseIrq1 => exact h.raise (.line .irq1)
  | raiseIrq2 => exact h.raise (.line .irq2)
  | raiseVirq v => exact h.raise (.virq v)
  | keyPress v => exact (h.logCall .keyboardController (.key s.cpuTime v)).raise (.virq v)
  | mountFloppy l img protect => exact h.withFloppy (h.floppy.setDrive l ((h.floppy.drives l).mount img protect))
  | unmountFloppy l => exact h.withFloppy (h.floppy.setDrive l (h.floppy.drives l).unmount)
  | attachIde second drv =>
    refine h.withIde ?_
    split
    · exact { h.ide with second := .init _ }
    · exact { h.ide with first := .init _ }
  | loadRom cells => exact h.loadRom cells
  | reset => exact h.core.hostReset.inv_of_quiet ⟨rfl, rfl, rfl⟩
  | powerOn d => exact (h.core.powerOn d).inv_of_quiet ⟨rfl, rfl, rfl⟩

/-- Settles O54: a step is one of an event, an idle tick and an instruction, and each keeps the invariant; so does each
action of the host. -/
theorem stepsAndHostActionsKeepInvariant : Obligations.StepsAndHostActionsKeepInvariant :=
  ⟨fun _ _ h ht => h.step ht, fun a _ h => h.hostAct a⟩

/-- Settles O55: at power-on no latch is set, the status word is masked, and the controllers are in their first states. -/
theorem resetHasInvariant : Obligations.ResetHasInvariant :=
  State.Core.inv_of_quiet
    { memory := Memory.wf_nil
      status := masked_bits _ _
      timer := Nat.le_refl _
      floppy := .powerOn _
      ide := .powerOn }
    ⟨rfl, rfl, rfl⟩

end Sys2Proof.Machine

/-! ## What an instruction leaves unchanged (10_state.md R20 to R45; 60_exceptions.md R303) -/

namespace Sys2Proof.Machine

/-- Settles O6, by the read of a register after a write. -/
theorem registerReadAfterWrite : Obligations.RegisterReadAfterWrite := fun s r q v => s.reg_setReg r q v

/-! ### Registers -/

/-- A register other than PC that the instruction does not touch keeps its value through every action of it. -/
theorem closed_reg {i : Instr} {r : Reg} (hpc : r ≠ .pc) (hr : r ∉ i.touched) (v : Word) :
    Closed i (fun t => t.reg r = v) (fun t => t.reg r = v) where
  load t w a ht := ((SameCpu.load t w a).reg r).trans ht
  store t w a x _ ht := ((SameCpu.store t w a x).reg r).trans ht
  setReg t q x hq ht := by
    have hne : r ≠ q := by
      rintro rfl
      exact hq.elim hpc hr
    exact (t.reg_setReg_of_ne q r x hne).trans ht
  psw _ _ _ ht := ht
  enter _ _ _ _ _ ht := ht
  run _ _ _ ht := ht
  reset t _ ht := (((SameCpu.initDevices false t).trans (SameCpu.clearIrqs _)).reg r).trans ht
  bus _ ht := ht
  reserved _ _ ht := ht
  done _ ht := ht

/-- Settles O49, by the closure of every instruction under the actions it may take. -/
theorem registerFrame : Obligations.RegisterFrame :=
  fun i s _ r hexec hpc hr => (exec_closed i (closed_reg hpc hr (s.reg r)) rfl).next hexec

/-! ### The status word -/

/-- What an instruction leaves of the status word `old` when it ends with `new` (R32, R210, R230). -/
structure PswKept (i : Instr) (old new : Word) : Prop where
  whole : i.keepsPsw = true → new = old
  high : i.loadsPsw = false → new &&& 0xfff0 = old &&& 0xfff0
  carry : i.keepsCarry = true → new.getLsbD 0 = old.getLsbD 0

theorem PswKept.refl (i : Instr) (psw : Word) : PswKept i psw psw := ⟨fun _ => rfl, fun _ => rfl, fun _ => rfl⟩

theorem pswMayBecome.pswKept {i : Instr} {s : State} {v : Word} (h : pswMayBecome i s v) : PswKept i s.psw v := by
  obtain ⟨hkeeps, _, hhigh, hcarry⟩ := h
  exact ⟨fun e => by simp [hkeeps] at e, hhigh, hcarry⟩

/-- The status word is written once, as the last action, and only with what the instruction may write there. -/
theorem closed_psw_kept (i : Instr) (psw : Word) : Closed i (fun t => t.psw = psw) (fun t => PswKept i psw t.psw) where
  load t w a ht := (SameCpu.load t w a).psw.trans ht
  store t w a v _ ht := (SameCpu.store t w a v).psw.trans ht
  setReg _ _ _ _ ht := ht
  psw _ _ hv ht := ht ▸ hv.pswKept
  enter _ _ _ _ hv ht := ht ▸ hv.pswKept
  run _ _ _ ht := ht ▸ .refl i _
  reset t _ ht := ((SameCpu.initDevices false t).trans (SameCpu.clearIrqs _)).psw.trans ht
  bus _ ht := ht ▸ .refl i _
  reserved _ _ ht := ht ▸ .refl i _
  done _ ht := ht ▸ .refl i _

/-- Settles O50, by the closure of every instruction under the actions it may take. -/
theorem statusWordFrame : Obligations.StatusWordFrame := by
  intro i s t hexec
  obtain ⟨hwhole, hhigh, hcarry⟩ := (exec_closed i (closed_psw_kept i s.psw) rfl).next hexec
  exact ⟨hwhole, hhigh, hcarry⟩

/-! ### Latches, run state, time and parameters -/

/-- While an instruction that began in `s` runs, up to its last action: the control state is that of `s`, but for the
interrupt requests, and for the timer's stored time in RESET. -/
structure State.ControlPending (i : Instr) (s t : State) : Prop where
  cpuTime : t.cpuTime = s.cpuTime
  params : t.params = s.params
  trace : t.req.trace = s.req.trace
  busError : t.req.busError = s.req.busError
  reserved : t.req.reserved = s.req.reserved
  runState : t.runState = s.runState
  timer : i ≠ .reset → t.timerLast = s.timerLast

/-- After an instruction that began in `s`: its last action may have raised an exception or set the run state. -/
structure State.ControlKept (i : Instr) (s t : State) : Prop where
  cpuTime : t.cpuTime = s.cpuTime
  params : t.params = s.params
  trace : t.req.trace = s.req.trace
  busError : s.req.busError = true → t.req.busError = true
  reserved : s.req.reserved = true → t.req.reserved = true
  runState : i.setsRunState = false → t.runState = s.runState
  unreserved : i.raisesReserved = false → t.req.reserved = s.req.reserved
  timer : i ≠ .reset → t.timerLast = s.timerLast

section
variable {i : Instr} {s t u : State}

theorem SameCpu.controlPending (h : SameCpu t u) (ht : s.ControlPending i t)
    (htimer : i ≠ .reset → u.timerLast = t.timerLast) : s.ControlPending i u where
  cpuTime := h.cpuTime.trans ht.cpuTime
  params := h.params.trans ht.params
  trace := h.trace.trans ht.trace
  busError := h.busError.trans ht.busError
  reserved := h.reserved.trans ht.reserved
  runState := h.runState.trans ht.runState
  timer hi := (htimer hi).trans (ht.timer hi)

theorem State.ControlPending.refl (i : Instr) (s : State) : s.ControlPending i s :=
  ⟨rfl, rfl, rfl, rfl, rfl, rfl, fun _ => rfl⟩

theorem State.ControlPending.kept (ht : s.ControlPending i t) : s.ControlKept i t where
  cpuTime := ht.cpuTime
  params := ht.params
  trace := ht.trace
  busError := ht.busError.trans
  reserved := ht.reserved.trans
  runState _ := ht.runState
  unreserved _ := ht.reserved
  timer := ht.timer

/-- The run state is set only by an instruction that may set it. -/
theorem State.ControlKept.withRunState (ht : s.ControlKept i t) (r : RunState) (hi : i.setsRunState = true) :
    s.ControlKept i { t with runState := r } :=
  { ht with runState := fun e => by simp [hi] at e }

theorem State.ControlKept.withPsw (ht : s.ControlKept i t) (v : Word) : s.ControlKept i { t with psw := v } :=
  { ht with }

theorem State.ControlKept.raiseBusError (ht : s.ControlKept i t) : s.ControlKept i t.raiseBusError :=
  { ht with busError := fun _ => rfl }

theorem State.ControlKept.raiseReserved (ht : s.ControlKept i t) (hi : i.raisesReserved = true) :
    s.ControlKept i t.raiseReserved :=
  { ht with reserved := fun _ => rfl, unreserved := fun e => by simp [hi] at e }

end

theorem closed_control (i : Instr) (s : State) : Closed i (s.ControlPending i) (s.ControlKept i) where
  load t w a ht := (SameCpu.load t w a).controlPending ht fun _ => State.load_timerLast t w a
  store t w a v _ ht := (SameCpu.store t w a v).controlPending ht fun _ => State.store_timerLast t w a v
  setReg _ _ _ _ ht := { ht with }
  psw _ v _ ht := ht.kept.withPsw v
  enter _ v r hi _ ht := (ht.kept.withPsw v).withRunState r hi
  run _ r hi ht := ht.kept.withRunState r hi
  reset t hi ht := ((SameCpu.initDevices false t).trans (SameCpu.clearIrqs _)).controlPending ht fun hn => absurd hi hn
  bus _ ht := ht.kept.raiseBusError
  reserved _ hi ht := ht.kept.raiseReserved hi
  done _ ht := ht.kept

/-- Settles O51, by the closure of every instruction under the actions it may take. -/
theorem controlStateFrame : Obligations.ControlStateFrame := by
  intro i s t hexec
  have h := (exec_closed i (closed_control i s) (.refl i s)).next hexec
  exact ⟨h.cpuTime, h.params, h.trace, h.busError, h.reserved, h.runState, h.unreserved, h.timer⟩

end Sys2Proof.Machine

/-! ## Which instructions are refused (10_state.md R24; 30_encoding.md R106; 47_unnamed_extensions.md R270) -/

namespace Sys2Proof.Machine

/-! ### The refusal an operation ends in -/

/-- The refusal an operation ends in, if it ends in one. -/
def Res.refusal {α : Type} : Res α → Option Refusal
  | .refused r => some r
  | _ => none

/-- The refusal an instruction ends in, if it ends in one. -/
def outcomeRefusal : Host.Outcome State Fault Refusal → Option Refusal
  | .refused r => some r
  | _ => none

theorem outcomeRefusal_eq_some {x : Host.Outcome State Fault Refusal} {r : Refusal} :
    outcomeRefusal x = some r ↔ x = .refused r := by
  cases x <;> simp [outcomeRefusal]

theorem Res.outcomeRefusal_outcome (x : Res Unit) : outcomeRefusal x.outcome = x.refusal := by cases x <;> rfl

/-- What goes on without a refusal ends without one, whatever state it goes on in. -/
theorem Res.refusal_andThen {α β : Type} {x : Res α} {f : α → State → Res β} (hx : x.refusal = none)
    (hf : ∀ v t, (f v t).refusal = none) : (x.andThen f).refusal = none := by
  cases x with
  | ok v t => exact hf v t
  | abandoned t => rfl
  | fault e => rfl
  | refused r => cases hx

/-! ### No operation but the guards refuses -/

theorem State.refusal_read (s : State) (w : Width) (a : Word) : (s.read w a).refusal = none := by
  unfold State.read
  split <;> rfl

theorem State.refusal_write (s : State) (w : Width) (a v : Word) : (s.write w a v).refusal = none := by
  unfold State.write
  split <;> rfl

theorem State.refusal_push (s : State) (v : Word) : (s.push v).refusal = none := by
  unfold State.push
  split <;> rfl

theorem State.refusal_pop (s : State) : s.pop.refusal = none :=
  Res.refusal_andThen (s.refusal_read ..) fun _ _ => rfl

theorem State.refusal_readVector (s : State) (a : Word) : (s.readVector a).refusal = none := by
  unfold State.readVector
  split <;> rfl

theorem State.refusal_trapEntry (s : State) (vec : Word) : (s.trapEntry vec).refusal = none :=
  Res.refusal_andThen (s.refusal_push _) fun _ s1 =>
  Res.refusal_andThen (s1.refusal_push _) fun _ s2 =>
  Res.refusal_andThen (s2.refusal_readVector _) fun _ s3 =>
  Res.refusal_andThen (s3.refusal_readVector _) fun _ _ => rfl

theorem State.refusal_trapReturn (s : State) : s.trapReturn.refusal = none :=
  Res.refusal_andThen s.refusal_pop fun _ s1 => Res.refusal_andThen s1.refusal_pop fun _ _ => rfl

theorem State.refusal_fetchExtension (s : State) : s.fetchExtension.refusal = none :=
  Res.refusal_andThen (s.refusal_read ..) fun _ _ => rfl

theorem State.refusal_resolve (s : State) (w : Width) (o : Operand) : (s.resolve w o).refusal = none := by
  obtain ⟨m, r⟩ := o
  cases m with
  | register | deferred | autoInc | autoDec => rfl
  | autoIncDef | autoDecDef => exact Res.refusal_andThen (State.refusal_read ..) fun _ _ => rfl
  | index => exact Res.refusal_andThen s.refusal_fetchExtension fun _ _ => rfl
  | indexDef =>
    exact Res.refusal_andThen s.refusal_fetchExtension fun _ t =>
      Res.refusal_andThen (t.refusal_read ..) fun _ _ => rfl

theorem State.refusal_readLoc (s : State) (w : Width) (l : Loc) : (s.readLoc w l).refusal = none := by
  cases l with
  | reg r => cases w <;> rfl
  | mem a => exact s.refusal_read w a

theorem State.refusal_writeLoc (s : State) (w : Width) (l : Loc) (v : Word) : (s.writeLoc w l v).refusal = none := by
  cases l with
  | reg r => cases w <;> rfl
  | mem a => exact s.refusal_write w a v

theorem State.refusal_srcRead (s : State) (w : Width) (o : Operand) : (s.srcRead w o).refusal = none :=
  Res.refusal_andThen (s.refusal_resolve w o) fun _ t => Res.refusal_andThen (t.refusal_readLoc ..) fun _ _ => rfl

theorem State.refusal_dstRead (s : State) (w : Width) (o : Operand) : (s.dstRead w o).refusal = none :=
  Res.refusal_andThen (s.refusal_resolve w o) fun _ t => Res.refusal_andThen (t.refusal_readLoc ..) fun _ _ => rfl

theorem State.refusal_dstWrite (s : State) (w : Width) (p : Place) (v : Word) : (s.dstWrite w p v).refusal = none :=
  Res.refusal_andThen (s.refusal_writeLoc ..) fun _ _ => rfl

theorem State.refusal_dstStore (s : State) (w : Width) (o : Operand) (v : Word) : (s.dstStore w o v).refusal = none :=
  Res.refusal_andThen (s.refusal_resolve w o) fun p t => t.refusal_dstWrite w p v

theorem State.refusal_storeByteExtended (s : State) (o : Operand) (v : Word) :
    (s.storeByteExtended o v).refusal = none := by
  unfold State.storeByteExtended
  split
  · rfl
  · exact s.refusal_dstStore .byte o v

theorem State.refusal_effAddr (s : State) (o : Operand) : (s.effAddr o).refusal = none := by
  unfold State.effAddr
  split
  · rfl
  · refine Res.refusal_andThen (s.refusal_resolve .word o) fun p t => ?_
    split <;> rfl

/-! ### The guards and the shapes they stand in -/

/-- R24 (decision D21): what the guard of a byte form with these operands refuses. -/
def byteRefusal (w : Width) (os : List Operand) : Option Refusal :=
  if w = .byte ∧ os.any Operand.isSpPcRegister = true then some .byteRegisterSpPc else none

/-- R270 (decision D2): what the guard of an unnamed class refuses, and else the operation it stands before. -/
def unnamedRefusal (s : State) (r : Option Refusal) : Option Refusal :=
  if s.params.unnamedOpcodes = .refuse then some .unnamedOpcode else r

theorem refusal_guardBytes (w : Width) (os : List Operand) {x : Res Unit} (hx : x.refusal = none) :
    (guardBytes w os x).refusal = byteRefusal w os := by
  unfold guardBytes byteRefusal
  split
  · rfl
  · exact hx

theorem refusal_guardUnnamed (s : State) {x : Res Unit} {r : Option Refusal} (hx : x.refusal = r) :
    (guardUnnamed s x).refusal = unnamedRefusal s r := by
  unfold unnamedRefusal
  cases h : s.params.unnamedOpcodes with
  | execute => rw [guardUnnamed_execute h]; exact hx
  | refuse => rw [guardUnnamed_refuse h]; rfl

theorem refusal_doubleOp (w : Width) (src dst : Operand) (f : Word → Word → Bool → Alu) (s : State) :
    (doubleOp w src dst f s).refusal = byteRefusal w [src, dst] :=
  refusal_guardBytes w _ <|
  Res.refusal_andThen (s.refusal_srcRead w src) fun _ s1 =>
  Res.refusal_andThen (s1.refusal_dstRead w dst) fun _ s2 =>
  Res.refusal_andThen (s2.refusal_dstWrite ..) fun _ _ => rfl

theorem refusal_compareOp (w : Width) (src dst : Operand) (f : Word → Word → Bool → Alu) (s : State) :
    (compareOp w src dst f s).refusal = byteRefusal w [src, dst] :=
  refusal_guardBytes w _ <|
  Res.refusal_andThen (s.refusal_srcRead w src) fun _ s1 =>
  Res.refusal_andThen (s1.refusal_dstRead w dst) fun _ _ => rfl

theorem refusal_singleOp (w : Width) (dst : Operand) (f : Word → Bool → Alu) (s : State) :
    (singleOp w dst f s).refusal = byteRefusal w [dst] :=
  refusal_guardBytes w _ <|
  Res.refusal_andThen (s.refusal_dstRead w dst) fun _ s1 =>
  Res.refusal_andThen (s1.refusal_dstWrite ..) fun _ _ => rfl

theorem refusal_testOp (w : Width) (dst : Operand) (f : Word → Bool → Alu) (s : State) :
    (testOp w dst f s).refusal = byteRefusal w [dst] :=
  refusal_guardBytes w _ <| Res.refusal_andThen (s.refusal_dstRead w dst) fun _ _ => rfl

theorem refusal_storeOp (w : Width) (dst : Operand) (r : Alu) (s : State) :
    (storeOp w dst r s).refusal = byteRefusal w [dst] :=
  refusal_guardBytes w _ <| Res.refusal_andThen (s.refusal_dstStore w dst _) fun _ _ => rfl

theorem refusal_branchIf (b : Bool) (off : Byte) (s : State) : (branchIf b off s).refusal = none := rfl

/-! ### The refusal of an instruction -/

/-- What the model refuses an instruction with: first its class, if the machine refuses the unnamed ones, then its byte
operands. -/
def instrRefusal (i : Instr) (s : State) : Option Refusal :=
  if i.isUnnamed = true then unnamedRefusal s (byteRefusal .byte i.byteOperands) else byteRefusal .byte i.byteOperands

/-- The one case analysis over the instructions: each ends in the refusal of its class and operands, or in none. -/
theorem outcomeRefusal_exec (i : Instr) (s : State) : outcomeRefusal (exec i s) = instrRefusal i s := by
  have named : ∀ {x : Res Unit} {r : Option Refusal}, x.refusal = r → outcomeRefusal x.outcome = r :=
    fun hx => (Res.outcomeRefusal_outcome _).trans hx
  have unnamed : ∀ {x : Res Unit} {r : Option Refusal}, x.refusal = r →
      outcomeRefusal (guardUnnamed s x).outcome = unnamedRefusal s r :=
    fun hx => named (refusal_guardUnnamed s hx)
  cases i with
  | halt | wait | reset | ccop _ _ | reserved _ => rfl
  | br off | bne off | beq off | bge off | blt off | bgt off | ble off | bpl off | bmi off | bhi off | blos off | bvc off
  | bvs off | bcc off | bcs off => exact named (refusal_branchIf _ off s)
  | emt _ | trap _ | iot | bpt => exact named (s.refusal_trapEntry _)
  | rti => exact named s.refusal_trapReturn
  | rtt => exact unnamed s.refusal_trapReturn
  | jmp dst => exact named (Res.refusal_andThen (s.refusal_effAddr dst) fun _ _ => rfl)
  | jsr r dst =>
    exact named (Res.refusal_andThen (s.refusal_effAddr dst) fun _ s1 =>
      Res.refusal_andThen (s1.refusal_push _) fun _ _ => rfl)
  | rts r => exact named (Res.refusal_andThen s.refusal_pop fun _ _ => rfl)
  | mark nn => exact unnamed (Res.refusal_andThen (s.refusal_read ..) fun _ _ => rfl)
  | sob r off => exact unnamed rfl
  | bic src dst | bis src dst | add src dst | sub src dst | bicb src dst | bisb src dst =>
    exact named (refusal_doubleOp _ src dst _ s)
  | cmp src dst | bit src dst | cmpb src dst | bitb src dst => exact named (refusal_compareOp _ src dst _ s)
  | com dst | inc dst | dec dst | neg dst | ror dst | rol dst | asr dst | asl dst | swab dst | comb dst | incb dst
  | decb dst | negb dst | rorb dst | rolb dst | asrb dst | aslb dst => exact named (refusal_singleOp _ dst _ s)
  | adc dst | sbc dst | adcb dst | sbcb dst | xor _ dst => exact unnamed (refusal_singleOp _ dst _ s)
  | tst dst | tstb dst => exact named (refusal_testOp _ dst _ s)
  | clr dst | clrb dst => exact named (refusal_storeOp _ dst _ s)
  | sxt dst => exact unnamed (refusal_storeOp _ dst _ s)
  | mov src dst =>
    exact named (Res.refusal_andThen (s.refusal_srcRead .word src) fun v s1 =>
      Res.refusal_andThen (s1.refusal_dstStore .word dst v) fun _ _ => rfl)
  | movb src dst =>
    exact named (refusal_guardBytes .byte _ (Res.refusal_andThen (s.refusal_srcRead .byte src) fun v s1 =>
      Res.refusal_andThen (s1.refusal_storeByteExtended dst v) fun _ _ => rfl))
  | mfps dst =>
    exact unnamed (refusal_guardBytes .byte _ (Res.refusal_andThen (s.refusal_storeByteExtended dst _) fun _ _ => rfl))
  | mtps src =>
    exact unnamed (refusal_guardBytes .byte _ (Res.refusal_andThen (s.refusal_srcRead .byte src) fun _ _ => rfl))

/-- R24: the guard of the byte forms refuses the instructions without a meaning. -/
theorem byteRefusal_byteOperands_eq_some {i : Instr} {r : Refusal} :
    byteRefusal .byte i.byteOperands = some r ↔ r = .byteRegisterSpPc ∧ i.hasMeaning = false := by
  have hany : i.byteOperands.any Operand.isSpPcRegister = !i.hasMeaning := by
    simp [Instr.hasMeaning, List.any_eq_not_all_not]
  cases h : i.hasMeaning <;> simp [byteRefusal, hany, h, eq_comm]

/-- R24, R270: exactly when an instruction is refused, and under which name. -/
theorem exec_refused_iff {i : Instr} {s : State} {r : Refusal} :
    exec i s = .refused r ↔
      (r = .unnamedOpcode ∧ i.isUnnamed = true ∧ s.params.unnamedOpcodes = .refuse) ∨
      (r = .byteRegisterSpPc ∧ i.hasMeaning = false ∧
        ¬(i.isUnnamed = true ∧ s.params.unnamedOpcodes = .refuse)) := by
  rw [← outcomeRefusal_eq_some, outcomeRefusal_exec]
  unfold instrRefusal unnamedRefusal
  by_cases hu : i.isUnnamed = true
  · by_cases hp : s.params.unnamedOpcodes = .refuse
    · simp [hu, hp, eq_comm (a := r)]
    · simp [hu, hp, byteRefusal_byteOperands_eq_some]
  · simp [hu, byteRefusal_byteOperands_eq_some]

/-- Settles O7: the guards stand before everything else an instruction does, and nothing behind them refuses. -/
theorem onlyUnnamedAndByteSpPcFormsAreRefused : Obligations.OnlyUnnamedAndByteSpPcFormsAreRefused := by
  intro i s
  refine ⟨fun hu hp => exec_refused_iff.2 (.inl ⟨rfl, hu, hp⟩), fun hexecutes hm => ?_, fun r hr => ?_⟩
  · refine exec_refused_iff.2 (.inr ⟨rfl, hm, ?_⟩)
    rintro ⟨hu, hp⟩
    rcases hexecutes with h | h
    · simp [hu] at h
    · simp [hp] at h
  · exact (exec_refused_iff.1 hr).imp_right fun ⟨hname, hm, _⟩ => ⟨hname, hm⟩

end Sys2Proof.Machine

/-! ## Bus cycles (20_memory.md R63 to R69) -/

namespace Sys2Proof.Machine

/-! ### Word addresses -/

@[simp] theorem isOdd_evenAddr (a : Word) : isOdd (evenAddr a) = false := by simp [isOdd, evenAddr]

/-- R64: a word address is even. -/
theorem evenAddr_toNat_mod_two (a : Word) : (evenAddr a).toNat % 2 = 0 := by
  have h := isOdd_evenAddr a
  rw [isOdd, BitVec.getLsbD, Nat.testBit_zero, decide_eq_false_iff_not] at h
  omega

@[simp] theorem evenAddr_evenAddr (a : Word) : evenAddr (evenAddr a) = evenAddr a := by
  unfold evenAddr
  rw [BitVec.and_assoc, BitVec.and_self]

/-- The address after a word address differs from it in bit 0 alone. -/
theorem evenAddr_add_one (a : Word) : evenAddr a + 1 = evenAddr a ||| 1 := by
  refine BitVec.add_eq_or_of_and_eq_zero _ _ ?_
  unfold evenAddr
  rw [BitVec.and_assoc]
  exact BitVec.and_zero

/-- Both bytes of a word have its word address. -/
theorem evenAddr_evenAddr_add_one (a : Word) : evenAddr (evenAddr a + 1) = evenAddr a := by
  have hzero : (1 : Word) &&& 0o177776 = 0 := by decide
  have hor : evenAddr (evenAddr a ||| 1) = evenAddr (evenAddr a) ||| (1 &&& 0o177776) := BitVec.and_or_distrib_right
  rw [evenAddr_add_one, hor, hzero, evenAddr_evenAddr]
  exact BitVec.or_zero

theorem isOdd_evenAddr_add_one (a : Word) : isOdd (evenAddr a + 1) = true := by
  rw [evenAddr_add_one]
  simp [isOdd]

/-! ### Bytes of a word -/

theorem lowByte_setWidth (v : Word) : (lowByte v).setWidth 16 = v &&& 0x00ff := by
  apply BitVec.eq_of_toNat_eq
  have hmask : v.toNat &&& 255 = v.toNat % 256 := Nat.and_two_pow_sub_one_eq_mod v.toNat 8
  simp [lowByte, hmask]
  omega

theorem highByte_setWidth (v : Word) : (highByte v).setWidth 16 = v >>> 8 := by
  unfold highByte
  bv_omega

theorem joinBytes_zero_left (b : Byte) : joinBytes 0 b = b.setWidth 16 := by
  apply BitVec.eq_of_toNat_eq
  rw [joinBytes, BitVec.toNat_append]
  simp [Nat.mod_eq_of_lt (show b.toNat < 65536 by omega)]

theorem joinBytes_zero_right (b : Byte) : joinBytes b 0 = b.setWidth 16 <<< 8 := by
  apply BitVec.eq_of_toNat_eq
  rw [joinBytes, BitVec.toNat_append]
  simp [Nat.shiftLeft_eq]
  omega

theorem lowByte_setWidth_shiftLeft (v : Word) : (lowByte v).setWidth 16 <<< 8 = v <<< 8 := by
  unfold lowByte
  bv_omega

/-- R66 (decision D25): a byte read takes the half of the word that bit 0 of its address selects. -/
theorem lane_byte (a v : Word) : lane .byte a v = if a.getLsbD 0 then v >>> 8 else v &&& 0x00ff := by
  rw [← highByte_setWidth, ← lowByte_setWidth]
  rfl

/-- R67: a device sees a byte on the half of the word that bit 0 of its address selects. -/
theorem writeLane_byte (a v : Word) : writeLane .byte a v = if a.getLsbD 0 then v <<< 8 else v &&& 0x00ff := by
  rw [← lowByte_setWidth_shiftLeft, ← lowByte_setWidth, ← joinBytes_zero_right, ← joinBytes_zero_left]
  rfl

theorem State.misaligned_eq (s : State) (w : Width) (a : Word) :
    s.misaligned w a = decide (w = .word ∧ a.getLsbD 0 = true ∧ s.params.oddWordAccess = .busError) := by
  simp [State.misaligned, isOdd, Bool.and_assoc]

/-! ### A refused cycle, and a cycle at a device -/

theorem State.load_misaligned {s : State} {w : Width} {a : Word} (h : s.misaligned w a = true) :
    s.load w a = (none, s) := if_pos h

theorem State.store_misaligned {s : State} {w : Width} {a : Word} (v : Word) (h : s.misaligned w a = true) :
    s.store w a v = (false, s) := if_pos h

theorem State.load_device {s : State} {w : Width} {a : Word} {d : DevId} {k : Nat} (hm : s.misaligned w a = false)
    (hd : s.device (evenAddr a) = some (d, k)) :
    s.load w a = ((s.devRead d k (evenAddr a)).1.map (lane w a), (s.devRead d k (evenAddr a)).2) := by
  unfold State.load State.loadWord
  rw [hm, hd]
  rfl

theorem State.store_device {s : State} {w : Width} {a : Word} (v : Word) {d : DevId} {k : Nat}
    (hm : s.misaligned w a = false) (hd : s.device (evenAddr a) = some (d, k)) :
    s.store w a v = (true, (s.devWrite d k (decide (w = .byte)) (writeAddr w a) (writeLane w a v)).2) := by
  unfold State.store
  rw [hm, hd]
  rfl

/-- Settles O8: each case of a read cycle has its rule. -/
theorem readCycle : Obligations.ReadCycle := by
  intro s w a
  refine ⟨s.misaligned_eq w a, State.load_misaligned, fun hm d k => State.load_device hm,
    fun hm hd k p => s.load_memory w a k p hm hd, s.load_nothing w a, fun v => ?_⟩
  cases w with
  | word => rfl
  | byte => exact lane_byte a v

/-- Settles O9: each case of a write cycle has its rule. -/
theorem writeCycle : Obligations.WriteCycle := by
  intro s w a v
  refine ⟨State.store_misaligned v, fun hm d k hd => (State.store_device v hm hd).trans ?_,
    fun hm hd p hc => (s.store_ram w a v p hm hd hc).trans ?_, fun hm hd p => s.store_rom w a v p hm hd,
    s.store_nothing w a v⟩
  · cases w with
    | word => rfl
    | byte => rw [writeLane_byte]; rfl
  · cases w <;> rfl

/-! ### Memory that is read back -/

/-- The state with another backing store. -/
def State.withMem (s : State) (m : Memory) : State := { s with mem := m }

@[simp] theorem State.withMem_mem (s : State) (m : Memory) : (s.withMem m).mem = m := rfl

@[simp] theorem State.withMem_withMem (s : State) (m m' : Memory) : (s.withMem m).withMem m' = s.withMem m' := rfl

section
variable {s : State} {w : Width} {a : Word} {k : MemKind} {p : Nat}

/-- What serves an access does not depend on what the memory holds. -/
theorem State.memoryAt.withMem (h : s.memoryAt w a k p) (m : Memory) : (s.withMem m).memoryAt w a k p := h

theorem State.memoryAt.load (h : s.memoryAt w a k p) : s.load w a = (some (lane w a (s.mem.getWord p)), s) :=
  s.load_memory w a k p h.1 h.2.1 h.2.2

theorem State.memoryAt.store (h : s.memoryAt w a .ram p) (v : Word) :
    s.store w a v = (true, s.withMem (s.mem.storeAt w a p v)) :=
  s.store_ram w a v p h.1 h.2.1 h.2.2

/-- R63, R64: the byte at the word address of memory is served by the same cells. -/
theorem State.memoryAt.low (h : s.memoryAt w a k p) : s.memoryAt .byte (evenAddr a) k p := by
  rw [State.memoryAt, evenAddr_evenAddr]
  exact ⟨rfl, h.2⟩

/-- R63, R64: and so is the byte after it. -/
theorem State.memoryAt.high (h : s.memoryAt w a k p) : s.memoryAt .byte (evenAddr a + 1) k p := by
  rw [State.memoryAt, evenAddr_evenAddr_add_one]
  exact ⟨rfl, h.2⟩

end

@[simp] theorem Memory.storeAt_word (m : Memory) (a : Word) (p : Nat) (v : Word) :
    m.storeAt .word a p v = m.setWord p v := rfl

theorem Memory.storeAt_byte_low (m : Memory) (a : Word) (p : Nat) (v : Word) :
    m.storeAt .byte (evenAddr a) p v = m.set p (lowByte v) := by
  simp [Memory.storeAt]

theorem Memory.storeAt_byte_high (m : Memory) (a : Word) (p : Nat) (v : Word) :
    m.storeAt .byte (evenAddr a + 1) p v = m.set (p + 1) (lowByte v) := by
  simp only [Memory.storeAt, isOdd_evenAddr_add_one, if_true]

theorem lane_byte_low (a v : Word) : lane .byte (evenAddr a) v = v &&& 0x00ff :=
  (lane_byte _ v).trans (if_neg (by simpa [isOdd] using isOdd_evenAddr a))

theorem lane_byte_high (a v : Word) : lane .byte (evenAddr a + 1) v = v >>> 8 :=
  (lane_byte _ v).trans (if_pos (isOdd_evenAddr_add_one a))

/-- R63: the word written to a cell is made of the bytes written to it and the next one. -/
theorem Memory.set_set_eq_setWord (m : Memory) (p : Nat) (hi lo : Byte) :
    (m.set p lo).set (p + 1) hi = m.setWord p (joinBytes hi lo) := by
  rw [Memory.setWord, lowByte_joinBytes, highByte_joinBytes]

/-- Settles O10: a store to RAM changes the cells that serve the loads at both its bytes. -/
theorem storedWordIsReadBackLowByteFirst : Obligations.StoredWordIsReadBackLowByteFirst := by
  intro s a v p hwf h
  rw [h.store v, Memory.storeAt_word]
  have ht := h.withMem (s.mem.setWord p v)
  have hword : (s.withMem (s.mem.setWord p v)).mem.getWord p = v := Memory.getWord_setWord p v hwf
  refine ⟨rfl, ?_, ?_, ?_, fun hi lo => ?_⟩
  · rw [ht.load, hword]; rfl
  · rw [ht.low.load, hword, lane_byte_low]
  · rw [ht.high.load, hword, lane_byte_high]
  · rw [h.low.store lo, Memory.storeAt_byte_low, (h.high.withMem _).store hi, State.withMem_mem,
      Memory.storeAt_byte_high, Memory.set_set_eq_setWord, State.withMem_withMem, (h.withMem _).load,
      State.withMem_mem, Memory.getWord_setWord p _ hwf]
    rfl

end Sys2Proof.Machine

/-! ## What a step writes in memory (20_memory.md R61, R67, R69; 60_exceptions.md R320) -/

namespace Sys2Proof.Machine

/-! ### The cells a store changes are cells of RAM -/

theorem Params.hasCell_iff {p : Params} {k : MemKind} {c : Nat} :
    Params.hasCell p k c = true ↔ ∃ m ∈ p.maps, ∃ r ∈ m, r.kind = k ∧ r.cell ≤ c ∧ c < r.cell + r.size := by
  simp [Params.hasCell, and_assoc]

theorem Params.wordRegions_iff {p : Params} :
    Params.wordRegions p = true ↔ ∀ m ∈ p.maps, ∀ r ∈ m, r.base % 2 = 0 ∧ r.size % 2 = 0 := by
  simp [Params.wordRegions]

/-- A map that is selected but is not there has no regions. -/
theorem State.mem_maps_of_mem_map {s : State} {r : Region} (h : r ∈ s.map) : ∃ m ∈ s.params.maps, r ∈ m := by
  rw [State.map, List.getD_eq_getElem?_getD] at h
  cases e : s.params.maps[s.mapSel]? with
  | none => simp [e] at h
  | some m => exact ⟨m, List.mem_of_getElem? e, by simpa [e] using h⟩

/-- R61: what serves an address is a region that holds it. -/
theorem mapCell_eq_some {m : MemMap} {n p : Nat} {k : MemKind} (h : mapCell m n = some (k, p)) :
    ∃ r ∈ m, r.kind = k ∧ r.base ≤ n ∧ n < r.base + r.size ∧ p = r.cell + (n - r.base) := by
  obtain ⟨r, hfind, hr⟩ := Option.map_eq_some_iff.1 h
  have hholds := List.find?_some hfind
  simp only [Region.holds, Bool.and_eq_true, decide_eq_true_eq] at hholds
  obtain ⟨rfl, rfl⟩ := Prod.mk.inj hr
  exact ⟨r, List.mem_of_find?_eq_some hfind, rfl, hholds.1, hholds.2, rfl⟩

/-- Where regions hold whole words, both cells of a word lie in the region that serves its address. -/
theorem State.hasCell_of_cellOf {s : State} {a : Word} {k : MemKind} {p c : Nat}
    (hwords : Params.wordRegions s.params = true) (h : s.cellOf (evenAddr a) = some (k, p)) (hc : c = p ∨ c = p + 1) :
    Params.hasCell s.params k c = true := by
  obtain ⟨r, hr, hk, hbase, hsize, hp⟩ := mapCell_eq_some h
  obtain ⟨m, hm, hrm⟩ := State.mem_maps_of_mem_map hr
  obtain ⟨hb, hs⟩ := Params.wordRegions_iff.1 hwords m hm r hrm
  have heven := evenAddr_toNat_mod_two a
  exact Params.hasCell_iff.2 ⟨m, hm, r, hrm, hk, by omega, by omega⟩

/-- R67, R69: a store changes cells of RAM alone. -/
theorem State.hasCell_of_mem_storeCells {s : State} {w : Width} {a : Word} {c : Nat}
    (hwords : Params.wordRegions s.params = true) (h : c ∈ s.storeCells w a) :
    Params.hasCell s.params .ram c = true := by
  unfold State.storeCells at h
  split at h
  · cases h
  · split at h
    · rename_i p _ hcell
      refine State.hasCell_of_cellOf hwords hcell ?_
      cases w with
      | word => simpa using h
      | byte =>
        rw [List.mem_singleton] at h
        rw [h]
        split
        · exact .inr rfl
        · exact .inl rfl
    · cases h

/-! ### A cell that is not RAM -/

/-- `t` has the parameters of `s`, and its cell `c` reads as that of `s`. -/
structure SameCell (c : Nat) (s t : State) : Prop where
  params : t.params = s.params
  cell : t.mem.get c = s.mem.get c

theorem SameCell.of_mem {c : Nat} {s t u : State} (h : SameCell c s t) (hp : u.params = t.params) (hm : u.mem = t.mem) :
    SameCell c s u := ⟨hp.trans h.params, (congrArg (Memory.get · c) hm).trans h.cell⟩

section
variable {s t u : State} {c : Nat} (hwords : Params.wordRegions s.params = true)
  (hc : Params.hasCell s.params .ram c = false)
include hwords hc

theorem SameCell.store (h : SameCell c s t) (w : Width) (a v : Word) : SameCell c s (t.store w a v).2 where
  params := (SameCpu.store t w a v).params.trans h.params
  cell := by
    refine (t.store_frame w a v c fun hmem => ?_).trans h.cell
    have hram := State.hasCell_of_mem_storeCells (h.params ▸ hwords) hmem
    rw [h.params, hc] at hram
    cases hram

/-- R69: no action of an instruction changes a cell that is not RAM. -/
theorem closed_sameCell (i : Instr) : Closed i (SameCell c s) (SameCell c s) where
  load t w a ht := ht.of_mem (SameCpu.load t w a).params (t.load_mem w a)
  store _ w a v _ ht := ht.store hwords hc w a v
  setReg _ _ _ _ ht := ht.of_mem rfl rfl
  psw _ _ _ ht := ht.of_mem rfl rfl
  enter _ _ _ _ _ ht := ht.of_mem rfl rfl
  run _ _ _ ht := ht.of_mem rfl rfl
  reset t _ ht := ht.of_mem (SameCpu.initDevices false t).params (t.initDevices_mem false)
  bus _ ht := ht.of_mem rfl rfl
  reserved _ _ ht := ht.of_mem rfl rfl
  done _ ht := ht

/-! ### The parts of a step -/

theorem SameCell.takeEvent {e : Event} (h : SameCell c s t) (hu : t.takeEvent e = .next u) : SameCell c s u := by
  have haccept : SameCell c s (t.accept e) := h.of_mem (by cases e <;> rfl) (by cases e <;> rfl)
  have hentry := (closed_sameCell hwords hc .iot).trapEntry (eventVector t.params.vectors e) rfl
    (by simp [Instr.touched]) rfl rfl rfl rfl haccept
  rw [State.takeEvent_next hu] at hentry
  exact hentry

omit hwords hc in
theorem SameCell.endWait (h : SameCell c s t) : SameCell c s t.endWait := by
  unfold State.endWait
  split
  · exact h.of_mem rfl rfl
  · exact h

omit hwords hc in
theorem SameCell.traceCheck (h : SameCell c s t) (i : Instr) : SameCell c s (t.traceCheck i) := by
  unfold State.traceCheck
  split
  · exact h.of_mem rfl rfl
  · exact h

theorem SameCell.runInstr {i : Instr} (h : SameCell c s t) (hu : runInstr i t = .next u) : SameCell c s u := by
  obtain ⟨x, hx, rfl⟩ := runInstr_next hu
  have hexec : SameCell c s x := (exec_closed i (closed_sameCell hwords hc i) h).next hx
  exact hexec.traceCheck i

theorem SameCell.fetchDecodeExecute {n : Nat} (h : SameCell c s t) (hu : fetchDecodeExecute n t = .next u) :
    SameCell c s u := by
  have hfetch : SameCell c s t.fetch.2 := h.of_mem (SameCpu.fetch t).params t.fetch_mem
  unfold Machine.fetchDecodeExecute at hu
  split at hu
  · rename_i x e
    rw [e] at hfetch
    obtain ⟨y, hy, rfl⟩ := charge_next hu
    cases hy
    exact hfetch.of_mem rfl rfl
  · rename_i w x e
    rw [e] at hfetch
    obtain ⟨y, hy, rfl⟩ := charge_next hu
    have hpc : SameCell c s x.advancePc := hfetch.of_mem rfl rfl
    exact (SameCell.runInstr hwords hc hpc hy).of_mem rfl rfl

/-- R320: a step is the timer hooks, and then an event, an idle tick or an instruction. -/
theorem SameCell.step (hu : step s = .next u) : SameCell c s u := by
  have htimers : SameCell c s s.runTimers := ⟨(SameCpu.runTimers s).params, congrArg (Memory.get · c) s.runTimers_mem⟩
  unfold Machine.step at hu
  dsimp only at hu
  split at hu
  · obtain ⟨x, hx, rfl⟩ := charge_next hu
    exact (SameCell.takeEvent hwords hc htimers hx).of_mem rfl rfl
  · split at hu
    · obtain ⟨x, hx, rfl⟩ := charge_next hu
      cases hx
      exact htimers.of_mem rfl rfl
    · obtain ⟨x, hx, rfl⟩ := charge_next hu
      cases hx
      exact htimers.endWait.of_mem rfl rfl
    · exact SameCell.fetchDecodeExecute hwords hc htimers hu

end

/-- Settles O11: every store lies in a region of RAM, and a step changes memory by stores alone. -/
theorem stepChangesOnlyRam : Obligations.StepChangesOnlyRam :=
  fun _ _ _ hwords hstep hc => (SameCell.step hwords hc hstep).cell

end Sys2Proof.Machine

/-! ## Where an instruction stores (20_memory.md R67, R72; 60_exceptions.md R322) -/

namespace Sys2Proof.Machine

section
variable {s : State} {c : Nat}

/-- The source has been read, and memory is as it was: whatever comes next is away from the cell if it is so in every
state with the memory of `s`. -/
theorem SameMem.sat_andThen {α : Type} {x : Res α} {f : α → State → Res Unit}
    (hx : x.Sat (fun _ => SameMem s) (SameMem s) (SameMem s))
    (hf : ∀ v t, x = .ok v t → SameMem s t → (f v t).Sat (fun _ => Away s c) (Away s c) (Away s c)) :
    (x.andThen f).Sat (fun _ => Away s c) (Away s c) (Away s c) :=
  Res.Sat.andThen' (hx.weaken (fun _ _ h => h) (fun _ => Away.of_sameMem) (fun _ => Away.of_sameMem)) hf

/-! ### Instructions with a shape of their own -/

theorem mov_away {src dst : Operand} (h : ∀ v t, s.srcRead .word src = .ok v t → c ∉ t.operandCells .word dst) :
    outcomeSat (Away s c) (execMov src dst s) :=
  Res.Sat.outcome <| SameMem.sat_andThen (srcRead_sameMem s .word src) fun v t e ht =>
    (dstStore_away .word dst v ht (h v t e)).andThen fun _ _ => setAlu_away

theorem movb_away {src dst : Operand} (h : ∀ v t, s.srcRead .byte src = .ok v t → c ∉ t.operandCells .byte dst) :
    outcomeSat (Away s c) (execMovb src dst s) :=
  Res.Sat.outcome <| guardBytes_sat _ _ <| SameMem.sat_andThen (srcRead_sameMem s .byte src) fun v t e ht =>
    (byteStore_away dst v ht (h v t e)).andThen fun _ _ => setAlu_away

theorem mfps_away {dst : Operand} (h : c ∉ s.operandCells .byte dst) : outcomeSat (Away s c) (execMfps dst s) :=
  Res.Sat.outcome <| guardUnnamed_sat _ <| guardBytes_sat _ _ <|
    (byteStore_away dst _ (.refl s) h).andThen fun _ _ => setAlu_away

theorem effAddr_sameMem (s : State) (o : Operand) : (s.effAddr o).Sat (fun _ => SameMem s) (SameMem s) (SameMem s) := by
  unfold State.effAddr
  split
  · exact ⟨⟨rfl, rfl⟩, rfl⟩
  · refine (resolve_no_fault s .word o).andThen fun p t ht => ?_
    split
    · exact ht.trans (doPost_sameMem t p)
    · exact ht.trans ⟨⟨rfl, rfl⟩, rfl⟩

theorem jsr_away {r : Reg} {dst : Operand} (h : ∀ a t, s.effAddr dst = .ok a t → c ∉ t.pushCells) :
    outcomeSat (Away s c) (execJsr r dst s) :=
  Res.Sat.outcome <| SameMem.sat_andThen (effAddr_sameMem s dst) fun a t e ht =>
    (push_away _ (.of_sameMem ht) (h a t e)).andThen fun _ _ hu => hu

end

/-! ### The cells of an instruction -/

/-- JSR stores to the slot of its push, once the address has been computed (R232). -/
theorem State.storedCells_jsr {s t : State} {r : Reg} {o : Operand} {a : Word} (h : s.effAddr o = .ok a t) :
    s.storedCells (.jsr r o) = t.pushCells := by
  simp only [State.storedCells, h]

/-- R160: the destination of an instruction that reads a source is resolved once the source has been read. -/
theorem State.storedCells_of_source {s t : State} {i : Instr} {w w' : Width} {o d : Operand} {v : Word}
    (hsource : i.source = some (w, o)) (hdst : i.destination = some (w', d)) (h : s.srcRead w o = .ok v t) :
    s.storedCells i = t.operandCells w' d := by
  have hafter : s.afterSource i = some t := by simp only [State.afterSource, hsource, h]
  unfold State.storedCells
  split
  case h_6 => rw [hdst, hafter]
  all_goals cases hsource

/-- A cell that an instruction does not store to reads as before, however the instruction ends. -/
theorem exec_away (i : Instr) {s : State} {c : Nat} (h : c ∉ s.storedCells i) : outcomeSat (Away s c) (exec i s) := by
  have away : ∀ {x : Res Unit}, x.Sat (fun _ => Away s c) (Away s c) (Away s c) → outcomeSat (Away s c) x.outcome :=
    Res.Sat.outcome
  have unnamed : ∀ {x : Res Unit}, x.Sat (fun _ => Away s c) (Away s c) (Away s c) →
      outcomeSat (Away s c) (guardUnnamed s x).outcome := fun hx => away (guardUnnamed_sat s hx)
  have after {w w' : Width} {o d : Operand} (hsource : i.source = some (w, o)) (hdst : i.destination = some (w', d))
      (v : Word) (t : State) (e : s.srcRead w o = .ok v t) : c ∉ t.operandCells w' d :=
    State.storedCells_of_source hsource hdst e ▸ h
  cases i with
  | emt _ | trap _ | iot | bpt => exact away (trap_away _ h)
  | jsr r dst => exact jsr_away fun a t e => State.storedCells_jsr (r := r) e ▸ h
  | mov src dst => exact mov_away (after rfl rfl)
  | movb src dst => exact movb_away (after rfl rfl)
  | mfps dst => exact mfps_away h
  | bic src dst | bis src dst | add src dst | sub src dst | bicb src dst | bisb src dst =>
    exact away (double_away _ src dst _ (after rfl rfl))
  | com dst | inc dst | dec dst | neg dst | ror dst | rol dst | asr dst | asl dst | swab dst | comb dst | incb dst
  | decb dst | negb dst | rorb dst | rolb dst | asrb dst | aslb dst => exact away (single_away _ dst _ h)
  | adc dst | sbc dst | adcb dst | sbcb dst | xor _ dst => exact unnamed (single_away _ dst _ h)
  | clr dst | clrb dst => exact away (store_away _ dst _ h)
  | sxt dst => exact unnamed (store_away _ dst _ h)
  | _ => exact nostore_away _ rfl

/-- Settles O52, by the cells each instruction that stores resolves its store to; the others store nothing. -/
theorem memoryFrame : Obligations.MemoryFrame := fun i _ _ _ hexec hc => (exec_away i hc).next hexec

end Sys2Proof.Machine

/-! ## Double bus errors (20_memory.md R70; 60_exceptions.md R322, R326) -/

namespace Sys2Proof

/-- R326: the instructions that push or enter a trap, and so may meet a double bus error. -/
def Instr.mayFault : Instr → Bool
  | .jsr _ _ | .emt _ | .trap _ | .iot | .bpt => true
  | _ => false

theorem Instr.mayFault_iff {i : Instr} :
    i.mayFault = true ↔ (∃ r d, i = .jsr r d) ∨ (∃ n, i = .emt n ∨ i = .trap n) ∨ i = .iot ∨ i = .bpt := by
  cases i <;> simp [Instr.mayFault]

end Sys2Proof

namespace Sys2Proof.Machine

/-! ### What a failed push or trap entry has changed -/

/-- R70: a push has decremented SP whether its write succeeds or faults, and no push is abandoned. -/
theorem State.push_sameCpu (s : State) (v : Word) :
    (s.push v).Sat (fun _ => SameCpu (s.setReg .sp (s.reg .sp - 2))) (fun _ => False)
      (SameCpu (s.setReg .sp (s.reg .sp - 2))) := by
  have hstore := SameCpu.store (s.setReg .sp (s.reg .sp - 2)) .word (s.reg .sp - 2) v
  unfold State.push
  split
  · rename_i e; rw [e] at hstore; exact hstore
  · rename_i e; rw [e] at hstore; exact hstore

/-- R322: a vector read leaves the processor alone, and faults where another read would be abandoned. -/
theorem State.readVector_sameCpu (s : State) (a : Word) :
    (s.readVector a).Sat (fun _ => SameCpu s) (fun _ => False) (SameCpu s) := by
  have hload := SameCpu.load s .word a
  unfold State.readVector
  split
  · rename_i e; rw [e] at hload; exact hload
  · rename_i e; rw [e] at hload; exact hload

/-- `t` has the PC and the status word of `s`, and `n` pushes less on SP: the processor during a trap entry. -/
structure State.Pushed (s : State) (n : Word) (t : State) : Prop where
  pc : t.reg .pc = s.reg .pc
  psw : t.psw = s.psw
  sp : t.reg .sp = s.reg .sp - 2 * n

theorem State.Pushed.refl (s : State) : s.Pushed 0 s := ⟨rfl, rfl, by simp⟩

theorem State.Pushed.of_sameCpu {s t u : State} {n : Word} (h : s.Pushed n t) (k : SameCpu t u) : s.Pushed n u :=
  ⟨(k.reg .pc).trans h.pc, k.psw.trans h.psw, (k.reg .sp).trans h.sp⟩

theorem State.Pushed.push {s t : State} {n : Word} (h : s.Pushed n t) (v : Word) :
    (t.push v).Sat (fun _ => s.Pushed (n + 1)) (fun _ => False) (s.Pushed (n + 1)) := by
  have hnext : s.Pushed (n + 1) (t.setReg .sp (t.reg .sp - 2)) := by
    refine ⟨(t.reg_setReg_of_ne .sp .pc _ (by decide)).trans h.pc, h.psw, ?_⟩
    rw [State.reg_setReg_self, h.sp]
    bv_omega
  exact (t.push_sameCpu v).weaken (fun _ _ => hnext.of_sameCpu) (fun _ k => k) (fun _ => hnext.of_sameCpu)

theorem State.Pushed.readVector {s t : State} {n : Word} (h : s.Pushed n t) (a : Word) :
    (t.readVector a).Sat (fun _ => s.Pushed n) (fun _ => False) (s.Pushed n) :=
  (t.readVector_sameCpu a).weaken (fun _ _ => h.of_sameCpu) (fun _ k => k) (fun _ => h.of_sameCpu)

/-- R322: a trap entry faults in one of its pushes or after both, before it loads PC and PSW. -/
theorem State.trapEntry_fault (s : State) (vec : Word) :
    (s.trapEntry vec).Sat (fun _ _ => True) (fun _ => False) (fun t => s.Pushed 1 t ∨ s.Pushed 2 t) := by
  have once := ((State.Pushed.refl s).push s.psw).weaken (R' := fun t => s.Pushed 1 t ∨ s.Pushed 2 t)
    (fun _ _ h => h) (fun _ h => h) (fun _ => .inl)
  have twice {α : Type} {x : Res α} (hx : x.Sat (fun _ => s.Pushed 2) (fun _ => False) (s.Pushed 2)) :
      x.Sat (fun _ => s.Pushed 2) (fun _ => False) (fun t => s.Pushed 1 t ∨ s.Pushed 2 t) :=
    hx.weaken (fun _ _ h => h) (fun _ h => h) (fun _ => .inr)
  unfold State.trapEntry
  exact once.andThen fun _ s1 h1 => (twice (h1.push _)).andThen fun _ s2 h2 =>
    (twice (h2.readVector _)).andThen fun _ s3 h3 => (twice (h3.readVector _)).andThen fun _ s4 h4 => trivial

/-! ### Every other operation ends without a fault -/

/-- The operation does not end in a fault. -/
def Res.Unfaulted {α : Type} (x : Res α) : Prop := x.Sat (fun _ _ => True) (fun _ => True) (fun _ => False)

theorem Res.Unfaulted.andThen {α β : Type} {x : Res α} {f : α → State → Res β} (hx : x.Unfaulted)
    (hf : ∀ v t, (f v t).Unfaulted) : (x.andThen f).Unfaulted := Res.Sat.andThen hx fun v t _ => hf v t

theorem Res.Unfaulted.guardUnnamed (s : State) {x : Res Unit} (hx : x.Unfaulted) : (guardUnnamed s x).Unfaulted :=
  guardUnnamed_sat s hx

theorem Res.Unfaulted.guardBytes (w : Width) (os : List Operand) {x : Res Unit} (hx : x.Unfaulted) :
    (guardBytes w os x).Unfaulted := guardBytes_sat w os hx

section
variable (s : State) (w : Width) (o src dst : Operand)

theorem State.unfaulted_read (a : Word) : (s.read w a).Unfaulted := by
  unfold State.read
  split <;> trivial

theorem State.unfaulted_write (a v : Word) : (s.write w a v).Unfaulted := by
  unfold State.write
  split <;> trivial

theorem State.unfaulted_pop : s.pop.Unfaulted := (s.unfaulted_read ..).andThen fun _ _ => trivial

theorem State.unfaulted_trapReturn : s.trapReturn.Unfaulted :=
  s.unfaulted_pop.andThen fun _ t => t.unfaulted_pop.andThen fun _ _ => trivial

theorem State.unfaulted_fetchExtension : s.fetchExtension.Unfaulted :=
  (s.unfaulted_read ..).andThen fun _ _ => trivial

theorem State.unfaulted_resolve : (s.resolve w o).Unfaulted := by
  obtain ⟨m, r⟩ := o
  cases m with
  | register | deferred | autoInc | autoDec => trivial
  | autoIncDef | autoDecDef => exact (State.unfaulted_read ..).andThen fun _ _ => trivial
  | index => exact s.unfaulted_fetchExtension.andThen fun _ _ => trivial
  | indexDef =>
    exact s.unfaulted_fetchExtension.andThen fun _ t => (t.unfaulted_read ..).andThen fun _ _ => trivial

theorem State.unfaulted_readLoc (l : Loc) : (s.readLoc w l).Unfaulted := by
  cases l with
  | reg r => cases w <;> trivial
  | mem a => exact s.unfaulted_read w a

theorem State.unfaulted_writeLoc (l : Loc) (v : Word) : (s.writeLoc w l v).Unfaulted := by
  cases l with
  | reg r => cases w <;> trivial
  | mem a => exact s.unfaulted_write w a v

theorem State.unfaulted_srcRead : (s.srcRead w o).Unfaulted :=
  (s.unfaulted_resolve w o).andThen fun _ t => (t.unfaulted_readLoc ..).andThen fun _ _ => trivial

theorem State.unfaulted_dstRead : (s.dstRead w o).Unfaulted :=
  (s.unfaulted_resolve w o).andThen fun _ t => (t.unfaulted_readLoc ..).andThen fun _ _ => trivial

theorem State.unfaulted_dstWrite (p : Place) (v : Word) : (s.dstWrite w p v).Unfaulted :=
  (s.unfaulted_writeLoc ..).andThen fun _ _ => trivial

theorem State.unfaulted_dstStore (v : Word) : (s.dstStore w o v).Unfaulted :=
  (s.unfaulted_resolve w o).andThen fun p t => t.unfaulted_dstWrite w p v

theorem State.unfaulted_storeByteExtended (v : Word) : (s.storeByteExtended o v).Unfaulted := by
  unfold State.storeByteExtended
  split
  · trivial
  · exact s.unfaulted_dstStore .byte o v

theorem State.unfaulted_effAddr : (s.effAddr o).Unfaulted := by
  unfold State.effAddr
  split
  · trivial
  · refine (s.unfaulted_resolve .word o).andThen fun p t => ?_
    split <;> trivial

theorem unfaulted_doubleOp (f : Word → Word → Bool → Alu) : (doubleOp w src dst f s).Unfaulted :=
  .guardBytes w _ <| (s.unfaulted_srcRead w src).andThen fun _ s1 =>
    (s1.unfaulted_dstRead w dst).andThen fun _ s2 => (s2.unfaulted_dstWrite ..).andThen fun _ _ => trivial

theorem unfaulted_compareOp (f : Word → Word → Bool → Alu) : (compareOp w src dst f s).Unfaulted :=
  .guardBytes w _ <| (s.unfaulted_srcRead w src).andThen fun _ s1 =>
    (s1.unfaulted_dstRead w dst).andThen fun _ _ => trivial

theorem unfaulted_singleOp (f : Word → Bool → Alu) : (singleOp w dst f s).Unfaulted :=
  .guardBytes w _ <| (s.unfaulted_dstRead w dst).andThen fun _ s1 =>
    (s1.unfaulted_dstWrite ..).andThen fun _ _ => trivial

theorem unfaulted_testOp (f : Word → Bool → Alu) : (testOp w dst f s).Unfaulted :=
  .guardBytes w _ <| (s.unfaulted_dstRead w dst).andThen fun _ _ => trivial

theorem unfaulted_storeOp (r : Alu) : (storeOp w dst r s).Unfaulted :=
  .guardBytes w _ <| (s.unfaulted_dstStore w dst _).andThen fun _ _ => trivial

end

theorem Res.Unfaulted.outcome_ne_fault {x : Res Unit} (hx : x.Unfaulted) (f : Fault) : x.outcome ≠ .fault f := by
  cases x with
  | fault e => cases e; exact hx.elim
  | ok _ _ | abandoned _ | refused _ => nofun

/-- R326: an instruction that neither pushes nor enters a trap ends without a fault. -/
theorem exec_ne_fault {i : Instr} (hi : i.mayFault = false) (s : State) (f : Fault) : exec i s ≠ .fault f := by
  have named : ∀ {x : Res Unit}, x.Unfaulted → x.outcome ≠ .fault f := fun hx => hx.outcome_ne_fault f
  have unnamed : ∀ {x : Res Unit}, x.Unfaulted → (guardUnnamed s x).outcome ≠ .fault f :=
    fun hx => named (hx.guardUnnamed s)
  cases i with
  | jsr _ _ | emt _ | trap _ | iot | bpt => cases hi
  | halt | wait | reset | ccop _ _ | reserved _ => nofun
  | br _ | bne _ | beq _ | bge _ | blt _ | bgt _ | ble _ | bpl _ | bmi _ | bhi _ | blos _ | bvc _ | bvs _ | bcc _
  | bcs _ => nofun
  | rti => exact named s.unfaulted_trapReturn
  | rtt => exact unnamed s.unfaulted_trapReturn
  | jmp dst => exact named ((s.unfaulted_effAddr dst).andThen fun _ _ => trivial)
  | rts r => exact named (s.unfaulted_pop.andThen fun _ _ => trivial)
  | mark nn => exact unnamed ((s.unfaulted_read ..).andThen fun _ _ => trivial)
  | sob r off => exact unnamed trivial
  | bic src dst | bis src dst | add src dst | sub src dst | bicb src dst | bisb src dst =>
    exact named (unfaulted_doubleOp s _ src dst _)
  | cmp src dst | bit src dst | cmpb src dst | bitb src dst => exact named (unfaulted_compareOp s _ src dst _)
  | com dst | inc dst | dec dst | neg dst | ror dst | rol dst | asr dst | asl dst | swab dst | comb dst | incb dst
  | decb dst | negb dst | rorb dst | rolb dst | asrb dst | aslb dst => exact named (unfaulted_singleOp s _ dst _)
  | adc dst | sbc dst | adcb dst | sbcb dst | xor _ dst => exact unnamed (unfaulted_singleOp s _ dst _)
  | tst dst | tstb dst => exact named (unfaulted_testOp s _ dst _)
  | clr dst | clrb dst => exact named (unfaulted_storeOp s _ dst _)
  | sxt dst => exact unnamed (unfaulted_storeOp s _ dst _)
  | mov src dst =>
    exact named ((s.unfaulted_srcRead .word src).andThen fun v t =>
      (t.unfaulted_dstStore .word dst v).andThen fun _ _ => trivial)
  | movb src dst =>
    exact named (.guardBytes .byte _ ((s.unfaulted_srcRead .byte src).andThen fun v t =>
      (t.unfaulted_storeByteExtended dst v).andThen fun _ _ => trivial))
  | mfps dst => exact unnamed (.guardBytes .byte _ ((s.unfaulted_storeByteExtended dst _).andThen fun _ _ => trivial))
  | mtps src => exact unnamed (.guardBytes .byte _ ((s.unfaulted_srcRead .byte src).andThen fun _ _ => trivial))

/-- Settles O41: every operation but a push and a vector read ends without a fault, and those two change no more of the
processor than SP. -/
theorem doubleBusErrorOnlyFromStackAndVectors : Obligations.DoubleBusErrorOnlyFromStackAndVectors := by
  refine ⟨fun i s t h => ?_, fun s t v h => ?_, fun s t vec h => ?_⟩
  · refine Instr.mayFault_iff.1 ?_
    cases hi : i.mayFault with
    | false => exact absurd h (exec_ne_fault hi s _)
    | true => rfl
  · have hpush := (State.Pushed.refl s).push v
    rw [h] at hpush
    simpa using hpush.sp
  · have hentry := s.trapEntry_fault vec
    rw [h] at hentry
    rcases hentry with ⟨hpc, hpsw, hsp⟩ | ⟨hpc, hpsw, hsp⟩
    · exact ⟨hpc, hpsw, .inl hsp⟩
    · exact ⟨hpc, hpsw, .inr hsp⟩

end Sys2Proof.Machine

/-! ## Encoding and decoding (30_encoding.md R101 to R112) -/

namespace Sys2Proof

/-! ### Fields of a word (R102, R107, R108) -/

@[simp] theorem Reg.ofCode_code (r : Reg) : Reg.ofCode r.code = r := by cases r <;> rfl

theorem Reg.code_ofCode {n : Nat} (h : n < 8) : (Reg.ofCode n).code = n := by interval_cases n <;> rfl

@[simp] theorem Reg.code_ofCode_mod (n : Nat) : (Reg.ofCode (n % 8)).code = n % 8 :=
  Reg.code_ofCode (Nat.mod_lt n (by decide))

@[simp] theorem Mode.ofCode_code (m : Mode) : Mode.ofCode m.code = m := by cases m <;> rfl

theorem Mode.code_ofCode {n : Nat} (h : n < 8) : (Mode.ofCode n).code = n := by interval_cases n <;> rfl

@[simp] theorem Mode.code_ofCode_mod (n : Nat) : (Mode.ofCode (n % 8)).code = n % 8 :=
  Mode.code_ofCode (Nat.mod_lt n (by decide))

/-- An operand is read back from any word whose six lowest bits are its code. -/
theorem Operand.ofCode_add_code (k : Nat) (o : Operand) : Operand.ofCode (64 * k + o.code) = o := by
  obtain ⟨m, r⟩ := o
  have hr := r.code_lt
  have hm : m.code < 8 := by cases m <;> decide
  have hmode : (64 * k + (8 * m.code + r.code)) / 8 % 8 = m.code := by omega
  have hreg : (64 * k + (8 * m.code + r.code)) % 8 = r.code := by omega
  simp only [Operand.ofCode, Operand.code, hmode, hreg, Mode.ofCode_code, Reg.ofCode_code]

theorem Operand.code_ofCode (n : Nat) : (Operand.ofCode n).code = n % 64 := by
  simp only [Operand.code, Operand.ofCode, Mode.code_ofCode_mod, Reg.code_ofCode_mod]
  omega

@[simp] theorem code_dstField (n : Nat) : (dstField n).code = n % 64 := Operand.code_ofCode n

@[simp] theorem code_srcField (n : Nat) : (srcField n).code = n / 64 % 64 := Operand.code_ofCode (n / 64)

@[simp] theorem code_regField (n : Nat) : (regField n).code = n / 64 % 8 := Reg.code_ofCode_mod (n / 64)

@[simp] theorem toNat_byteField (n : Nat) : (byteField n).toNat = n % 256 := BitVec.toNat_ofNat n 8

@[simp] theorem toNat_sixField (n : Nat) : (sixField n).toNat = n % 64 := BitVec.toNat_ofNat n 6

/-- A field of `k` bits is read back from any word whose `k` lowest bits it is. -/
theorem ofNat_add_toNat {k base : Nat} (h : base % 2 ^ k = 0) (b : BitVec k) : BitVec.ofNat k (base + b.toNat) = b := by
  apply BitVec.eq_of_toNat_eq
  rw [BitVec.toNat_ofNat, Nat.add_mod, h, Nat.zero_add, Nat.mod_mod, Nat.mod_eq_of_lt b.isLt]

/-! ### The reserved words (R112) -/

/-- The number lies in one of the ranges of R112. -/
def InReservedRange (n : Nat) : Prop :=
  0o000007 ≤ n ∧ n ≤ 0o000077 ∨ 0o000210 ≤ n ∧ n ≤ 0o000237 ∨ 0o006500 ≤ n ∧ n ≤ 0o006677 ∨
  0o007000 ≤ n ∧ n ≤ 0o007777 ∨ 0o070000 ≤ n ∧ n ≤ 0o073777 ∨ 0o075000 ≤ n ∧ n ≤ 0o076777 ∨
  0o106500 ≤ n ∧ n ≤ 0o106677 ∨ 0o107000 ≤ n ∧ n ≤ 0o107777 ∨ 0o170000 ≤ n ∧ n ≤ 0o177777

theorem isReservedWord_iff (w : Word) : isReservedWord w = true ↔ InReservedRange w.toNat := by
  simp [isReservedWord, reservedRanges, InReservedRange]

/-! ### What the decoder answers

Each part of the decoder answers, on the words it is asked about, a well-formed instruction whose word is the one
decoded; the branches of the decoder are the cases. In a default branch the patterns above it are excluded. -/

/-- The instruction is well formed and its word, as a number, is `n`. -/
def Instr.IsWord (i : Instr) (n : Nat) : Prop := i.wf = true ∧ encodeNat i = n

theorem reserved_isWord {n : Nat} (h : InReservedRange n) : (Instr.reserved (BitVec.ofNat 16 n)).IsWord n := by
  have hlt : n < 65536 := by unfold InReservedRange at h; omega
  have hn : (BitVec.ofNat 16 n).toNat = n := Nat.mod_eq_of_lt hlt
  exact ⟨(isReservedWord_iff _).2 (hn.symm ▸ h), hn⟩

theorem decodeNoOperand_isWord {n : Nat} (h : n < 0o100) : (decodeNoOperand n).IsWord n := by
  unfold decodeNoOperand
  split
  case h_8 =>
    simp only [imp_false] at *
    exact reserved_isWord (by unfold InReservedRange; omega)
  all_goals exact ⟨rfl, rfl⟩

theorem decodeLowest_isWord {n : Nat} (h : n < 0o400) : (decodeLowest n).IsWord n := by
  unfold decodeLowest
  split
  · exact decodeNoOperand_isWord (by omega)
  · exact ⟨rfl, by simp only [encodeNat, encodeSingle, code_dstField]; omega⟩
  · split
    · exact ⟨rfl, by simp only [encodeNat, Reg.code_ofCode_mod]; omega⟩
    · split
      · exact reserved_isWord (by unfold InReservedRange; omega)
      · refine ⟨rfl, ?_⟩
        simp only [encodeNat, decide_eq_true_eq, BitVec.toNat_ofNat]
        split <;> omega
  · simp only [imp_false] at *
    exact ⟨rfl, by simp only [encodeNat, encodeSingle, code_dstField]; omega⟩

theorem decodeSingle_isWord {n : Nat} (h : 0o5000 ≤ n ∧ n < 0o10000) : (decodeSingle n).IsWord n := by
  unfold decodeSingle
  split
  case h_13 => exact ⟨rfl, by simp only [encodeNat, toNat_sixField]; omega⟩
  case h_15 =>
    simp only [imp_false] at *
    exact reserved_isWord (by unfold InReservedRange; omega)
  all_goals exact ⟨rfl, by simp only [encodeNat, encodeSingle, code_dstField]; omega⟩

theorem decodeSingleByte_isWord {n : Nat} (h : 0o105000 ≤ n ∧ n < 0o110000) : (decodeSingleByte n).IsWord n := by
  unfold decodeSingleByte
  split
  case h_15 =>
    simp only [imp_false] at *
    exact reserved_isWord (by unfold InReservedRange; omega)
  all_goals exact ⟨rfl, by simp only [encodeNat, encodeSingle, code_dstField]; omega⟩

theorem decodeLow_isWord {n : Nat} (h : n < 0o10000) : (decodeLow n).IsWord n := by
  unfold decodeLow
  split
  case h_1 => exact decodeLowest_isWord (by omega)
  case h_9 | h_10 => exact ⟨rfl, by simp only [encodeNat, code_regField, code_dstField]; omega⟩
  case h_11 =>
    simp only [imp_false] at *
    exact decodeSingle_isWord (by omega)
  all_goals exact ⟨rfl, by simp only [encodeNat, toNat_byteField]; omega⟩

theorem decodeHigh_isWord {n : Nat} (h : 0o100000 ≤ n ∧ n < 0o110000) : (decodeHigh n).IsWord n := by
  unfold decodeHigh
  split
  case h_11 =>
    simp only [imp_false] at *
    exact decodeSingleByte_isWord (by omega)
  all_goals exact ⟨rfl, by simp only [encodeNat, toNat_byteField]; omega⟩

theorem decodeSeven_isWord {n : Nat} (h : 0o70000 ≤ n ∧ n < 0o100000) : (decodeSeven n).IsWord n := by
  unfold decodeSeven
  split
  · exact ⟨rfl, by simp only [encodeNat, code_regField, code_dstField]; omega⟩
  · exact ⟨rfl, by simp only [encodeNat, code_regField, toNat_sixField]; omega⟩
  · simp only [imp_false] at *
    exact reserved_isWord (by unfold InReservedRange; omega)

theorem decodeNat_isWord {n : Nat} (h : n < 0o200000) : (decodeNat n).IsWord n := by
  unfold decodeNat
  split
  case h_1 => exact decodeLow_isWord (by omega)
  case h_8 => exact decodeSeven_isWord (by omega)
  case h_9 => exact decodeHigh_isWord (by omega)
  case h_16 =>
    simp only [imp_false] at *
    exact reserved_isWord (by unfold InReservedRange; omega)
  all_goals exact ⟨rfl, by simp only [encodeNat, encodeDouble, code_srcField, code_dstField]; omega⟩

/-- Settles O2, by the branches of the decoder: each answers an instruction whose word is the one decoded. -/
theorem encodeOfDecodeIsIdentity : Obligations.EncodeOfDecodeIsIdentity := by
  intro w
  obtain ⟨hwf, hword⟩ := decodeNat_isWord w.isLt
  exact ⟨hwf, by rw [encode, decode, hword, BitVec.ofNat_toNat, BitVec.setWidth_eq]⟩

@[simp] theorem encode_reserved (w : Word) : encode (.reserved w) = w := by
  rw [encode, encodeNat, BitVec.ofNat_toNat, BitVec.setWidth_eq]

theorem decode_eq_reserved {w v : Word} (h : decode w = .reserved v) : v = w ∧ isReservedWord w = true := by
  obtain ⟨hwf, hword⟩ := encodeOfDecodeIsIdentity w
  rw [h] at hwf hword
  obtain rfl : v = w := (encode_reserved v).symm.trans hword
  exact ⟨rfl, hwf⟩

/-! ### The row of an instruction (R105) -/

/-- A row of the opcode table has the instruction's mnemonic, and the instruction's word, as a number, lies among the
words from the row's pattern on that its mask leaves free. -/
def Instr.HasRow (i : Instr) : Prop :=
  ∃ r ∈ opcodeTable, r.mnemonic = i.mnemonic ∧ r.pattern ≤ encodeNat i ∧ encodeNat i + r.mask < r.pattern + 0o200000

theorem Instr.hasRow_of_find {i : Instr} {r : OpcodeRow}
    (hfind : opcodeTable.find? (fun q => q.mnemonic == i.mnemonic) = some r)
    (hrange : r.pattern ≤ encodeNat i ∧ encodeNat i + r.mask < r.pattern + 0o200000) : i.HasRow :=
  ⟨r, List.mem_of_find?_eq_some hfind, by simpa using List.find?_some hfind, hrange⟩

theorem mnemonic_of_mem_reservedRows : ∀ r ∈ opcodeTable.drop 71, r.mnemonic = "RESERVED" := by decide

theorem Instr.reserved_hasRow {w : Word} (h : isReservedWord w = true) : (Instr.reserved w).HasRow := by
  have hrow : ∃ r ∈ opcodeTable.drop 71, r.pattern ≤ w.toNat ∧ w.toNat + r.mask < r.pattern + 0o200000 := by
    have hw := (isReservedWord_iff w).1 h
    unfold InReservedRange at hw
    simp only [opcodeTable, opcodeRowsA, opcodeRowsB, opcodeRowsC, opcodeRowsD, opcodeRowsE, opcodeRowsF, opcodeRowsG,
      opcodeRowsH, List.cons_append, List.nil_append, List.drop_succ_cons, List.drop_zero, List.mem_cons,
      List.not_mem_nil, or_false, exists_eq_or_imp, exists_eq_left]
    omega
  obtain ⟨r, hr, hrange⟩ := hrow
  exact ⟨r, List.mem_of_mem_drop hr, mnemonic_of_mem_reservedRows r hr, hrange⟩

theorem Instr.hasRow {i : Instr} (h : i.wf = true) : i.HasRow := by
  cases i with
  | halt | wait | rti | bpt | iot | reset | rtt => exact hasRow_of_find rfl (by decide)
  | rts r =>
    have := r.code_lt
    exact hasRow_of_find rfl (by simp only [encodeNat]; omega)
  | ccop set m => exact hasRow_of_find rfl (by simp only [encodeNat]; split <;> omega)
  | br b | bne b | beq b | bge b | blt b | bgt b | ble b | bpl b | bmi b | bhi b | blos b | bvc b | bvs b | bcc b
  | bcs b | emt b | trap b | mark b =>
    exact hasRow_of_find rfl (by simp only [encodeNat]; omega)
  | jmp d | swab d | clr d | com d | inc d | dec d | neg d | adc d | sbc d | tst d | ror d | rol d | asr d | asl d
  | sxt d | clrb d | comb d | incb d | decb d | negb d | adcb d | sbcb d | tstb d | rorb d | rolb d | asrb d | aslb d
  | mtps d | mfps d =>
    have := d.code_lt
    exact hasRow_of_find rfl (by simp only [encodeNat, encodeSingle]; omega)
  | mov s d | cmp s d | bit s d | bic s d | bis s d | add s d | movb s d | cmpb s d | bitb s d | bicb s d | bisb s d
  | sub s d =>
    have := s.code_lt
    have := d.code_lt
    exact hasRow_of_find rfl (by simp only [encodeNat, encodeDouble]; omega)
  | jsr r d | xor r d =>
    have := r.code_lt
    have := d.code_lt
    exact hasRow_of_find rfl (by simp only [encodeNat]; omega)
  | sob r off =>
    have := r.code_lt
    exact hasRow_of_find rfl (by simp only [encodeNat]; omega)
  | reserved w => exact reserved_hasRow h

theorem pattern_le_mask : ∀ r ∈ opcodeTable, r.pattern ≤ r.mask := by decide

theorem toNat_encode {i : Instr} (h : i.wf = true) : (encode i).toNat = encodeNat i := by
  obtain ⟨r, hr, -, -, hhi⟩ := Instr.hasRow h
  have := pattern_le_mask r hr
  exact Nat.mod_eq_of_lt (by omega)

/-! ### The rows and the words they cover (R105, R112) -/

/-- A row leaves the lowest `k` bits of a word free and fixes all those above. -/
theorem mask_fixes_high_bits : ∀ r ∈ opcodeTable, ∃ k ≤ 12, r.mask + 2 ^ k = 0o200000 ∧
    r.mask / 2 ^ k = 2 ^ (16 - k) - 1 ∧ r.mask % 2 ^ k = 0 ∧ r.pattern % 2 ^ k = 0 := by decide

theorem covers_of_range {r : OpcodeRow} {w : Word} (hr : r ∈ opcodeTable) (hlo : r.pattern ≤ w.toNat)
    (hhi : w.toNat + r.mask < r.pattern + 0o200000) : r.covers w = true := by
  obtain ⟨k, hk, hsize, hmask, hfree, hpattern⟩ := mask_fixes_high_bits r hr
  have hw : w.toNat / 2 ^ k < 2 ^ (16 - k) :=
    Nat.div_lt_of_lt_mul (by rw [← pow_add, Nat.add_sub_cancel' (by omega)]; exact w.isLt)
  have hdiv : w.toNat / 2 ^ k = r.pattern / 2 ^ k := by
    have hmul := Nat.div_add_mod' r.pattern (2 ^ k)
    exact (Nat.div_eq_iff (Nat.two_pow_pos k)).2 (by omega)
  have hhigh : (w.toNat &&& r.mask) / 2 ^ k = r.pattern / 2 ^ k := by
    rw [Nat.and_div_two_pow, hmask, Nat.and_two_pow_sub_one_of_lt_two_pow hw, hdiv]
  have hlow : (w.toNat &&& r.mask) % 2 ^ k = r.pattern % 2 ^ k := by
    rw [Nat.and_mod_two_pow, hfree, Nat.and_zero, hpattern]
  refine decide_eq_true (p := w.toNat &&& r.mask = r.pattern) ?_
  rw [← Nat.div_add_mod (w.toNat &&& r.mask) (2 ^ k), hhigh, hlow, Nat.div_add_mod]

theorem exists_row_covers_encode {i : Instr} (h : i.wf = true) :
    ∃ r ∈ opcodeTable, r.mnemonic = i.mnemonic ∧ r.covers (encode i) = true := by
  obtain ⟨r, hr, hname, hlo, hhi⟩ := Instr.hasRow h
  rw [← toNat_encode h] at hlo hhi
  exact ⟨r, hr, hname, covers_of_range hr hlo hhi⟩

theorem exists_row_covers (w : Word) : ∃ r ∈ opcodeTable, r.mnemonic = (decode w).mnemonic ∧ r.covers w = true := by
  obtain ⟨hwf, hword⟩ := encodeOfDecodeIsIdentity w
  simpa only [hword] using exists_row_covers_encode hwf

theorem opcodeTable_nodup : opcodeTable.Nodup :=
  List.Nodup.of_map OpcodeRow.pattern (by decide)

/-- Two rows whose patterns agree in every bit that both masks fix are one row. -/
theorem opcodeTable_disjoint : (opcodeTable.all fun a => opcodeTable.all fun b =>
    decide (a.pattern &&& b.mask = b.pattern &&& a.mask → a = b)) = true := by decide

theorem eq_of_covers {a b : OpcodeRow} {w : Word} (ha : a ∈ opcodeTable) (hb : b ∈ opcodeTable)
    (haw : a.covers w = true) (hbw : b.covers w = true) : a = b := by
  have hapat : w.toNat &&& a.mask = a.pattern := of_decide_eq_true haw
  have hbpat : w.toNat &&& b.mask = b.pattern := of_decide_eq_true hbw
  have hdisjoint := List.all_eq_true.1 (List.all_eq_true.1 opcodeTable_disjoint a ha) b hb
  exact of_decide_eq_true hdisjoint (by rw [← hapat, ← hbpat, Nat.and_right_comm])

/-- Settles O3: the word of the instruction decoded lies in that instruction's row, and the rows are disjoint. -/
theorem oneOpcodeRowDecidesEachWord : Obligations.OneOpcodeRowDecidesEachWord := by
  intro w
  obtain ⟨r, hr, hname, hcovers⟩ := exists_row_covers w
  have hmem : ∀ q, q ∈ opcodeTable.filter (fun q => q.covers w) ↔ q ∈ [r] := fun q => by
    rw [List.mem_filter, List.mem_singleton]
    exact ⟨fun ⟨hq, hqw⟩ => eq_of_covers hq hr hqw hcovers, fun e => e ▸ ⟨hr, hcovers⟩⟩
  have hperm := (List.perm_ext_iff_of_nodup (opcodeTable_nodup.filter _) (List.nodup_singleton r)).2 hmem
  exact ⟨r, List.perm_singleton.1 hperm, hname.symm⟩

/-! ### The reserved instruction (R106, R112) -/

theorem Instr.eq_reserved_of_mnemonic {i : Instr} (h : i.mnemonic = "RESERVED") : ∃ v, i = .reserved v := by
  cases i with
  | reserved v => exact ⟨v, rfl⟩
  | _ => exact absurd h (by simp only [Instr.mnemonic]; decide)

/-- The row of a reserved word is a reserved row, and the decoder follows it. -/
theorem decode_of_isReservedWord {w : Word} (h : isReservedWord w = true) : decode w = .reserved w := by
  obtain ⟨r, hr, hname, hcovers⟩ := exists_row_covers w
  obtain ⟨q, hq, hqname, hqcovers⟩ := exists_row_covers_encode (i := .reserved w) h
  rw [encode_reserved] at hqcovers
  obtain rfl := eq_of_covers hr hq hcovers hqcovers
  obtain ⟨v, hv⟩ := Instr.eq_reserved_of_mnemonic (hname.symm.trans hqname)
  rw [hv, (decode_eq_reserved hv).1]

/-- Settles O4, by the row of a reserved word and by the word of a reserved instruction. -/
theorem reservedWordsRaiseReservedInstruction : Obligations.ReservedWordsRaiseReservedInstruction := fun w =>
  ⟨⟨decode_of_isReservedWord, fun h => (decode_eq_reserved h).2⟩,
    ⟨fun ⟨_, h⟩ => (decode_eq_reserved h).2, fun h => ⟨w, decode_of_isReservedWord h⟩⟩, fun _ => rfl⟩

/-! ### The fields of an encoded word, format by format (R101) -/

section
variable (op : Nat) (s d : Operand)

@[simp] theorem encodeSingle_div_64 : encodeSingle op d / 64 = op := by
  have := d.code_lt
  simp only [encodeSingle]; omega

@[simp] theorem encodeSingle_div_256 : encodeSingle op d / 256 = op / 4 := by
  have := d.code_lt
  simp only [encodeSingle]; omega

@[simp] theorem encodeSingle_div_4096 : encodeSingle op d / 4096 = op / 64 := by
  have := d.code_lt
  simp only [encodeSingle]; omega

@[simp] theorem dstField_encodeSingle : dstField (encodeSingle op d) = d := d.ofCode_add_code op

@[simp] theorem encodeDouble_div_4096 : encodeDouble op s d / 4096 = op := by
  have := s.code_lt
  have := d.code_lt
  simp only [encodeDouble]; omega

@[simp] theorem srcField_encodeDouble : srcField (encodeDouble op s d) = s := by
  have := d.code_lt
  have hsrc : encodeDouble op s d / 64 = 64 * op + s.code := by simp only [encodeDouble]; omega
  rw [srcField, hsrc, s.ofCode_add_code]

@[simp] theorem dstField_encodeDouble : dstField (encodeDouble op s d) = d := by
  have hdst : encodeDouble op s d = 64 * (64 * op + s.code) + d.code := by simp only [encodeDouble]; omega
  rw [dstField, hdst, d.ofCode_add_code]

end

section
variable {base : Nat} (h : base % 256 = 0) (b : Byte)
include h

theorem byteWord_div_256 : (base + b.toNat) / 256 = base / 256 := by omega

theorem byteWord_div_4096 : (base + b.toNat) / 4096 = base / 4096 := by omega

theorem byteField_byteWord : byteField (base + b.toNat) = b := ofNat_add_toNat h b

end

section
variable {base : Nat} (h : base % 512 = 0) (r : Reg)
include h

theorem registerWord_div_512 {x : Nat} (hx : x < 64) : (base + 64 * r.code + x) / 512 = base / 512 := by
  have := r.code_lt
  omega

theorem registerWord_div_4096 {x : Nat} (hx : x < 64) : (base + 64 * r.code + x) / 4096 = base / 4096 := by
  have := r.code_lt
  omega

theorem regField_registerWord {x : Nat} (hx : x < 64) : regField (base + 64 * r.code + x) = r := by
  have := r.code_lt
  have hreg : (base + 64 * r.code + x) / 64 % 8 = r.code := by omega
  rw [regField, hreg, r.ofCode_code]

theorem dstField_registerWord (d : Operand) : dstField (base + 64 * r.code + d.code) = d := by
  have hdst : base + 64 * r.code + d.code = 64 * (base / 64 + r.code) + d.code := by omega
  rw [dstField, hdst, d.ofCode_add_code]

theorem sixField_registerWord (off : BitVec 6) : sixField (base + 64 * r.code + off.toNat) = off :=
  ofNat_add_toNat (by omega) off

end

/-! ### Decoding an encoded instruction -/

theorem decodeNat_encodeNat_jsr (r : Reg) (d : Operand) : decodeNat (encodeNat (.jsr r d)) = .jsr r d := by
  have := r.code_lt
  have := d.code_lt
  have hrow : (0o4000 + 64 * r.code + d.code) / 256 % 16 = 8 ∨ (0o4000 + 64 * r.code + d.code) / 256 % 16 = 9 := by
    omega
  rcases hrow with h | h <;>
    simp only [encodeNat, decodeNat, decodeLow, registerWord_div_4096, h, regField_registerWord,
      dstField_registerWord, d.code_lt]

theorem decodeNat_encodeNat_mark (m : BitVec 6) : decodeNat (encodeNat (.mark m)) = .mark m := by
  have h64 : (0o6400 + m.toNat) / 64 = 52 := by omega
  have h256 : (0o6400 + m.toNat) / 256 = 13 := by omega
  have h4096 : (0o6400 + m.toNat) / 4096 = 0 := by omega
  have hfield : sixField (0o6400 + m.toNat) = m := ofNat_add_toNat rfl m
  simp only [encodeNat, decodeNat, decodeLow, decodeSingle, h64, h256, h4096, hfield]

theorem decodeNat_conditionCodes {n : Nat} (h : 0o240 ≤ n ∧ n < 0o300) :
    decodeNat n = .ccop (decide (n / 16 % 2 = 1)) (BitVec.ofNat 4 n) := by
  have h64 : n / 64 = 2 := by omega
  have h256 : n / 256 = 0 := by omega
  have h4096 : n / 4096 = 0 := by omega
  have hrts : ¬ n % 64 < 8 := by omega
  have hreserved : ¬ n % 64 < 32 := by omega
  simp only [decodeNat, decodeLow, decodeLowest, h64, h256, h4096, hrts, hreserved, Nat.zero_mod, if_false]

theorem decodeNat_encodeNat_ccop (set : Bool) (m : BitVec 4) :
    decodeNat (encodeNat (.ccop set m)) = .ccop set m := by
  have hm := m.isLt
  have hbase : (0o240 + if set then 0o20 else 0) % 2 ^ 4 = 0 := by cases set <;> rfl
  have hset : decide ((0o240 + (if set then 0o20 else 0) + m.toNat) / 16 % 2 = 1) = set := by
    cases set <;> simp <;> omega
  have hrange : 0o240 ≤ encodeNat (.ccop set m) ∧ encodeNat (.ccop set m) < 0o300 := by
    simp only [encodeNat]
    split <;> omega
  rw [decodeNat_conditionCodes hrange, encodeNat, hset, ofNat_add_toNat hbase]

theorem decodeNat_encodeNat {i : Instr} (h : i.wf = true) : decodeNat (encodeNat i) = i := by
  cases i with
  | halt | wait | rti | bpt | iot | reset | rtt => rfl
  | rts r => cases r <;> rfl
  | ccop set m => exact decodeNat_encodeNat_ccop set m
  | mark m => exact decodeNat_encodeNat_mark m
  | jsr r d => exact decodeNat_encodeNat_jsr r d
  | jmp d | swab d => simp [encodeNat, decodeNat, decodeLow, decodeLowest]
  | clr d | com d | inc d | dec d | neg d | adc d | sbc d | tst d | ror d | rol d | asr d | asl d | sxt d =>
    simp [encodeNat, decodeNat, decodeLow, decodeSingle]
  | clrb d | comb d | incb d | decb d | negb d | adcb d | sbcb d | tstb d | rorb d | rolb d | asrb d | aslb d
  | mtps d | mfps d => simp [encodeNat, decodeNat, decodeHigh, decodeSingleByte]
  | mov s d | cmp s d | bit s d | bic s d | bis s d | add s d | movb s d | cmpb s d | bitb s d | bicb s d | bisb s d
  | sub s d => simp [encodeNat, decodeNat]
  | br b | bne b | beq b | bge b | blt b | bgt b | ble b =>
    simp only [encodeNat, decodeNat, decodeLow, byteWord_div_256, byteWord_div_4096, byteField_byteWord]
  | bpl b | bmi b | bhi b | blos b | bvc b | bvs b | bcc b | bcs b | emt b | trap b =>
    simp only [encodeNat, decodeNat, decodeHigh, byteWord_div_256, byteWord_div_4096, byteField_byteWord]
  | xor r d =>
    simp only [encodeNat, decodeNat, decodeSeven, registerWord_div_512, registerWord_div_4096, regField_registerWord,
      dstField_registerWord, d.code_lt]
  | sob r off =>
    simp only [encodeNat, decodeNat, decodeSeven, registerWord_div_512, registerWord_div_4096, regField_registerWord,
      sixField_registerWord, off.isLt]
  | reserved w => exact decode_of_isReservedWord h

/-- Settles O1, by the format of the instruction: every field the encoder writes is the one the decoder reads; a
reserved word by its row. -/
theorem decodeOfEncodeIsIdentity : Obligations.DecodeOfEncodeIsIdentity := fun i h => by
  rw [decode, toNat_encode h, decodeNat_encodeNat h]

/-! ### Words written out (R105) -/

/-- Settles O5, by running the decoder on each word. -/
theorem sampleWordsDecode : Obligations.SampleWordsDecode := by
  unfold Obligations.SampleWordsDecode
  decide

end Sys2Proof

/-! ## Operand access (40_addressing_modes.md R131 to R148) -/

namespace Sys2Proof.Machine

/-! ### Composing operations -/

theorem Res.andThen_of_ok {α β : Type} {x : Res α} {f : α → State → Res β} {v : α} {t : State} (h : x = .ok v t) :
    x.andThen f = f v t := congrArg (Res.andThen · f) h

theorem Res.andThen_of_abandoned {α β : Type} {x : Res α} {f : α → State → Res β} {t : State} (h : x = .abandoned t) :
    x.andThen f = .abandoned t := congrArg (Res.andThen · f) h

theorem State.read_of_load {s t : State} {w : Width} {a v : Word} (h : s.load w a = (some v, t)) :
    s.read w a = .ok v t := by rw [State.read, h]

theorem State.write_of_store {s t : State} {w : Width} {a v : Word} (h : s.store w a v = (true, t)) :
    s.write w a v = .ok () t := by rw [State.write, h]

theorem State.fetchExtension_of_read {s t : State} {d : Word} (h : s.read .word (s.reg .pc) = .ok d t) :
    s.fetchExtension = .ok d t.advancePc := Res.andThen_of_ok h

theorem State.fetchExtension_of_abandoned {s t : State} (h : s.read .word (s.reg .pc) = .abandoned t) :
    s.fetchExtension = .abandoned t := Res.andThen_of_abandoned h

/-! ### The steps of the registers (R148) -/

/-- The registers with `k` added to one. -/
def Regs.addTo (x : Regs) (r : Reg) (k : Word) : Regs := x.set r (x.get r + k)

theorem Regs.get_addTo (x : Regs) (r q : Reg) (k : Word) :
    (x.addTo r k).get q = x.get q + if q = r then k else 0 := by
  rw [Regs.addTo, Regs.get_set]
  split
  · subst q; rfl
  · exact (BitVec.add_zero _).symm

@[simp] theorem Regs.addTo_zero (x : Regs) (r : Reg) : x.addTo r 0 = x := by
  have hzero : x.get r + 0 = x.get r := BitVec.add_zero _
  rw [Regs.addTo, hzero]
  cases r <;> rfl

/-- R137: a step down is the addition of the negated step. -/
theorem State.setReg_sub_regs (s : State) (r : Reg) (k : Word) :
    (s.setReg r (s.reg r - k)).regs = s.regs.addTo r (0 - k) := by
  have hneg : s.reg r - k = s.reg r + (0 - k) := by bv_omega
  rw [hneg]
  rfl

/-- The registers after a completed access to an operand: PC advanced past its extension word, its register stepped. -/
def Regs.stepped (x : Regs) (w : Width) (o : Operand) : Regs := (x.addTo .pc o.pcDelta).addTo o.reg (o.delta w)

theorem Regs.get_stepped (x : Regs) (w : Width) (o : Operand) (q : Reg) :
    (x.stepped w o).get q =
      x.get q + (if q = .pc then o.pcDelta else 0) + (if q = o.reg then o.delta w else 0) := by
  rw [Regs.stepped, Regs.get_addTo, Regs.get_addTo]

/-- An operand without an extension word changes no register but its own. -/
theorem Regs.stepped_of_pcDelta (x : Regs) (w : Width) {o : Operand} (h : o.pcDelta = 0) :
    x.stepped w o = x.addTo o.reg (o.delta w) := by rw [Regs.stepped, h, Regs.addTo_zero]

/-- An operand whose register is not stepped changes no register but PC. -/
theorem Regs.stepped_of_delta (x : Regs) {w : Width} {o : Operand} (h : o.delta w = 0) :
    x.stepped w o = x.addTo .pc o.pcDelta := by rw [Regs.stepped, h, Regs.addTo_zero]

/-- The registers once the post-action of a place is done. -/
def Place.stepRegs (p : Place) (x : Regs) : Regs :=
  match p.post with
  | none => x
  | some (r, k) => x.addTo r k

theorem State.doPost_regs (s : State) (p : Place) : (s.doPost p).regs = p.stepRegs s.regs := by
  obtain ⟨l, post⟩ := p
  cases post <;> rfl

/-- R66: a read that completes leaves the processor alone. -/
theorem State.read_sameCpu (s : State) (w : Width) (a : Word) :
    (s.read w a).Sat (fun _ => SameCpu s) (fun _ => True) (fun _ => False) := by
  have hload := SameCpu.load s w a
  unfold State.read
  split
  · rename_i e; rw [e] at hload; exact hload
  · trivial

theorem State.readLoc_sameCpu (s : State) (w : Width) (l : Loc) :
    (s.readLoc w l).Sat (fun _ => SameCpu s) (fun _ => True) (fun _ => False) := by
  cases l with
  | reg r => cases w <;> exact SameCpu.refl s
  | mem a => exact s.read_sameCpu w a

theorem State.fetchExtension_regs (s : State) :
    s.fetchExtension.Sat (fun _ t => t.regs = s.regs.addTo .pc 2) (fun _ => True) (fun _ => False) :=
  (s.read_sameCpu .word _).andThen fun _ _ h => congrArg (Regs.addTo · .pc 2) h.regs

/-- R148: what `Resolve` has done to the registers and what its post-action will do make the steps of the mode. -/
theorem State.resolve_regs (s : State) (w : Width) (o : Operand) :
    (s.resolve w o).Sat (fun p t => p.stepRegs t.regs = s.regs.stepped w o) (fun _ => True) (fun _ => False) := by
  obtain ⟨m, r⟩ := o
  cases m with
  | register | deferred => exact ((s.regs.stepped_of_pcDelta w rfl).trans (s.regs.addTo_zero r)).symm
  | autoInc => exact (s.regs.stepped_of_pcDelta w rfl).symm
  | autoIncDef =>
    rw [Regs.stepped_of_pcDelta _ _ rfl]
    exact (s.read_sameCpu .word _).andThen fun _ _ h => congrArg (Regs.addTo · r 2) h.regs
  | autoDec =>
    rw [Regs.stepped_of_pcDelta _ _ rfl]
    exact s.setReg_sub_regs r _
  | autoDecDef =>
    rw [Regs.stepped_of_pcDelta _ _ rfl]
    exact (State.read_sameCpu _ .word _).andThen fun _ _ h => h.regs.trans (s.setReg_sub_regs r 2)
  | index =>
    rw [Regs.stepped_of_delta _ rfl]
    exact s.fetchExtension_regs.andThen fun _ _ h => h
  | indexDef =>
    rw [Regs.stepped_of_delta _ rfl]
    exact s.fetchExtension_regs.andThen fun _ t h => (t.read_sameCpu .word _).andThen fun _ _ k => k.regs.trans h

theorem State.srcRead_regs (s : State) (w : Width) (o : Operand) :
    (s.srcRead w o).Sat (fun _ t => t.regs = s.regs.stepped w o) (fun _ => True) (fun _ => False) :=
  (s.resolve_regs w o).andThen fun p t ht => (t.readLoc_sameCpu w p.loc).andThen fun _ u hu =>
    (u.doPost_regs p).trans ((congrArg p.stepRegs hu.regs).trans ht)

/-- Settles O14: the registers after the read are those before it with the steps of the mode. -/
theorem operandReadStepsRegisters : Obligations.OperandReadStepsRegisters := by
  intro s t w o v h
  have hregs := s.srcRead_regs w o
  rw [h] at hregs
  have hget (q : Reg) :
      t.reg q = s.reg q + (if q = .pc then o.pcDelta else 0) + (if q = o.reg then o.delta w else 0) :=
    (congrArg (Regs.get · q) hregs).trans (s.regs.get_stepped w o q)
  refine ⟨fun hpc => ⟨?_, ?_⟩, fun hpc => ?_, fun r hr hpc => ?_⟩
  · simp [hget, hpc]
  · simp [hget, Ne.symm hpc]
  · simp [hget, hpc, add_right_comm]
  · simp [hget, hr, hpc]

/-! ### Operands in registers or memory (R133 to R145) -/

section
variable {s t : State} {w : Width} {o : Operand} {k : MemKind}

/-- The location is a register, or memory of kind `k` serves it. -/
def State.locAt (s : State) (w : Width) (l : Loc) (k : MemKind) : Prop :=
  match l with
  | .reg _ => True
  | .mem a => ∃ p, s.memoryAt w a k p

theorem State.locAt.readLoc {l : Loc} (h : s.locAt w l k) : ∃ v, s.readLoc w l = .ok v s := by
  cases l with
  | reg r => cases w <;> exact ⟨_, rfl⟩
  | mem a =>
    obtain ⟨p, hp⟩ := h
    exact ⟨_, State.read_of_load hp.load⟩

theorem State.locAt.writeLoc {l : Loc} (h : s.locAt w l .ram) (v : Word) : ∃ u, s.writeLoc w l v = .ok () u := by
  cases l with
  | reg r => cases w <;> exact ⟨_, rfl⟩
  | mem a =>
    obtain ⟨p, hp⟩ := h
    exact ⟨_, State.write_of_store (hp.store v)⟩

theorem State.locAt.dstWrite {p : Place} (h : s.locAt w p.loc .ram) (v : Word) : ∃ u, s.dstWrite w p v = .ok () u := by
  obtain ⟨u, hu⟩ := h.writeLoc v
  exact ⟨_, Res.andThen_of_ok hu⟩

/-- What serves an access does not depend on the registers. -/
theorem State.memoryAt.setReg {a : Word} {p : Nat} (h : s.memoryAt w a k p) (r : Reg) (v : Word) :
    (s.setReg r v).memoryAt w a k p := h

theorem State.wordIs.setReg {a x : Word} (h : s.wordIs a x) (r : Reg) (v : Word) : (s.setReg r v).wordIs a x := h

theorem State.wordIs.read {a v : Word} (h : s.wordIs a v) : s.read .word a = .ok v s := by
  obtain ⟨k, p, hp, rfl⟩ := h
  exact State.read_of_load hp.load

theorem State.wordIs.fetchExtension {d : Word} (h : s.wordIs (s.reg .pc) d) : s.fetchExtension = .ok d s.advancePc :=
  State.fetchExtension_of_read h.read

/-- R132: the pointers and the extension word of such an operand can be read, and lead to its location. -/
theorem State.operandAt.resolve (h : s.operandAt w o k) : ∃ p t, s.resolve w o = .ok p t ∧ t.locAt w p.loc k := by
  obtain ⟨m, r⟩ := o
  cases m with
  | register => exact ⟨_, _, rfl, trivial⟩
  | deferred | autoInc => exact ⟨_, _, rfl, h⟩
  | autoIncDef =>
    obtain ⟨a, p, ha, hp⟩ := h
    exact ⟨_, _, Res.andThen_of_ok ha.read, p, hp⟩
  | autoDec =>
    obtain ⟨p, hp⟩ := h
    exact ⟨_, _, rfl, p, hp.setReg r _⟩
  | autoDecDef =>
    obtain ⟨a, p, ha, hp⟩ := h
    exact ⟨_, _, Res.andThen_of_ok (ha.setReg r _).read, p, hp.setReg r _⟩
  | index =>
    obtain ⟨d, p, hd, hp⟩ := h
    exact ⟨_, _, Res.andThen_of_ok hd.fetchExtension, p, hp.setReg .pc _⟩
  | indexDef =>
    obtain ⟨d, a, p, hd, ha, hp⟩ := h
    exact ⟨_, _, (Res.andThen_of_ok hd.fetchExtension).trans (Res.andThen_of_ok (ha.setReg .pc _).read), p,
      hp.setReg .pc _⟩

theorem State.operandAt.srcRead (h : s.operandAt w o k) : ∃ v t, s.srcRead w o = .ok v t := by
  obtain ⟨p, t, hp, hl⟩ := h.resolve
  obtain ⟨v, hv⟩ := hl.readLoc
  exact ⟨v, _, (Res.andThen_of_ok hp).trans (Res.andThen_of_ok hv)⟩

theorem State.operandAt.dstRead (h : s.operandAt w o k) :
    ∃ p d t, s.dstRead w o = .ok (p, d) t ∧ t.locAt w p.loc k := by
  obtain ⟨p, t, hp, hl⟩ := h.resolve
  obtain ⟨d, hd⟩ := hl.readLoc
  exact ⟨p, d, t, (Res.andThen_of_ok hp).trans (Res.andThen_of_ok hd), hl⟩

theorem State.operandAt.dstStore (h : s.operandAt w o .ram) (v : Word) : ∃ u, s.dstStore w o v = .ok () u := by
  obtain ⟨p, t, hp, hl⟩ := h.resolve
  obtain ⟨u, hu⟩ := hl.dstWrite v
  exact ⟨u, (Res.andThen_of_ok hp).trans hu⟩

/-- R142: a place that has been read from such an operand can be written. -/
theorem State.operandAt.dstWrite {p : Place} {d : Word} (h : s.operandAt w o .ram) (hread : s.dstRead w o = .ok (p, d) t)
    (v : Word) : ∃ u, t.dstWrite w p v = .ok () u := by
  obtain ⟨p', d', t', hp', hl⟩ := h.dstRead
  cases hread.symm.trans hp'
  exact hl.dstWrite v

/-- The width is the step of modes 2 and 4 only, which read no pointer. -/
theorem State.resolve_of_width {p : Place} (h : s.resolve w o = .ok p t) (w' : Width) :
    ∃ q u, s.resolve w' o = .ok q u := by
  obtain ⟨m, r⟩ := o
  cases m with
  | autoInc | autoDec => exact ⟨_, _, rfl⟩
  | register | deferred | autoIncDef | autoDecDef | index | indexDef => exact ⟨p, t, h⟩

/-- R145: outside register mode an operand that resolves has an address. -/
theorem State.effAddr_of_resolve {p : Place} (hm : o.mode ≠ .register) (h : s.resolve .word o = .ok p t) :
    ∃ a, s.effAddr o = .ok a (t.doPost p) := by
  have hplace := (closed_mem s o.reg).resolve .word o stepped_sob (SameMem.refl s)
  rw [h] at hplace
  obtain ⟨hreg, _⟩ : placeOf o p := hplace.2
  cases hl : p.loc with
  | reg r => exact absurd (hreg r hl).1 hm
  | mem a =>
    refine ⟨a, ?_⟩
    rw [State.effAddr, if_neg hm, h, Res.andThen_ok, hl]

theorem State.operandAt.effAddr (h : s.operandAt w o k) (hm : o.mode ≠ .register) : ∃ a t, s.effAddr o = .ok a t := by
  obtain ⟨p, t, hp, _⟩ := h.resolve
  obtain ⟨q, u, hq⟩ := State.resolve_of_width hp .word
  obtain ⟨a, ha⟩ := State.effAddr_of_resolve hm hq
  exact ⟨a, _, ha⟩

end

/-- Settles O15: such an operand resolves to a location that can be read and, in a register or in RAM, written. -/
theorem operandsInMemoryAreReadAndWritten : Obligations.OperandsInMemoryAreReadAndWritten := by
  intro s w o
  refine ⟨fun k h => ⟨h.srcRead, ?_⟩, fun h => ⟨fun p d t hread v => h.dstWrite hread v, h.dstStore, h.effAddr⟩⟩
  obtain ⟨p, d, t, hread, _⟩ := h.dstRead
  exact ⟨p, d, t, hread⟩

/-! ### The modes and the operand accesses (R131, R132, R140 to R143) -/

/-- Settles O12: each mode goes on as its reads of pointers and extension words do, or ends as they end. -/
theorem addressingModes : Obligations.AddressingModes := by
  intro s w r
  refine ⟨rfl, rfl, rfl, rfl, fun _ _ => Res.andThen_of_ok, fun _ => Res.andThen_of_abandoned, rfl,
    fun _ _ => Res.andThen_of_ok, fun _ => Res.andThen_of_abandoned, fun d t h => ⟨?_, fun a u ha => ?_, fun u ha => ?_⟩,
    fun t h => ⟨?_, ?_⟩⟩
  · exact Res.andThen_of_ok (State.fetchExtension_of_read h)
  · exact (Res.andThen_of_ok (State.fetchExtension_of_read h)).trans (Res.andThen_of_ok ha)
  · exact (Res.andThen_of_ok (State.fetchExtension_of_read h)).trans (Res.andThen_of_abandoned ha)
  · exact Res.andThen_of_abandoned (State.fetchExtension_of_abandoned h)
  · exact Res.andThen_of_abandoned (State.fetchExtension_of_abandoned h)

/-- Settles O13: each operation is the sequence of its rule, and a store to a device completes. -/
theorem operandPrimitives : Obligations.OperandPrimitives := by
  intro s w o r a v p
  refine ⟨rfl, rfl, rfl, rfl, rfl, rfl, fun hm d k hd => ?_, rfl, rfl, rfl, rfl, rfl⟩
  exact ⟨_, State.write_of_store (State.store_device v hm hd)⟩

end Sys2Proof.Machine

/-! ## Double-operand instructions (41_double_operand.md R160 to R167) -/

namespace Sys2Proof.Machine

/-! ### A source read that meets a bus error (R147, R160) -/

/-- R11: whenever the operation is abandoned, it has requested the bus-error trap. -/
def Res.AbandonsWithBusError {α : Type} (x : Res α) : Prop :=
  x.Sat (fun _ _ => True) (fun t => t.req.busError = true) (fun _ => True)

theorem Res.AbandonsWithBusError.andThen {α β : Type} {x : Res α} {f : α → State → Res β}
    (hx : x.AbandonsWithBusError) (hf : ∀ v t, (f v t).AbandonsWithBusError) : (x.andThen f).AbandonsWithBusError :=
  Res.Sat.andThen hx fun v t _ => hf v t

section
variable (s : State) (w : Width) (o : Operand)

theorem State.abandonsWithBusError_read (a : Word) : (s.read w a).AbandonsWithBusError := by
  unfold State.read
  split
  · trivial
  · exact rfl

theorem State.abandonsWithBusError_fetchExtension : s.fetchExtension.AbandonsWithBusError :=
  (s.abandonsWithBusError_read ..).andThen fun _ _ => trivial

theorem State.abandonsWithBusError_resolve : (s.resolve w o).AbandonsWithBusError := by
  obtain ⟨m, r⟩ := o
  cases m with
  | register | deferred | autoInc | autoDec => trivial
  | autoIncDef | autoDecDef => exact (State.abandonsWithBusError_read ..).andThen fun _ _ => trivial
  | index => exact s.abandonsWithBusError_fetchExtension.andThen fun _ _ => trivial
  | indexDef =>
    exact s.abandonsWithBusError_fetchExtension.andThen fun _ t =>
      (t.abandonsWithBusError_read ..).andThen fun _ _ => trivial

theorem State.abandonsWithBusError_readLoc (l : Loc) : (s.readLoc w l).AbandonsWithBusError := by
  cases l with
  | reg r => cases w <;> trivial
  | mem a => exact s.abandonsWithBusError_read w a

theorem State.abandonsWithBusError_srcRead : (s.srcRead w o).AbandonsWithBusError :=
  (s.abandonsWithBusError_resolve w o).andThen fun _ t =>
    (t.abandonsWithBusError_readLoc ..).andThen fun _ _ => trivial

/-! An operand that is read does to the processor what the operand of JMP does: JMP keeps PSW and steps the register of
its mode. -/

theorem State.srcRead_psw : (s.srcRead w o).Sat (fun _ t => t.psw = s.psw) (fun t => PswKept (.jmp o) s.psw t.psw)
    (fun t => PswKept (.jmp o) s.psw t.psw) :=
  (closed_psw_kept (.jmp o) s.psw).srcRead w o (fun _ h => h) rfl

theorem State.dstRead_psw : (s.dstRead w o).Sat (fun _ t => t.psw = s.psw) (fun t => PswKept (.jmp o) s.psw t.psw)
    (fun t => PswKept (.jmp o) s.psw t.psw) :=
  ((closed_psw_kept (.jmp o) s.psw).dstRead w o (fun _ h => h) rfl).mono fun _ _ h => h.1

theorem State.srcRead_reg {r : Reg} (hpc : r ≠ .pc) (hr : r ∉ o.stepped) :
    (s.srcRead w o).Sat (fun _ t => t.reg r = s.reg r) (fun t => t.reg r = s.reg r) (fun t => t.reg r = s.reg r) :=
  (closed_reg (i := .jmp o) hpc hr (s.reg r)).srcRead w o (fun _ h => h) rfl

end

/-- R147, R160: a failed source read has requested the trap and changed nothing but PC and the register of its mode. -/
theorem State.srcRead_abandoned {s t : State} {w : Width} {o : Operand} (h : s.srcRead w o = .abandoned t) :
    t.req.busError = true ∧ t.psw = s.psw ∧ t.mem = s.mem ∧ ∀ r, r ≠ .pc → r ∉ o.stepped → t.reg r = s.reg r := by
  have hbus := s.abandonsWithBusError_srcRead w o
  have hpsw := s.srcRead_psw w o
  have hmem := srcRead_sameMem s w o
  rw [h] at hbus hpsw hmem
  refine ⟨hbus, hpsw.whole rfl, hmem.mem, fun r hpc hr => ?_⟩
  have hreg := s.srcRead_reg w o hpc hr
  rw [h] at hreg
  exact hreg

/-! ### The guard of the byte forms (R24) -/

theorem guardBytes_of_byteRefusal {w : Width} {os : List Operand} (h : byteRefusal w os = none) (x : Res Unit) :
    guardBytes w os x = x := by
  unfold byteRefusal at h
  split at h
  · cases h
  · rename_i hpass; exact if_neg hpass

theorem byteRefusal_of_hasMeaning {i : Instr} (h : i.hasMeaning = true) : byteRefusal .byte i.byteOperands = none := by
  refine Option.eq_none_iff_forall_ne_some.2 fun r hr => ?_
  obtain ⟨-, hm⟩ := byteRefusal_byteOperands_eq_some.1 hr
  exact absurd h (by simp [hm])

/-- The guard of a form that has a meaning lets it pass, whichever its width. -/
theorem byteRefusal_of_byWidth {w : Width} {wordForm byteForm : Instr}
    (h : (byWidth w wordForm byteForm).hasMeaning = true) :
    byteRefusal w byteForm.byteOperands = none := by
  cases w with
  | word => rfl
  | byte => exact byteRefusal_of_hasMeaning h

/-! ### Source and destination accesses in their order (R160) -/

/-- R160: the source is read first, so a failed read of it ends the instruction. -/
theorem exec_of_source_abandoned {i : Instr} {s t : State} {w : Width} {src : Operand}
    (hi : i.doubleSource = some (w, src)) (hm : i.hasMeaning = true)
    (h : s.srcRead w src = .abandoned t) : exec i s = .next t := by
  have word {f : Word → State → Res Unit} (hw : s.srcRead .word src = .abandoned t) :
      ((s.srcRead .word src).andThen f).outcome = .next t := congrArg Res.outcome (Res.andThen_of_abandoned hw)
  have byte {os : List Operand} {f : Word → State → Res Unit} (hos : byteRefusal .byte os = none)
      (hb : s.srcRead .byte src = .abandoned t) :
      (guardBytes .byte os ((s.srcRead .byte src).andThen f)).outcome = .next t :=
    congrArg Res.outcome ((guardBytes_of_byteRefusal hos _).trans (Res.andThen_of_abandoned hb))
  cases i with
  | mov _ _ | cmp _ _ | bit _ _ | bic _ _ | bis _ _ | add _ _ | sub _ _ => cases hi; exact word h
  | movb _ _ | cmpb _ _ | bitb _ _ | bicb _ _ | bisb _ _ => cases hi; exact byte (byteRefusal_of_hasMeaning hm) h
  | _ => cases hi

/-- Settles O16: the source is read before anything else is done, and its read leaves the rest of the state alone. -/
theorem sourceBusErrorLeavesDestinationAndFlags : Obligations.SourceBusErrorLeavesDestinationAndFlags :=
  fun _ _ _ _ _ hi hm h => ⟨exec_of_source_abandoned hi hm h, State.srcRead_abandoned h⟩

section
variable {s s1 s2 s3 : State} {w : Width} {src dst : Operand} {a d : Word} {p : Place}

theorem State.flagC_congr {s t : State} (h : t.psw = s.psw) : t.flagC = s.flagC := congrArg (BitVec.getLsbD · 0) h

theorem State.flagC_of_srcRead (h : s.srcRead w src = .ok a s1) : s1.flagC = s.flagC := by
  have hpsw := s.srcRead_psw w src
  rw [h] at hpsw
  exact State.flagC_congr hpsw

theorem State.flagC_of_dstRead (h : s.dstRead w dst = .ok (p, d) s1) : s1.flagC = s.flagC := by
  have hpsw := s.dstRead_psw w dst
  rw [h] at hpsw
  exact State.flagC_congr hpsw

theorem State.storeByteExtended_of_register (hm : dst.mode = .register) (v : Word) :
    s.storeByteExtended dst v = .ok () (s.setReg dst.reg (sext8 v)) := if_pos hm

theorem State.storeByteExtended_of_memory (hm : dst.mode ≠ .register) (v : Word) :
    s.storeByteExtended dst v = s.dstStore .byte dst v := if_neg hm

/-- The two reads of a double-operand instruction keep C, which its operation may see. -/
theorem State.flagC_of_reads (hsrc : s.srcRead w src = .ok a s1) (hdst : s1.dstRead w dst = .ok (p, d) s2) :
    s2.flagC = s.flagC := (State.flagC_of_dstRead hdst).trans (State.flagC_of_srcRead hsrc)

theorem compareOp_of_reads (f : Word → Word → Bool → Alu) (hg : byteRefusal w [src, dst] = none)
    (hsrc : s.srcRead w src = .ok a s1) (hdst : s1.dstRead w dst = .ok (p, d) s2) :
    compareOp w src dst f s = .ok () ((s2.doPost p).setAlu (f a d s.flagC)) := by
  rw [compareOp, guardBytes_of_byteRefusal hg, Res.andThen_of_ok hsrc, Res.andThen_of_ok hdst,
    State.flagC_of_reads hsrc hdst]

theorem doubleOp_of_accesses (f : Word → Word → Bool → Alu) (hg : byteRefusal w [src, dst] = none)
    (hsrc : s.srcRead w src = .ok a s1) (hdst : s1.dstRead w dst = .ok (p, d) s2)
    (hwrite : s2.dstWrite w p (f a d s.flagC).value = .ok () s3) :
    doubleOp w src dst f s = .ok () (s3.setAlu (f a d s.flagC)) := by
  rw [doubleOp, guardBytes_of_byteRefusal hg, Res.andThen_of_ok hsrc, Res.andThen_of_ok hdst,
    State.flagC_of_reads hsrc hdst, Res.andThen_of_ok hwrite]

/-! ### The instructions of a shape, at either width -/

theorem exec_byWidth_cmp (w : Width) (src dst : Operand) (s : State) :
    exec (byWidth w (.cmp src dst) (.cmpb src dst)) s = (compareOp w src dst (aluCmp w) s).outcome := by
  cases w <;> rfl

theorem exec_byWidth_bit (w : Width) (src dst : Operand) (s : State) :
    exec (byWidth w (.bit src dst) (.bitb src dst)) s = (compareOp w src dst (aluBit w) s).outcome := by
  cases w <;> rfl

theorem exec_byWidth_bic (w : Width) (src dst : Operand) (s : State) :
    exec (byWidth w (.bic src dst) (.bicb src dst)) s = (doubleOp w src dst (aluBic w) s).outcome := by
  cases w <;> rfl

theorem exec_byWidth_bis (w : Width) (src dst : Operand) (s : State) :
    exec (byWidth w (.bis src dst) (.bisb src dst)) s = (doubleOp w src dst (aluBis w) s).outcome := by
  cases w <;> rfl

/-! ### MOV and MOVB (R161) -/

theorem exec_mov_of_accesses (hsrc : s.srcRead .word src = .ok a s1) (hstore : s1.dstStore .word dst a = .ok () s2) :
    exec (.mov src dst) s = .next (s2.setAlu (aluMove .word a s.flagC)) := by
  have hc : s2.flagC = s.flagC := (State.flagC_congr (State.dstStore_psw hstore)).trans (State.flagC_of_srcRead hsrc)
  show execMov src dst s = _
  rw [execMov, Res.andThen_of_ok hsrc, Res.andThen_of_ok hstore, hc, Res.outcome_ok]

theorem exec_movb_of_accesses (hm : (Instr.movb src dst).hasMeaning = true) (hsrc : s.srcRead .byte src = .ok a s1)
    (hstore : s1.storeByteExtended dst a = .ok () s2) (hpsw : s2.psw = s1.psw) :
    exec (.movb src dst) s = .next (s2.setAlu (aluMove .byte a s.flagC)) := by
  have hc : s2.flagC = s.flagC := (State.flagC_congr hpsw).trans (State.flagC_of_srcRead hsrc)
  have hg : byteRefusal .byte [src, dst] = none := byteRefusal_of_hasMeaning hm
  show execMovb src dst s = _
  rw [execMovb, guardBytes_of_byteRefusal hg, Res.andThen_of_ok hsrc, Res.andThen_of_ok hstore, hc, Res.outcome_ok]

end

/-- Settles O18: the source is read, the destination stored without a read, and the status word written last. -/
theorem moveResult : Obligations.MoveResult := by
  intro src dst s s1 s2 v
  refine ⟨exec_mov_of_accesses, fun hm hsrc => ⟨fun hreg => ?_, fun hmem hstore => ?_⟩⟩
  · exact exec_movb_of_accesses hm hsrc (State.storeByteExtended_of_register hreg v) rfl
  · exact exec_movb_of_accesses hm hsrc ((State.storeByteExtended_of_memory hmem v).trans hstore)
      (State.dstStore_psw hstore)

/-- Settles O19: the words by the format of the encoder, the effect by the shape that writes nothing. -/
theorem compareResult : Obligations.CompareResult := by
  refine fun src dst => ⟨rfl, rfl, fun w s s1 s2 a d p hm hsrc hdst => ?_⟩
  rw [exec_byWidth_cmp, compareOp_of_reads (aluCmp w) (byteRefusal_of_byWidth hm) hsrc hdst]
  rfl

/-- Settles O20: BIT by the shape that writes nothing, BIC and BIS by the shape that writes its result. -/
theorem bitInstructionsResult : Obligations.BitInstructionsResult := by
  intro w src dst s s1 s2 s3 a d p hm hsrc hdst
  have hg : byteRefusal w [src, dst] = none := byteRefusal_of_byWidth hm
  refine ⟨?_, fun hwrite => ?_, fun hwrite => ?_⟩
  · rw [exec_byWidth_bit, compareOp_of_reads (aluBit w) hg hsrc hdst]
    rfl
  · rw [exec_byWidth_bic, doubleOp_of_accesses (aluBic w) hg hsrc hdst hwrite]
    rfl
  · rw [exec_byWidth_bis, doubleOp_of_accesses (aluBis w) hg hsrc hdst hwrite]
    rfl

/-- Settles O21, by the shape that writes its result. -/
theorem addAndSubtractResult : Obligations.AddAndSubtractResult := fun _ _ _ _ _ _ _ _ _ hsrc hdst =>
  ⟨fun hwrite => congrArg Res.outcome (doubleOp_of_accesses aluAdd rfl hsrc hdst hwrite),
    fun hwrite => congrArg Res.outcome (doubleOp_of_accesses aluSub rfl hsrc hdst hwrite)⟩

/-! ### Signed overflow (R162, R166, R167) -/

section
variable (w : Width) (x y r : Word)

@[simp] theorem topBit_and : topBit w (x &&& y) = (topBit w x && topBit w y) := by
  cases w <;> exact BitVec.getLsbD_and ..

@[simp] theorem topBit_xor : topBit w (x ^^^ y) = (topBit w x ^^ topBit w y) := by
  cases w <;> exact BitVec.getLsbD_xor ..

@[simp] theorem topBit_not : topBit w (~~~x) = !topBit w x := by cases w <;> simp [topBit]

theorem topBit_word : topBit .word x = x.msb := x.msb_eq_getLsbD_last.symm

/-- A byte operand has its own top bit, once extended. -/
theorem topBit_byte (b : Byte) : topBit .byte (b.setWidth 16) = b.msb := by
  simp [topBit, BitVec.msb_eq_getLsbD_last]

/-- R8: the sign formulas test the top bit of the width. -/
theorem and_widthSign_ne_zero : x &&& widthSign w ≠ 0 ↔ topBit w x = true := by
  have bit {i : Nat} (hi : BitVec.twoPow 16 i ≠ 0) : x &&& BitVec.twoPow 16 i ≠ 0 ↔ x.getLsbD i = true := by
    rw [BitVec.and_twoPow]
    split
    · exact iff_of_true hi ‹_›
    · exact iff_of_false (fun hne => hne rfl) ‹_›
  cases w with
  | byte => exact bit (i := 7) (by decide)
  | word => exact bit (i := 15) (by decide)

/-- R162, R167: the sign formula of a difference `r` of `x` and `y`: the signs of the operands differ, and `r` has the
sign of `y`. -/
theorem decide_sub_signs : decide ((x ^^^ y) &&& (~~~y ^^^ r) &&& widthSign w ≠ 0) =
    (!topBit w x && topBit w y && topBit w r || topBit w x && !topBit w y && !topBit w r) := by
  rw [Bool.eq_iff_iff, decide_eq_true_iff, and_widthSign_ne_zero]
  simp only [topBit_and, topBit_xor, topBit_not]
  cases topBit w x <;> cases topBit w y <;> simp

/-- R166: the sign formula of a sum `r` of `x` and `y`: the operands have one sign, and `r` has the other. -/
theorem decide_add_signs : decide (~~~(x ^^^ y) &&& (x ^^^ r) &&& widthSign w ≠ 0) =
    (topBit w x == topBit w y && !(topBit w r == topBit w x)) := by
  rw [Bool.eq_iff_iff, decide_eq_true_iff, and_widthSign_ne_zero]
  simp only [topBit_and, topBit_xor, topBit_not]
  cases topBit w x <;> cases topBit w y <;> simp

end

section
variable (c : Bool)

/-- The difference of two bytes, taken at the byte width. -/
theorem byte_sub_mask (a d : Byte) :
    (a.setWidth 16 - d.setWidth 16 : Word) &&& widthMask .byte = (a - d).setWidth 16 := by
  have hlow : lowByte (a.setWidth 16 - d.setWidth 16) = a - d := by
    unfold lowByte
    bv_omega
  rw [← hlow, lowByte_setWidth]
  rfl

theorem aluAdd_v (a d : Word) : (aluAdd a d c).v = a.saddOverflow d := by
  rw [BitVec.saddOverflow_eq]
  simp only [← topBit_word]
  exact decide_add_signs .word a d (a + d)

theorem aluSub_v (a d : Word) : (aluSub a d c).v = d.ssubOverflow a := by
  rw [BitVec.ssubOverflow_eq]
  simp only [← topBit_word]
  rw [← decide_sub_signs, BitVec.xor_comm d a]
  rfl

theorem aluCmp_v_word (a d : Word) : (aluCmp .word a d c).v = a.ssubOverflow d := by
  rw [BitVec.ssubOverflow_eq]
  simp only [← topBit_word]
  rw [← decide_sub_signs, ← BitVec.and_allOnes (x := a - d)]
  rfl

theorem aluCmp_v_byte (a d : Byte) : (aluCmp .byte (a.setWidth 16) (d.setWidth 16) c).v = a.ssubOverflow d := by
  rw [BitVec.ssubOverflow_eq]
  simp only [← topBit_byte]
  rw [← decide_sub_signs, ← byte_sub_mask]
  rfl

end

/-- Settles O22: each V is the overflow of the library's signed sum or difference, which is about the exact one. -/
theorem overflowFlagIsSignedOverflow : Obligations.OverflowFlagIsSignedOverflow := by
  have outside {n x : Int} : (decide (x ≥ n) || decide (x < -n)) = true ↔ ¬(-n ≤ x ∧ x ≤ n - 1) := by
    simp only [Bool.or_eq_true, decide_eq_true_iff]
    omega
  refine ⟨fun a d c => ⟨?_, ?_, ?_⟩, fun a d c => ?_⟩
  · rw [aluAdd_v]; exact outside
  · rw [aluSub_v]; exact outside
  · rw [aluCmp_v_word]; exact outside
  · rw [aluCmp_v_byte]; exact outside

end Sys2Proof.Machine

/-! ## Single-operand instructions (42_single_operand.md R180 to R191; SXT and XOR: R273, R274) -/

namespace Sys2Proof.Machine

/-! ### One operand at either width (R180) -/

section
variable {s s1 s2 : State} {w : Width} {dst : Operand} {d : Word} {p : Place}

theorem singleOp_of_accesses (f : Word → Bool → Alu) (hg : byteRefusal w [dst] = none)
    (hread : s.dstRead w dst = .ok (p, d) s1) (hwrite : s1.dstWrite w p (f d s.flagC).value = .ok () s2) :
    singleOp w dst f s = .ok () (s2.setAlu (f d s.flagC)) := by
  rw [singleOp, guardBytes_of_byteRefusal hg, Res.andThen_of_ok hread, State.flagC_of_dstRead hread,
    Res.andThen_of_ok hwrite]

theorem testOp_of_read (f : Word → Bool → Alu) (hg : byteRefusal w [dst] = none)
    (hread : s.dstRead w dst = .ok (p, d) s1) :
    testOp w dst f s = .ok () ((s1.doPost p).setAlu (f d s.flagC)) := by
  rw [testOp, guardBytes_of_byteRefusal hg, Res.andThen_of_ok hread, State.flagC_of_dstRead hread]

theorem storeOp_of_store (r : Alu) (hg : byteRefusal w [dst] = none) (hstore : s.dstStore w dst r.value = .ok () s1) :
    storeOp w dst r s = .ok () (s1.setAlu r) := by
  rw [storeOp, guardBytes_of_byteRefusal hg, Res.andThen_of_ok hstore]

/-- R103: what the two forms of an instruction do by one shape `op`, the form of a width does by the shape at that
width. -/
theorem exec_byWidth_of_shape {wordForm byteForm : Instr} {op : Width → Res Unit}
    (hword : exec wordForm s = (op .word).outcome) (hbyte : exec byteForm s = (op .byte).outcome) (w : Width) :
    exec (byWidth w wordForm byteForm) s = (op w).outcome := by
  cases w with
  | word => exact hword
  | byte => exact hbyte

/-- R180: the two forms of an instruction that reads its destination and writes it back. -/
theorem exec_byWidth_singleOp {wordForm byteForm : Instr} (f : Width → Word → Bool → Alu)
    (hword : exec wordForm s = (singleOp .word dst (f .word) s).outcome)
    (hbyte : exec byteForm s = (singleOp .byte dst (f .byte) s).outcome) (hg : byteRefusal w [dst] = none)
    (hread : s.dstRead w dst = .ok (p, d) s1) (hwrite : s1.dstWrite w p (f w d s.flagC).value = .ok () s2) :
    exec (byWidth w wordForm byteForm) s = .next (s2.setAlu (f w d s.flagC)) := by
  rw [exec_byWidth_of_shape (op := fun w => singleOp w dst (f w) s) hword hbyte, singleOp_of_accesses _ hg hread hwrite,
    Res.outcome_ok]

/-- R270 (decision D2): an instruction of an unnamed class whose operation completes, where these classes execute. -/
theorem guardUnnamed_outcome_of_ok {x : Res Unit} (hexec : s.params.unnamedOpcodes = .execute) (hx : x = .ok () s1) :
    (guardUnnamed s x).outcome = .next s1 := by
  rw [guardUnnamed_execute hexec, hx, Res.outcome_ok]

end

/-! ### The bytes exchanged (R191) -/

theorem joinBytes_eq_or (hi lo : Byte) : joinBytes hi lo = hi.setWidth 16 <<< 8 ||| lo.setWidth 16 := by
  rw [joinBytes, BitVec.append_def, BitVec.shiftLeftZeroExtend_eq, BitVec.setWidth'_eq]

theorem swapBytes_eq_or (v : Word) : swapBytes v = (v <<< 8) ||| (v >>> 8) := by
  rw [swapBytes, joinBytes_eq_or, lowByte_setWidth_shiftLeft, highByte_setWidth]

/-- The low byte of the result of SWAB is the high byte of its operand. -/
theorem swapBytes_and_low (v : Word) : swapBytes v &&& (0x00ff : Word) = v >>> 8 := by
  rw [← lowByte_setWidth, swapBytes, lowByte_joinBytes, highByte_setWidth]

theorem swapBytes_getLsbD_seven (v : Word) : (swapBytes v).getLsbD 7 = v.getLsbD 15 := by
  simp [swapBytes_eq_or]

/-- R191: SWAB, its N and Z said by the high byte of the operand. -/
theorem aluSwab_eq (d : Word) (c : Bool) :
    aluSwab d c = ⟨(d <<< 8) ||| (d >>> 8), d.getLsbD 15, decide (d >>> 8 = 0), false, false⟩ := by
  rw [← swapBytes_eq_or, ← swapBytes_getLsbD_seven, ← swapBytes_and_low]
  rfl

/-! ### The results (R181 to R191, R273, R274) -/

/-- Settles O23: both store without a read, and SXT runs because its class executes. -/
theorem clearAndSignExtendResult : Obligations.ClearAndSignExtendResult := by
  intro w dst s s1
  refine ⟨fun hm hstore => ?_, fun hexec hstore => ?_⟩
  · rw [exec_byWidth_of_shape (op := fun w => storeOp w dst aluClr s) rfl rfl,
      storeOp_of_store aluClr (byteRefusal_of_byWidth hm) hstore]
    rfl
  · exact guardUnnamed_outcome_of_ok hexec (storeOp_of_store (aluSxt s.flagN s.flagC) rfl hstore)

/-- Settles O24, by the shape that writes its result. -/
theorem complementAndNegateResult : Obligations.ComplementAndNegateResult := by
  intro w dst s s1 s2 d p hm hread
  have hg : byteRefusal w [dst] = none := byteRefusal_of_byWidth hm
  exact ⟨exec_byWidth_singleOp aluCom rfl rfl hg hread, exec_byWidth_singleOp aluNeg rfl rfl hg hread⟩

/-- Settles O25, by the shape that writes its result; the C kept is the one from before the read. -/
theorem incrementAndDecrementResult : Obligations.IncrementAndDecrementResult := by
  intro w dst s s1 s2 d p hm hread
  have hg : byteRefusal w [dst] = none := byteRefusal_of_byWidth hm
  exact ⟨exec_byWidth_singleOp aluInc rfl rfl hg hread, exec_byWidth_singleOp aluDec rfl rfl hg hread⟩

/-- Settles O26, by the shape that writes nothing. -/
theorem testResult : Obligations.TestResult := by
  intro w dst s s1 d p hm hread
  rw [exec_byWidth_of_shape (op := fun w => testOp w dst (aluTst w) s) rfl rfl,
    testOp_of_read (aluTst w) (byteRefusal_of_byWidth hm) hread]
  rfl

/-- Settles O27, by the shape that writes its result. -/
theorem arithmeticShiftResult : Obligations.ArithmeticShiftResult := by
  intro w dst s s1 s2 d p hm hread
  have hg : byteRefusal w [dst] = none := byteRefusal_of_byWidth hm
  exact ⟨exec_byWidth_singleOp aluAsr rfl rfl hg hread, exec_byWidth_singleOp aluAsl rfl rfl hg hread⟩

/-- Settles O28, by the shape that writes its result; the C rotated in is the one from before the read. -/
theorem rotateResult : Obligations.RotateResult := by
  intro w dst s s1 s2 d r p hm hread hwrite
  have hg : byteRefusal w [dst] = none := byteRefusal_of_byWidth hm
  refine ⟨fun hr => ?_, fun hr => ?_⟩
  · subst hr
    exact exec_byWidth_singleOp aluRor rfl rfl hg hread hwrite
  · subst hr
    exact exec_byWidth_singleOp aluRol rfl rfl hg hread hwrite

/-- Settles O29: SWAB and XOR by the shape that writes its result, XOR with its register as it was before the
destination is resolved. -/
theorem swapBytesAndExclusiveOrResult : Obligations.SwapBytesAndExclusiveOrResult := by
  intro r dst s s1 s2 d p hread
  refine ⟨fun hwrite => ?_, fun hexec hwrite => ?_⟩
  · have hvalue : (aluSwab d s.flagC).value = (d <<< 8) ||| (d >>> 8) := swapBytes_eq_or d
    have hrun := singleOp_of_accesses aluSwab rfl hread (hvalue ▸ hwrite)
    rw [aluSwab_eq] at hrun
    exact congrArg Res.outcome hrun
  · exact guardUnnamed_outcome_of_ok hexec (singleOp_of_accesses (aluXor (s.reg r)) rfl hread hwrite)

end Sys2Proof.Machine

/-! ## Branches (43_branches.md R210 to R225) -/

namespace Sys2Proof.Machine

/-! ### The predicates (R214 to R221) -/

/-- R214: N xor V is 0 exactly when the two flags agree. -/
theorem not_xor_eq_beq (n v : Bool) : (!(n ^^ v)) = (n == v) := Bool.not_not (n == v)

/-- R216: Z or (N xor V) is 0 exactly when Z is 0 and the two other flags agree. -/
theorem not_or_xor_eq (z n v : Bool) : (!(z || (n ^^ v))) = (!z && n == v) := by
  rw [Bool.not_or, not_xor_eq_beq]

/-! ### The results (R210 to R225) -/

/-- R210: what a branch answers, its condition said by an equal predicate `b`. -/
theorem exec_of_branchIf {i : Instr} {cond b : Bool} {off : Byte} {s : State}
    (hexec : exec i s = (branchIf cond off s).outcome) (hcond : cond = b) :
    exec i s = .next (if b then s.setReg .pc (s.reg .pc + 2 * off.signExtend 16) else s) := by
  rw [hexec, hcond, branchIf, Res.outcome_ok]

/-- Settles O31: each branch is `branchIf`. The predicates of BGE, BGT and BHI are the model's with the negation moved
inside; the others are the model's own. -/
theorem branchResult : Obligations.BranchResult := by
  intro off s go
  have same {i : Instr} {cond : Bool} (h : exec i s = (branchIf cond off s).outcome) : exec i s = go cond :=
    exec_of_branchIf h rfl
  have hbge : exec (.bge off) s = go (s.flagN == s.flagV) := exec_of_branchIf rfl (not_xor_eq_beq ..)
  have hbgt : exec (.bgt off) s = go (!s.flagZ && s.flagN == s.flagV) := exec_of_branchIf rfl (not_or_xor_eq ..)
  have hbhi : exec (.bhi off) s = go (!s.flagC && !s.flagZ) := exec_of_branchIf rfl (Bool.not_or ..)
  exact ⟨same rfl, same rfl, same rfl, hbge, same rfl, hbgt, same rfl, same rfl, same rfl, hbhi, same rfl, same rfl,
    same rfl, same rfl, same rfl⟩

end Sys2Proof.Machine

/-! ## Jump and subroutine instructions (44_jump_subroutine.md R231 to R233) -/

namespace Sys2Proof.Machine

theorem Res.andThen_of_fault {α β : Type} {x : Res α} {f : α → State → Res β} {e : Fault} (h : x = .fault e) :
    x.andThen f = .fault e := congrArg (Res.andThen · f) h

section
variable {s s1 s2 : State} {r : Reg} {dst : Operand} {a v : Word}

/-! ### Register mode (R145, decision D24) -/

/-- R145: an operand in register mode has no address. -/
theorem State.effAddr_of_register (hm : dst.mode = .register) : s.effAddr dst = .abandoned s.raiseReserved := if_pos hm

/-! ### The stack of a call and of a return (R70, R71) -/

/-- R70: a push that completes has decremented SP and left PC alone. -/
theorem State.pushed_of_push_ok (h : s.push v = .ok () s1) : s.Pushed 1 s1 := by
  have hpushed := (State.Pushed.refl s).push v
  rw [h] at hpushed
  exact hpushed

/-- R70: so has a push that faults. -/
theorem State.pushed_of_push_fault (h : s.push v = .fault (.doubleBusError s1)) : s.Pushed 1 s1 := by
  have hpushed := (State.Pushed.refl s).push v
  rw [h] at hpushed
  exact hpushed

/-- R66: a read that is abandoned has changed no register. -/
theorem State.read_abandoned_regs (s : State) (w : Width) (a : Word) :
    (s.read w a).Sat (fun _ _ => True) (fun t => t.regs = s.regs) (fun _ => False) := by
  have hload := SameCpu.load s w a
  unfold State.read
  split
  · trivial
  · rename_i e; rw [e] at hload; exact hload.regs

/-- R71 (decision D11): a failed pop changes no register. -/
theorem State.pop_abandoned_reg (h : s.pop = .abandoned s1) (q : Reg) : s1.reg q = s.reg q := by
  have hregs : s.pop.Sat (fun _ _ => True) (fun t => t.regs = s.regs) (fun _ => False) :=
    (s.read_abandoned_regs .word _).andThen fun _ _ _ => trivial
  rw [h] at hregs
  exact State.reg_congr hregs q

/-! ### The call by its steps (R232) -/

/-- R232: once the address is known, JSR is the push, the return address and the jump. -/
theorem exec_jsr_of_effAddr (h : s.effAddr dst = .ok a s1) :
    exec (.jsr r dst) s = ((s1.push (s1.reg r)).andThen fun _ s2 =>
      .ok () ((s2.setReg r (s2.reg .pc)).setReg .pc a)).outcome :=
  congrArg Res.outcome (Res.andThen_of_ok h)

/-- R232: the return address is the PC from before the push. -/
theorem exec_jsr_of_push (h : s.effAddr dst = .ok a s1) (hpush : s1.push (s1.reg r) = .ok () s2) :
    exec (.jsr r dst) s = .next ((s2.setReg r (s1.reg .pc)).setReg .pc a) := by
  rw [exec_jsr_of_effAddr h, Res.andThen_of_ok hpush, (State.pushed_of_push_ok hpush).pc, Res.outcome_ok]

theorem exec_jsr_of_push_fault {f : Fault} (h : s.effAddr dst = .ok a s1) (hpush : s1.push (s1.reg r) = .fault f) :
    exec (.jsr r dst) s = .fault f := by
  rw [exec_jsr_of_effAddr h, Res.andThen_of_fault hpush, Res.outcome_fault]

end

/-! ### The results (R231 to R233) -/

/-- Settles O33: JMP is the effective address and the jump, and register mode has no effective address. -/
theorem jumpResult : Obligations.JumpResult := fun _ _ =>
  ⟨fun _ _ h => congrArg Res.outcome (Res.andThen_of_ok h),
    fun hm => congrArg Res.outcome (Res.andThen_of_abandoned (State.effAddr_of_register hm))⟩

/-- Settles O34: JSR by its steps, whose push leaves PC alone, and RTS by its pop. -/
theorem subroutineCallAndReturnResult : Obligations.SubroutineCallAndReturnResult := by
  intro r dst s
  refine ⟨fun a s1 s2 => exec_jsr_of_push, fun a s1 s2 h hpush => ?_, fun hm => ?_, fun v s1 h => ?_, fun s1 h => ?_⟩
  · have hpushed := State.pushed_of_push_fault hpush
    exact ⟨exec_jsr_of_push_fault h hpush, hpushed.sp, hpushed.pc⟩
  · exact congrArg Res.outcome (Res.andThen_of_abandoned (State.effAddr_of_register hm))
  · exact congrArg Res.outcome (Res.andThen_of_ok h)
  · exact ⟨congrArg Res.outcome (Res.andThen_of_abandoned h), State.pop_abandoned_reg h⟩

end Sys2Proof.Machine

/-! ## Trap and system instructions (45_traps_system.md R240 to R247; RTT: 47_unnamed_extensions.md R279) -/

namespace Sys2Proof.Machine

section
variable {s s1 s2 t : State} {i : Instr} {vec npc npsw : Word}

/-! ### A trap entry inside an instruction (R240 to R243) -/

theorem exec_of_trapEntry_ok (hexec : exec i s = (s.trapEntry vec).outcome) (h : s.trapEntry vec = .ok () t) :
    exec i s = .next t := hexec.trans (congrArg Res.outcome h)

theorem exec_of_trapEntry_fault {f : Fault} (hexec : exec i s = (s.trapEntry vec).outcome)
    (h : s.trapEntry vec = .fault f) : exec i s = .fault f := hexec.trans (congrArg Res.outcome h)

/-! ### What a pop changes of the processor (R71) -/

theorem SameCpu.setReg (h : SameCpu s t) (r : Reg) (v : Word) : SameCpu (s.setReg r v) (t.setReg r v) :=
  { h with regs := congrArg (Regs.set · r v) h.regs }

theorem SameCpu.raiseBusError (h : SameCpu s t) : SameCpu s.raiseBusError t.raiseBusError :=
  { h with busError := rfl }

/-- R71 (decision D11): a pop that completes has raised SP by 2, a failed one has requested the bus-error trap; nothing
else of the processor has changed. -/
theorem State.pop_sameCpu (s : State) :
    s.pop.Sat (fun _ => SameCpu (s.setReg .sp (s.reg .sp + 2))) (SameCpu s.raiseBusError) (fun _ => False) := by
  have hload := SameCpu.load s .word (s.reg .sp)
  unfold State.pop State.read
  split
  · rename_i v t e
    rw [e] at hload
    have hsp : t.reg .sp = s.reg .sp := hload.reg .sp
    rw [Res.andThen_ok, hsp]
    exact hload.setReg ..
  · rename_i t e
    rw [e] at hload
    exact hload.raiseBusError

theorem State.sameCpu_of_pop_ok (h : s.pop = .ok npc s1) : SameCpu (s.setReg .sp (s.reg .sp + 2)) s1 := by
  have hpop := s.pop_sameCpu
  rwa [h] at hpop

theorem State.sameCpu_of_pop_abandoned (h : s.pop = .abandoned s1) : SameCpu s.raiseBusError s1 := by
  have hpop := s.pop_sameCpu
  rwa [h] at hpop

/-! ### The return from a trap by its pops (R244, R279) -/

theorem State.trapReturn_of_pops (h1 : s.pop = .ok npc s1) (h2 : s1.pop = .ok npsw s2) :
    s.trapReturn = .ok () ((s2.setReg .pc npc).setPsw npsw) :=
  (Res.andThen_of_ok h1).trans (Res.andThen_of_ok h2)

theorem State.trapReturn_of_first_pop_abandoned (h : s.pop = .abandoned s1) : s.trapReturn = .abandoned s1 :=
  Res.andThen_of_abandoned h

theorem State.trapReturn_of_second_pop_abandoned (h1 : s.pop = .ok npc s1) (h2 : s1.pop = .abandoned s2) :
    s.trapReturn = .abandoned s2 :=
  (Res.andThen_of_ok h1).trans (Res.andThen_of_abandoned h2)

/-- R244, R279 (decision D2): RTI, and RTT where its class executes, are the return from a trap. -/
theorem exec_trapReturn (hi : i = .rti ∨ (i = .rtt ∧ s.params.unnamedOpcodes = .execute)) :
    exec i s = s.trapReturn.outcome := by
  obtain rfl | ⟨rfl, hexec⟩ := hi
  · rfl
  · exact congrArg Res.outcome (guardUnnamed_execute hexec _)

end

/-! ### The results (R240 to R247, R279) -/

/-- Settles O35: each of the four is the trap entry through its own vector. -/
theorem trapInstructionResult : Obligations.TrapInstructionResult := by
  intro s num
  refine ⟨⟨rfl, rfl, rfl, rfl⟩, fun t => ?_, fun f => ?_⟩
  · exact ⟨exec_of_trapEntry_ok rfl, exec_of_trapEntry_ok rfl, exec_of_trapEntry_ok rfl, exec_of_trapEntry_ok rfl⟩
  · exact ⟨exec_of_trapEntry_fault rfl, exec_of_trapEntry_fault rfl, exec_of_trapEntry_fault rfl,
      exec_of_trapEntry_fault rfl⟩

/-- Settles O38, by the two pops: each leaves of the processor all but SP or the bus-error latch. -/
theorem returnFromTrapResult : Obligations.ReturnFromTrapResult := by
  intro i s hi
  rw [exec_trapReturn hi]
  refine ⟨fun npc s1 npsw s2 h1 h2 => ⟨?_, ?_⟩, fun s1 h => ?_, fun npc s1 s2 h1 h2 => ?_⟩
  · exact congrArg Res.outcome (State.trapReturn_of_pops h1 h2)
  · have hparams : s2.params = s.params :=
      (State.sameCpu_of_pop_ok h2).params.trans (State.sameCpu_of_pop_ok h1).params
    exact congrArg (fun p : Params => npsw &&& (p.pswMask ||| 0x00ff)) hparams
  · have hkept := State.sameCpu_of_pop_abandoned h
    exact ⟨congrArg Res.outcome (State.trapReturn_of_first_pop_abandoned h), hkept.regs, hkept.psw⟩
  · have hfirst := State.sameCpu_of_pop_ok h1
    have hsecond := State.sameCpu_of_pop_abandoned h2
    exact ⟨congrArg Res.outcome (State.trapReturn_of_second_pop_abandoned h1 h2),
      (hsecond.reg .sp).trans (hfirst.reg .sp), (hsecond.reg .pc).trans (hfirst.reg .pc),
      hsecond.psw.trans hfirst.psw⟩

/-- Settles O39: RESET initialises the devices, which leaves the processor and memory alone, and clears the latches. -/
theorem haltWaitResetResult : Obligations.HaltWaitResetResult := by
  intro s
  have hcpu : SameCpu s (s.initDevices false).clearIrqs := (SameCpu.initDevices false s).trans (SameCpu.clearIrqs _)
  have hmem : (s.initDevices false).clearIrqs.mem = s.mem := s.initDevices_mem false
  exact ⟨rfl, rfl, _, rfl, rfl, hcpu.regs, hcpu.psw, hcpu.runState, hmem, rfl, rfl, rfl⟩

end Sys2Proof.Machine

/-! ## The status-word instructions (46_condition_codes.md R261; MFPS and MTPS: 47_unnamed_extensions.md R276, R277) -/

namespace Sys2Proof.Machine

section
variable {s s1 : State} {o : Operand} {v : Word}

/-- R24: the guard of a byte form with one operand lets every operand but SP and PC pass. -/
theorem byteRefusal_singleton (ho : o.isSpPcRegister = false) : byteRefusal .byte [o] = none :=
  byteRefusal_of_hasMeaning (i := .mfps o) (by simp [Instr.hasMeaning, Instr.byteOperands, ho])

/-! ### The low byte of the status word (R276) -/

theorem topBit_byte_and_low (v : Word) : topBit .byte (v &&& 0x00ff) = v.getLsbD 7 :=
  (topBit_and .byte v 0x00ff).trans (Bool.and_true _)

/-- The sign extension of a byte sees no more of a word than its low byte. -/
theorem sext8_and_low (v : Word) : sext8 (v &&& 0x00ff) = (v.setWidth 8).signExtend 16 := by
  rw [← lowByte_setWidth, sext8, BitVec.setWidth_setWidth_of_le _ (by decide), BitVec.setWidth_eq, lowByte]

/-! ### The two moves by their access (R276, R277) -/

/-- R276: a store that leaves the status word leaves the C that MFPS keeps. -/
theorem exec_mfps_of_store (hexec : s.params.unnamedOpcodes = .execute) (ho : o.isSpPcRegister = false)
    (hstore : s.storeByteExtended o (s.psw &&& 0x00ff) = .ok () s1) (hpsw : s1.psw = s.psw) :
    exec (.mfps o) s =
      .next (s1.setCc (s.psw.getLsbD 7) (decide (s.psw &&& 0x00ff = 0)) false s.flagC) := by
  refine guardUnnamed_outcome_of_ok hexec ?_
  rw [guardBytes_of_byteRefusal (byteRefusal_singleton ho), Res.andThen_of_ok hstore, State.flagC_congr hpsw,
    ← topBit_byte_and_low]
  rfl

/-- R277: the source read leaves the status word, so the bits that MTPS keeps are those from before it. -/
theorem exec_mtps_of_srcRead (hexec : s.params.unnamedOpcodes = .execute) (ho : o.isSpPcRegister = false)
    (hread : s.srcRead .byte o = .ok v s1) : exec (.mtps o) s = .next { s1 with psw := mtpsPsw s.psw v } := by
  have hpsw := s.srcRead_psw .byte o
  rw [hread] at hpsw
  refine guardUnnamed_outcome_of_ok hexec ?_
  rw [guardBytes_of_byteRefusal (byteRefusal_singleton ho), Res.andThen_of_ok hread, hpsw]

end

/-! ### The result (R261, R276, R277) -/

/-- Settles O40: the operators by definition, MFPS by its store to a register or to memory, MTPS by its read. -/
theorem statusWordInstructionResult : Obligations.StatusWordInstructionResult := by
  intro s s1 o v
  refine ⟨fun m => ⟨rfl, rfl⟩, fun hexec ho => ⟨fun hreg => ?_, fun hmem hstore => ?_, exec_mtps_of_srcRead hexec ho⟩⟩
  · rw [← sext8_and_low]
    exact exec_mfps_of_store hexec ho (State.storeByteExtended_of_register hreg _) rfl
  · exact exec_mfps_of_store hexec ho ((State.storeByteExtended_of_memory hmem _).trans hstore)
      (State.dstStore_psw hstore)

end Sys2Proof.Machine

/-! ## Carry, loop and mark instructions (47_unnamed_extensions.md R271, R272, R275, R278) -/

namespace Sys2Proof.Machine

section
variable {s s1 s2 : State} {w : Width} {dst : Operand} {d v : Word} {p : Place}

/-! ### The carry added and subtracted (R271, R272) -/

/-- R270, R103: the two forms of an unnamed instruction that reads its destination and writes it back, where their class
executes. -/
theorem exec_byWidth_unnamed_singleOp {wordForm byteForm : Instr} (f : Width → Word → Bool → Alu)
    (hexec : s.params.unnamedOpcodes = .execute)
    (hword : exec wordForm s = (guardUnnamed s (singleOp .word dst (f .word) s)).outcome)
    (hbyte : exec byteForm s = (guardUnnamed s (singleOp .byte dst (f .byte) s)).outcome)
    (hg : byteRefusal w [dst] = none) (hread : s.dstRead w dst = .ok (p, d) s1)
    (hwrite : s1.dstWrite w p (f w d s.flagC).value = .ok () s2) :
    exec (byWidth w wordForm byteForm) s = .next (s2.setAlu (f w d s.flagC)) := by
  rw [guardUnnamed_execute hexec] at hword hbyte
  exact exec_byWidth_singleOp f hword hbyte hg hread hwrite

/-- R271: ADC, its V and C each said by one decision. -/
theorem aluAdc_eq (w : Width) (d : Word) (c : Bool) :
    aluAdc w d c = aluResult w ((d + if c then 1 else 0) &&& widthMask w)
      (decide (c = true ∧ d = widthSign w - 1)) (decide (c = true ∧ d = widthMask w)) := by
  simp [aluAdc, bitWord]

/-- R272, U7: SBC, its V and C each said by one decision. -/
theorem aluSbc_eq (m : SbcOverflow) (w : Width) (d : Word) (c : Bool) :
    aluSbc m w d c = aluResult w ((d - if c then 1 else 0) &&& widthMask w)
      (decide ((c = true ∨ m = .operandIsSign) ∧ d = widthSign w)) (decide (c = true ∧ d = 0)) := by
  cases m with
  | trueOverflow => simp [aluSbc, bitWord]
  | operandIsSign => simp [aluSbc, bitWord]

/-! ### The loop and the mark (R275, R278) -/

theorem Regs.set_set (x : Regs) (r : Reg) (u v : Word) : (x.set r u).set r v = x.set r v := by cases r <;> rfl

/-- The second of two writes of a register decides. -/
theorem State.setReg_setReg (s : State) (r : Reg) (u v : Word) : (s.setReg r u).setReg r v = s.setReg r v :=
  congrArg (fun x => { s with regs := x }) (s.regs.set_set r u v)

/-- R275: SOB, with the register decremented before PC is read. -/
theorem exec_sob (hexec : s.params.unnamedOpcodes = .execute) (r : Reg) (off : BitVec 6) :
    exec (.sob r off) s = .next (if s.reg r - 1 = 0 then s.setReg r (s.reg r - 1)
      else (s.setReg r (s.reg r - 1)).setReg .pc ((s.setReg r (s.reg r - 1)).reg .pc - 2 * off.setWidth 16)) := by
  show execSob r off s = _
  rw [execSob, guardUnnamed_execute hexec, Res.outcome_ok, State.reg_setReg_self]

/-- R66: a read that completes leaves the processor alone. -/
theorem State.sameCpu_of_read_ok {a : Word} (h : s.read w a = .ok v s1) : SameCpu s s1 := by
  have hread := s.read_sameCpu w a
  rwa [h] at hread

end

/-- Settles O30, by the shape that writes its result, run because its class executes. -/
theorem addAndSubtractCarryResult : Obligations.AddAndSubtractCarryResult := by
  intro w dst s s1 s2 d r p hexec hm hread hwrite
  have hg : byteRefusal w [dst] = none := byteRefusal_of_byWidth hm
  refine ⟨fun hr => ?_, fun hr => ?_⟩
  · subst hr
    rw [exec_byWidth_unnamed_singleOp aluAdc hexec rfl rfl hg hread hwrite, aluAdc_eq]
    rfl
  · subst hr
    rw [exec_byWidth_unnamed_singleOp (aluSbc s.params.sbcOverflow) hexec rfl rfl hg hread hwrite, aluSbc_eq]
    rfl

/-- Settles O32: SOB writes its register before it reads PC, which matters when they are the same; the read of MARK
leaves R5 alone. -/
theorem subtractOneBranchAndMarkResult : Obligations.SubtractOneBranchAndMarkResult := by
  intro s hexec
  refine ⟨fun r off hpc => ?_, fun off => ?_, fun nn v s1 hread => ?_⟩
  · rw [exec_sob hexec, State.reg_setReg_of_ne _ _ _ _ (Ne.symm hpc)]
  · rw [exec_sob hexec, State.reg_setReg_self, State.setReg_setReg]
  · refine guardUnnamed_outcome_of_ok hexec ?_
    rw [Res.andThen_of_ok hread, (State.sameCpu_of_read_ok hread).reg]

end Sys2Proof.Machine

/-! ## Trap entry and return on a stack in RAM (60_exceptions.md R322, R324) -/

namespace Sys2Proof.Machine

section
variable {s t u : State} {k : MemKind} {w : Width} {a v npc npsw vec : Word} {p p1 p2 : Nat}

/-! ### The stack and the vectors in memory (R70, R71, R322) -/

theorem State.push_of_ram (h : s.memoryAt .word (s.reg .sp - 2) .ram p) (v : Word) :
    s.push v = .ok () ((s.setReg .sp (s.reg .sp - 2)).withMem (s.mem.setWord p v)) := by
  rw [State.push, (h.setReg .sp (s.reg .sp - 2)).store v]
  rfl

theorem State.pop_of_memory (h : s.memoryAt .word (s.reg .sp) k p) :
    s.pop = .ok (s.mem.getWord p) (s.setReg .sp (s.reg .sp + 2)) :=
  Res.andThen_of_ok (State.read_of_load h.load)

theorem State.readVector_of_memory (h : s.memoryAt .word a k p) : s.readVector a = .ok (s.mem.getWord p) s := by
  rw [State.readVector, h.load]
  rfl

/-- What serves an access depends on the maps and the parameters alone. -/
theorem SameMap.memoryAt (h : SameMap s t) (hs : s.memoryAt w a k p) : t.memoryAt w a k p := by
  rw [State.memoryAt, h.misaligned, h.device, h.cellOf]
  exact hs

/-- A vector read changes no memory and selects no other map. -/
theorem State.readVector_sameMem (h : s.readVector a = .ok v t) : SameMem s t := by
  have hmem := s.load_mem .word a
  have hmap := SameMap.load s .word a
  unfold State.readVector at h
  split at h
  · rename_i e
    rw [e] at hmem hmap
    cases h
    exact { hmap with mem := hmem }
  · cases h

/-! ### The trap entry by its steps (R322) -/

/-- The state after the two pushes of a trap entry, the slots of the stack at the cells `p1` and `p2`. -/
def State.pushedStatus (s : State) (p1 p2 : Nat) : State :=
  (s.setReg .sp (s.reg .sp - 4)).withMem ((s.mem.setWord p1 s.psw).setWord p2 (s.reg .pc))

/-- The state after the trap entry, from the one after its pushes and the two words of the vector. -/
def State.enter (s : State) (npc npsw : Word) : State := { ((s.setReg .pc npc).setPsw npsw) with runState := .running }

/-- R322: after two pushes to RAM what is left of a trap entry is the read of the vector pair. -/
theorem State.trapEntry_of_ram (h1 : s.memoryAt .word (s.reg .sp - 2) .ram p1)
    (h2 : s.memoryAt .word (s.reg .sp - 4) .ram p2) (vec : Word) :
    s.trapEntry vec = ((s.pushedStatus p1 p2).readVector vec).andThen fun npc s3 =>
      (s3.readVector (vec + 2)).andThen fun npsw s4 => .ok () (s4.enter npc npsw) := by
  have hsp : s.reg .sp - 2 - 2 = s.reg .sp - 4 := by bv_omega
  have hslot : ((s.setReg .sp (s.reg .sp - 2)).withMem (s.mem.setWord p1 s.psw)).memoryAt .word
      (s.reg .sp - 2 - 2) .ram p2 := hsp ▸ h2
  have htwice : (((s.setReg .sp (s.reg .sp - 2)).setReg .sp (s.reg .sp - 2 - 2)).withMem
      ((s.mem.setWord p1 s.psw).setWord p2 (s.reg .pc))) = s.pushedStatus p1 p2 := by
    rw [State.setReg_setReg, hsp]
    rfl
  rw [State.trapEntry, Res.andThen_of_ok (State.push_of_ram h1 s.psw), Res.andThen_of_ok (State.push_of_ram hslot _)]
  exact congrArg (fun x : State => (x.readVector vec).andThen _) htwice

/-- The words pushed stand in their slots. -/
theorem State.pushedStatus_words (hwf : s.mem.wf = true) (hslots : p1 + 1 < p2 ∨ p2 + 1 < p1) :
    (s.pushedStatus p1 p2).mem.getWord p1 = s.psw ∧ (s.pushedStatus p1 p2).mem.getWord p2 = s.reg .pc :=
  ⟨(Memory.getWord_setWord_ne _ hslots).trans (Memory.getWord_setWord p1 _ hwf),
    Memory.getWord_setWord p2 _ (Memory.wf_setWord p1 _ hwf)⟩

/-- A word that overlaps neither slot is kept. -/
theorem State.pushedStatus_getWord (h : ∀ x ∈ [p1, p2], x + 1 < p ∨ p + 1 < x) :
    (s.pushedStatus p1 p2).mem.getWord p = s.mem.getWord p :=
  (Memory.getWord_setWord_ne _ (h p2 (by simp)).symm).trans (Memory.getWord_setWord_ne _ (h p1 (by simp)).symm)

/-- A byte outside the slots is kept. -/
theorem State.pushedStatus_get {c : Nat} (h : c ∉ [p1, p1 + 1, p2, p2 + 1]) :
    (s.pushedStatus p1 p2).mem.get c = s.mem.get c := by
  simp only [List.mem_cons, List.not_mem_nil, or_false, not_or] at h
  obtain ⟨h1, h1', h2, h2'⟩ := h
  exact (Memory.get_setWord_ne _ h2 h2').trans (Memory.get_setWord_ne _ h1 h1')

theorem State.reg_enter (s : State) (npc npsw : Word) (r : Reg) :
    (s.enter npc npsw).reg r = if r = .pc then npc else s.reg r := s.reg_setReg .pc r npc

theorem State.reg_pushedStatus (s : State) (p1 p2 : Nat) (r : Reg) :
    (s.pushedStatus p1 p2).reg r = if r = .sp then s.reg .sp - 4 else s.reg r := s.reg_setReg .sp r _

/-! ### The return after an entry (R324) -/

/-- R322: a trap entry that has gone through has left on the stack the two words, below them the memory of before, and
has changed no register but SP and PC, whatever answered the reads of the vector pair. -/
structure State.Entered (s : State) (p1 p2 : Nat) (t : State) : Prop extends SameMem (s.pushedStatus p1 p2) t where
  reg : ∀ r, r ≠ .pc → t.reg r = (s.pushedStatus p1 p2).reg r

theorem State.entered_of_trapEntry (h1 : s.memoryAt .word (s.reg .sp - 2) .ram p1)
    (h2 : s.memoryAt .word (s.reg .sp - 4) .ram p2) (h : s.trapEntry vec = .ok () t) : s.Entered p1 p2 t := by
  rw [State.trapEntry_of_ram h1 h2] at h
  obtain ⟨npc, s3, e3, h⟩ := Res.andThen_eq_ok h
  obtain ⟨npsw, s4, e4, h⟩ := Res.andThen_eq_ok h
  cases h
  have hmem : SameMem (s.pushedStatus p1 p2) s4 := (State.readVector_sameMem e3).trans (State.readVector_sameMem e4)
  have hcpu : SameCpu (s.pushedStatus p1 p2) s4 := (State.readVector_same e3).trans (State.readVector_same e4)
  refine ⟨⟨⟨hmem.params, hmem.mapSel⟩, hmem.mem⟩, fun r hr => ?_⟩
  rw [State.reg_enter, if_neg hr, hcpu.reg]

/-- R324: the return pops the two words from their slots. -/
theorem State.Entered.trapReturn (h : s.Entered p1 p2 t) (h1 : s.memoryAt .word (s.reg .sp - 2) .ram p1)
    (h2 : s.memoryAt .word (s.reg .sp - 4) .ram p2) (hwf : s.mem.wf = true) (hslots : p1 + 1 < p2 ∨ p2 + 1 < p1) :
    t.trapReturn = .ok () (((t.setReg .sp (s.reg .sp)).setReg .pc (s.reg .pc)).setPsw s.psw) := by
  have hmap : SameMap s t := ⟨h.params, h.mapSel⟩
  have hsp : t.reg .sp = s.reg .sp - 4 := h.reg .sp (by decide)
  have hsp2 : t.reg .sp + 2 = s.reg .sp - 2 := by rw [hsp]; bv_omega
  have hsp4 : s.reg .sp - 2 + 2 = s.reg .sp := by bv_omega
  obtain ⟨hpsw, hpc⟩ := State.pushedStatus_words hwf hslots
  have hpop1 : t.pop = .ok (s.reg .pc) (t.setReg .sp (s.reg .sp - 2)) := by
    rw [State.pop_of_memory (hsp ▸ hmap.memoryAt h2), h.mem, hpc, hsp2]
  have hpop2 : (t.setReg .sp (s.reg .sp - 2)).pop = .ok s.psw (t.setReg .sp (s.reg .sp)) := by
    have hslot : (t.setReg .sp (s.reg .sp - 2)).memoryAt .word ((t.setReg .sp (s.reg .sp - 2)).reg .sp) .ram p1 :=
      (t.reg_setReg_self .sp _).symm ▸ hmap.memoryAt h1
    rw [State.pop_of_memory hslot, State.setReg_mem, h.mem, hpsw, State.reg_setReg_self, State.setReg_setReg, hsp4]
  exact State.trapReturn_of_pops hpop1 hpop2

/-- A word within some bits is not changed by masking with them. -/
theorem and_eq_self_of_and_not {v bits : Word} (h : v &&& ~~~bits = 0) : v &&& bits = v := by
  apply BitVec.eq_of_getLsbD_eq
  intro j hj
  have hbit := congrArg (fun x => BitVec.getLsbD x j) h
  simp only [BitVec.getLsbD_and, BitVec.getLsbD_not, hj] at hbit ⊢
  cases hv : v.getLsbD j <;> simp_all

end

/-- Settles O36: the pushes go to their slots, and the vector pair, which they do not overlap, is read as it was. -/
theorem trapEntryInMemory : Obligations.TrapEntryInMemory := by
  intro s vec p1 p2 q1 q2 k1 k2 hwf h1 h2 hv1 hv2 hapart hslots
  have hvec1 : (s.pushedStatus p1 p2).readVector vec = .ok (s.mem.getWord q1) (s.pushedStatus p1 p2) := by
    rw [State.readVector_of_memory (s := s.pushedStatus p1 p2) hv1,
      State.pushedStatus_getWord fun x hx => hapart x hx q1 (by simp)]
  have hvec2 : (s.pushedStatus p1 p2).readVector (vec + 2) = .ok (s.mem.getWord q2) (s.pushedStatus p1 p2) := by
    rw [State.readVector_of_memory (s := s.pushedStatus p1 p2) hv2,
      State.pushedStatus_getWord fun x hx => hapart x hx q2 (by simp)]
  obtain ⟨hpsw, hpc⟩ := State.pushedStatus_words (s := s) hwf hslots
  refine ⟨(s.pushedStatus p1 p2).enter (s.mem.getWord q1) (s.mem.getWord q2), ?_, ?_, hpsw, hpc, ?_, rfl, rfl,
    fun r hsp hr => ?_, fun c hc => State.pushedStatus_get hc, rfl, rfl, rfl, rfl, rfl, rfl, rfl, rfl, rfl⟩
  · rw [State.trapEntry_of_ram h1 h2, Res.andThen_of_ok hvec1, Res.andThen_of_ok hvec2]
  · rfl
  · rfl
  · rw [State.reg_enter, if_neg hr, State.reg_pushedStatus, if_neg hsp]

/-- Settles O37: the pops find the two words the entry pushed, and end at the SP it began with. -/
theorem trapReturnUndoesTrapEntry : Obligations.TrapReturnUndoesTrapEntry := by
  intro s t vec p1 p2 hwf hmasked h1 h2 hslots hentry
  have hentered := State.entered_of_trapEntry h1 h2 hentry
  refine ⟨_, hentered.trapReturn h1 h2 hwf hslots, ?_, rfl, fun r => ?_⟩
  · have hbits : t.pswBits = s.pswBits := congrArg (fun p : Params => p.pswMask ||| 0x00ff) hentered.params
    exact (congrArg (s.psw &&& ·) hbits).trans (and_eq_self_of_and_not hmasked)
  · show ((t.setReg .sp (s.reg .sp)).setReg .pc (s.reg .pc)).reg r = s.reg r
    rw [State.reg_setReg, State.reg_setReg]
    split
    · subst r; rfl
    · split
      · subst r; rfl
      · rw [hentered.reg r ‹_›, State.reg_pushedStatus, if_neg ‹_›]

end Sys2Proof.Machine

/-! ## The step (60_exceptions.md R310 to R321; 61_bus_timebase.md R360 to R366) -/

namespace Sys2Proof.Machine

section
variable {s t u : State} {i : Instr} {w : Word} {now : Nat}

/-! ### A step by its kind (R320) -/

theorem State.runTimers_params (s : State) : s.runTimers.params = s.params := (SameCpu.runTimers s).params

/-- R320: a step with an event to take is the trap entry through its vector, its latch cleared. -/
theorem step_of_event {e : Event} (h : s.runTimers.pendingEvent = some e) :
    step s = charge s.cpuTime s.params.timing.trapTime
      ((s.runTimers.accept e).trapEntry (eventVector s.params.vectors e)).outcome := by
  rw [← s.runTimers_params]
  unfold step
  simp only [h]
  rfl

theorem step_of_running (h : s.runTimers.pendingEvent = none) (hrun : s.runTimers.runState = .running) :
    step s = fetchDecodeExecute s.cpuTime s.runTimers := by
  unfold step
  simp only [h, hrun]

/-- R316: a halted step only ticks. -/
theorem step_of_halted (h : s.runTimers.pendingEvent = none) (hrun : s.runTimers.runState = .halted) :
    step s = .next { s.runTimers with cpuTime := s.cpuTime + idleTime s.params.timing } := by
  have hstep : step s = charge s.cpuTime (idleTime s.runTimers.params.timing) (.next s.runTimers) := by
    unfold step
    simp only [h, hrun]
  rw [hstep, s.runTimers_params]
  rfl

/-- R317: a waiting step ticks, after it has looked for a request. -/
theorem step_of_waiting (h : s.runTimers.pendingEvent = none) (hrun : s.runTimers.runState = .waiting) :
    step s = .next { s.runTimers.endWait with cpuTime := s.cpuTime + idleTime s.params.timing } := by
  have hstep : step s = charge s.cpuTime (idleTime s.runTimers.params.timing) (.next s.runTimers.endWait) := by
    unfold step
    simp only [h, hrun]
  rw [hstep, s.runTimers_params]
  rfl

/-! ### The instruction of a step (R312, R321) -/

theorem State.fetch_of_answered
    (h : s.device (evenAddr (s.reg .pc)) = none ∨ s.params.deviceFetch = .deviceAnswers) :
    s.fetch = s.load .word (s.reg .pc) := by
  obtain ⟨hbus, hdev, -⟩ | ⟨-, hload⟩ := s.fetch_cases
  · obtain h | h := h
    · simp [h] at hdev
    · simp [h] at hbus
  · exact hload

theorem State.fetch_of_device (h : s.device (evenAddr (s.reg .pc)) ≠ none) (hp : s.params.deviceFetch = .busError) :
    s.fetch = (none, s) := if_pos ⟨hp, Option.isSome_iff_ne_none.2 h⟩

theorem fetchDecodeExecute_of_word (h : s.fetch = (some w, u)) :
    fetchDecodeExecute now s = charge now (execTime s.params.timing w) (runInstr (decode w) u.advancePc) := by
  rw [fetchDecodeExecute, h]

/-- R321 (decision D11): a failed fetch requests the bus-error trap and leaves PC. -/
theorem fetchDecodeExecute_of_bus_error (h : s.fetch = (none, u)) :
    fetchDecodeExecute now s =
      .next { u.raiseBusError with cpuTime := now + execTime s.params.timing 0 } := by
  rw [fetchDecodeExecute, h]
  rfl

/-- R312: the trace check sets the trace latch, or leaves it, by the T of the state it finds. -/
theorem State.traceCheck_eq (t : State) (i : Instr) :
    t.traceCheck i = { t with req := { t.req with
      trace := t.req.trace || (!t.req.busError && !t.req.reserved && t.psw.getLsbD 4 && !untraced i) } } := by
  have horder : (!t.req.busError && !t.req.reserved && t.psw.getLsbD 4 && !untraced i) =
      (!t.req.busError && !t.req.reserved && !untraced i && t.flagT) := by
    rw [Bool.and_assoc, Bool.and_comm (t.psw.getLsbD 4), ← Bool.and_assoc]
    rfl
  rw [horder]
  unfold State.traceCheck
  split
  · rename_i h; simp [h]
  · rename_i h; rw [Bool.not_eq_true] at h; simp [h]

theorem runInstr_of_next (h : exec i s = .next t) : runInstr i s = .next (t.traceCheck i) := by rw [runInstr, h]

theorem runInstr_of_fault {f : Fault} (h : exec i s = .fault f) : runInstr i s = .fault f := by rw [runInstr, h]

theorem runInstr_of_refused {r : Refusal} (h : exec i s = .refused r) : runInstr i s = .refused r := by
  rw [runInstr, h]

/-! ### The priority of the events (R314, R318) -/

/-- R314: a set bit 7 masks the interrupts. -/
theorem State.pendingEvent_of_masked (h : s.req.quiet) (hmask : s.psw.getLsbD 7 = true) : s.pendingEvent = none := by
  obtain ⟨hbus, hreserved, htrace⟩ := h
  simp only [State.pendingEvent, hbus, hreserved, htrace, State.masked, hmask, Bool.false_eq_true, if_false, if_true]

/-- R318: with no latch of the instruction stream set and bit 7 clear, the interrupts decide. -/
theorem State.pendingEvent_of_unmasked (h : s.req.quiet) (hmask : s.psw.getLsbD 7 = false) :
    s.pendingEvent =
      if s.req.irq1 then some .irq1 else if s.req.irq2 then some .irq2 else s.req.virq.map .virq := by
  obtain ⟨hbus, hreserved, htrace⟩ := h
  simp only [State.pendingEvent, hbus, hreserved, htrace, State.masked, hmask, Bool.false_eq_true, if_false]

/-! ### Time and parameters (R362, R471) -/

theorem exec_params (h : exec i s = .next t) : t.params = s.params := (controlStateFrame i s t h).2.1

theorem State.trapEntry_params {vec : Word} (h : s.trapEntry vec = .ok () t) : t.params = s.params := by
  have hentry := (closed_control .iot s).trapEntry vec rfl (by simp [Instr.touched]) rfl rfl rfl rfl (.refl _ s)
  rw [h] at hentry
  exact hentry.params

theorem State.takeEvent_params {e : Event} (h : s.takeEvent e = .next t) : t.params = s.params :=
  (State.trapEntry_params (State.takeEvent_next h)).trans (by cases e <;> rfl)

theorem State.endWait_params (s : State) : s.endWait.params = s.params := by
  unfold State.endWait
  split <;> rfl

theorem State.traceCheck_params (s : State) (i : Instr) : (s.traceCheck i).params = s.params := by
  rw [State.traceCheck_eq]

theorem runInstr_params (h : runInstr i s = .next t) : t.params = s.params := by
  obtain ⟨u, hu, rfl⟩ := runInstr_next h
  exact (u.traceCheck_params i).trans (exec_params hu)

/-- What a step that began at the time `now` with the parameters `p` leaves: these parameters, and the time moved on by
the cost of the step, which is at least `least`. -/
structure Charged (now least : Nat) (p : Params) (t : State) : Prop where
  time : now + least ≤ t.cpuTime
  params : t.params = p

theorem Charged.of_cost {least cost : Nat} {p : Params} (hu : u.params = p) (h : least ≤ cost) :
    Charged now least p { u with cpuTime := now + cost } := ⟨Nat.add_le_add_left h now, hu⟩

theorem Charged.mono {least : Nat} {p : Params} (h : Charged now least p t) : Charged now 0 p t :=
  ⟨(Nat.le_add_right now least).trans h.time, h.params⟩

theorem one_le_execTime (t : Timing) (w : Word) : 1 ≤ execTime t w := Nat.le_add_left ..

theorem one_le_idleTime (t : Timing) : 1 ≤ idleTime t := Nat.le_add_left ..

theorem charged_of_fetchDecodeExecute (h : fetchDecodeExecute now s = .next t) : Charged now 1 s.params t := by
  have hfetch := (SameCpu.fetch s).params
  cases e : s.fetch with
  | mk word u =>
    rw [e] at hfetch
    cases word with
    | none =>
      rw [fetchDecodeExecute_of_bus_error e] at h
      cases h
      exact .of_cost hfetch (one_le_execTime ..)
    | some w =>
      rw [fetchDecodeExecute_of_word e] at h
      obtain ⟨v, hv, rfl⟩ := charge_next h
      exact .of_cost ((runInstr_params hv).trans hfetch) (one_le_execTime ..)

/-- R320: a step that takes an event may cost nothing. -/
theorem charged_of_event {e : Event} (he : s.runTimers.pendingEvent = some e) (h : step s = .next t) :
    Charged s.cpuTime 0 s.params t := by
  rw [step_of_event he, ← s.runTimers_params] at h
  obtain ⟨u, hu, rfl⟩ := charge_next h
  exact .of_cost ((State.takeEvent_params hu).trans s.runTimers_params) (Nat.zero_le _)

/-- R362: every other step, an idle one too, costs a tick or more. -/
theorem charged_of_no_event (he : s.runTimers.pendingEvent = none) (h : step s = .next t) :
    Charged s.cpuTime 1 s.params t := by
  cases hrun : s.runTimers.runState with
  | halted =>
    rw [step_of_halted he hrun] at h
    cases h
    exact .of_cost s.runTimers_params (one_le_idleTime _)
  | waiting =>
    rw [step_of_waiting he hrun] at h
    cases h
    exact .of_cost (s.runTimers.endWait_params.trans s.runTimers_params) (one_le_idleTime _)
  | running =>
    rw [step_of_running he hrun] at h
    exact s.runTimers_params ▸ charged_of_fetchDecodeExecute h

theorem State.hostReset_cpuTime (s : State) : s.hostReset.cpuTime = s.cpuTime := (SameCpu.initDevices true s).cpuTime

/-! ### The system timer (R360, R366) -/

theorem State.systemTimerHook_early (h : s.cpuTime - s.timerLast < timerPeriod s.params) : s.systemTimerHook = s :=
  if_neg (Nat.not_le.2 h)

theorem State.systemTimerHook_due (h : timerPeriod s.params ≤ s.cpuTime - s.timerLast) :
    s.systemTimerHook =
      { (s.raise (.line s.params.timerLine)) with timerLast := s.timerLast + timerPeriod s.params } := if_pos h

theorem State.systemTimerHook_req {l : IrqLine} (h : timerPeriod s.params ≤ s.cpuTime - s.timerLast)
    (hl : s.params.timerLine = l) : s.systemTimerHook.req = (s.raise (.line l)).req := by
  rw [State.systemTimerHook_due h, hl]

end

/-- Settles O42: the step is the fetch, the instruction, the trace check and the charge, in this order. -/
theorem stepRunsDecodedInstruction : Obligations.StepRunsDecodedInstruction := by
  intro s u w hevent hrun hanswer hload
  have hfetch : s.runTimers.fetch = (some w, u) := by
    refine (State.fetch_of_answered (hanswer.imp_right fun h => ?_)).trans hload
    rw [s.runTimers_params, h]
  have hstep : step s =
      charge s.cpuTime (execTime s.params.timing w) (runInstr (decode w) (u.setReg .pc (u.reg .pc + 2))) := by
    rw [step_of_running hevent hrun, fetchDecodeExecute_of_word hfetch, s.runTimers_params]
    rfl
  refine ⟨fun t ht => ?_, fun f hf => ?_, fun r hr => ?_⟩
  · rw [hstep, runInstr_of_next ht, State.traceCheck_eq]
    rfl
  · rw [hstep, runInstr_of_fault hf]
    rfl
  · rw [hstep, runInstr_of_refused hr]
    rfl

/-- Settles O43: a fetch that fails leaves the processor alone, and one at a device has not been made. -/
theorem fetchBusErrorLeavesPc : Obligations.FetchBusErrorLeavesPc := by
  intro s u hevent hrun
  have htimers := SameCpu.runTimers s
  have failed {x : State} (hfetch : s.runTimers.fetch = (none, x)) : step s =
      .next { x.raiseBusError with cpuTime := s.cpuTime + execTime s.params.timing 0 } := by
    rw [step_of_running hevent hrun, fetchDecodeExecute_of_bus_error hfetch, s.runTimers_params]
  refine ⟨fun hload => ?_, fun hdev hparam => ?_⟩
  · have hfetch : ∃ x, s.runTimers.fetch = (none, x) := by
      obtain ⟨-, -, h⟩ | ⟨-, h⟩ := s.runTimers.fetch_cases
      · exact ⟨_, h⟩
      · exact ⟨u, h.trans hload⟩
    obtain ⟨x, hfetch⟩ := hfetch
    have hcpu := SameCpu.fetch s.runTimers
    rw [hfetch] at hcpu
    exact ⟨_, failed hfetch, rfl, hcpu.regs.trans htimers.regs, hcpu.psw.trans htimers.psw, rfl⟩
  · have hfetch := State.fetch_of_device hdev (by rw [s.runTimers_params, hparam])
    exact ⟨_, failed hfetch, rfl, htimers.regs, htimers.psw, rfl, rfl, rfl, rfl⟩

/-- Settles O44: the dispatch finds the event of its case, and each event is taken in one way. -/
theorem eventPriority : Obligations.EventPriority := by
  rintro s _ rfl
  refine ⟨fun hbus => step_of_event (e := .busError) ?_, fun hbus hreserved => step_of_event (e := .reserved) ?_,
    fun hbus hreserved htrace => step_of_event (e := .trace) ?_,
    fun hquiet hmask => State.pendingEvent_of_masked hquiet hmask,
    fun hquiet hmask h1 => step_of_event (e := .irq1) ?_, fun hquiet hmask h1 h2 => step_of_event (e := .irq2) ?_,
    fun v hquiet hmask h1 h2 hv => step_of_event (e := .virq v) ?_⟩
  · simp [State.pendingEvent, hbus]
  · simp [State.pendingEvent, hbus, hreserved]
  · simp [State.pendingEvent, hbus, hreserved, htrace]
  · simp [State.pendingEvent_of_unmasked hquiet hmask, h1]
  · simp [State.pendingEvent_of_unmasked hquiet hmask, h1, h2]
  · simp [State.pendingEvent_of_unmasked hquiet hmask, h1, h2, hv]

/-- Settles O45: the two idle kinds of a step; a wait ends by the latches alone, whatever the mask. -/
theorem idleTicks : Obligations.IdleTicks := by
  rintro s _ rfl hevent
  refine ⟨step_of_halted hevent, fun hrun => ?_⟩
  rw [step_of_waiting hevent hrun]
  simp only [State.endWait, Option.isSome_iff_ne_none]
  split
  · rfl
  · rw [hrun]

/-- Settles O46: a step is charged, nothing less than a tick when it takes no event, and keeps the parameters. -/
theorem timeNeverGoesBack : Obligations.TimeNeverGoesBack := by
  refine ⟨fun s t h => ?_, State.hostReset_cpuTime⟩
  cases he : s.runTimers.pendingEvent with
  | some e =>
    have hcharged := charged_of_event he h
    exact ⟨hcharged.time, nofun, hcharged.params⟩
  | none =>
    have hcharged := charged_of_no_event he h
    exact ⟨hcharged.mono.time, fun _ => hcharged.time, hcharged.params⟩

/-- Settles O47: the host's requests by the latch each raises, the timer's by whether its period has passed. -/
theorem requestsAreLatched : Obligations.RequestsAreLatched := by
  intro s
  refine ⟨rfl, rfl, fun v w => ⟨rfl, rfl, rfl⟩, State.systemTimerHook_early, fun h => ⟨?_, ?_, ?_⟩⟩
  · exact congrArg State.timerLast (State.systemTimerHook_due h)
  · exact State.systemTimerHook_req h
  · exact State.systemTimerHook_req h

end Sys2Proof.Machine

/-! ## The reset of the whole machine (70_reset_and_hazards.md R450) -/

namespace Sys2Proof.Machine

/-! ### What both resets do -/

/-- The processor right after either reset of a machine with the parameters `p`. -/
structure State.FreshlyReset (p : Params) (t : State) : Prop where
  pc : t.reg .pc = p.startAddress
  psw : t.psw = p.resetPsw &&& (p.pswMask ||| 0x00ff)
  runState : t.runState = .running
  req : t.req = { busError := false, reserved := false, trace := false, irq1 := false, irq2 := false, virq := none }

theorem State.hostReset_freshlyReset {s : State} {p : Params} (h : s.params = p) : s.hostReset.FreshlyReset p := by
  have hparams : (s.initDevices true).params = p := (SameCpu.initDevices true s).params.trans h
  exact ⟨congrArg Params.startAddress hparams,
    congrArg (fun p : Params => p.resetPsw &&& (p.pswMask ||| 0x00ff)) hparams, rfl, rfl⟩

/-- Devices that are initialised change no register. -/
theorem State.reg_hostReset_of_ne (s : State) {r : Reg} (h : r ≠ .pc) : s.hostReset.reg r = s.reg r :=
  ((s.initDevices true).reg_setReg_of_ne .pc r _ h).trans ((SameCpu.initDevices true s).reg r)

/-! ### Power-on -/

/-- The registers that power-on draws, beside a PC. -/
def Draw.regs (d : Draw) (pc : Word) : Regs :=
  { r0 := d.r0, r1 := d.r1, r2 := d.r2, r3 := d.r3, r4 := d.r4, r5 := d.r5, sp := d.sp, pc := pc }

theorem State.powerOn_reg (d : Draw) (s : State) {r : Reg} (h : r ≠ .pc) :
    (s.powerOn d).reg r = (d.regs (s.reg .pc)).get r := State.reg_hostReset_of_ne _ h

/-- The memory after power-on: what is not RAM, and over it the drawn cells of RAM. -/
theorem State.powerOn_mem (d : Draw) (s : State) :
    (s.powerOn d).mem =
      loadCells (Params.hasCell s.params .ram) d.ram (s.mem.without (Params.hasCell s.params .ram)) :=
  State.hostReset_mem _

theorem State.powerOn_get_of_not_ram (d : Draw) {s : State} {c : Nat} (h : Params.hasCell s.params .ram c = false) :
    (s.powerOn d).mem.get c = s.mem.get c := by
  rw [State.powerOn_mem, get_loadCells_of_not _ _ _ _ (.inl h), get_without_of_not _ _ h]

theorem State.powerOn_get_of_drawn {d : Draw} {s : State} {c : Nat} {b : Byte} (hwf : s.mem.wf = true)
    (hnodup : (d.ram.map Prod.fst).Nodup) (hc : (c, b) ∈ d.ram) (hram : Params.hasCell s.params .ram c = true) :
    (s.powerOn d).mem.get c = b := by
  rw [State.powerOn_mem]
  exact get_loadCells_of_mem _ _ (Memory.wfFrom_without _ hwf) hnodup hc hram

/-- Settles O48: both are the reset, power-on after it has set the time, the registers and RAM. -/
theorem hostResetResult : Obligations.HostResetResult := by
  intro s d
  refine ⟨fun t ht => ?_, ⟨s.hostReset_mem, s.hostReset_cpuTime, fun r => s.reg_hostReset_of_ne⟩, ?_⟩
  · have hreset : t.FreshlyReset s.params := by
      obtain rfl | rfl := ht
      · exact State.hostReset_freshlyReset rfl
      · exact State.hostReset_freshlyReset rfl
    exact ⟨hreset.pc, hreset.psw, hreset.runState, hreset.req⟩
  · have drawn {r : Reg} (h : r ≠ .pc) := s.powerOn_reg d h
    exact ⟨State.hostReset_cpuTime _, drawn nofun, drawn nofun, drawn nofun, drawn nofun, drawn nofun, drawn nofun,
      drawn nofun, fun c => State.powerOn_get_of_not_ram d, fun hwf hnodup c b => State.powerOn_get_of_drawn hwf hnodup⟩

end Sys2Proof.Machine

/-! ## A machine without devices (20_memory.md R72; 61_bus_timebase.md R360) -/

namespace Sys2Proof.Machine

section
variable {s t : State}

theorem State.device_of_no_devices (h : s.params.devices = []) (a : Word) : s.device a = none := by
  rw [State.device, h, deviceAt]
  split <;> rfl

/-- A read where no device answers changes nothing. -/
theorem State.load_of_no_devices (h : s.params.devices = []) (w : Width) (a : Word) : (s.load w a).2 = s := by
  unfold State.load State.loadWord
  rw [State.device_of_no_devices h]
  split
  · rfl
  · dsimp only
    split <;> rfl

/-- A write where no device answers changes nothing but memory. -/
theorem State.store_of_no_devices (h : s.params.devices = []) (w : Width) (a v : Word) :
    ∃ m, (s.store w a v).2 = s.withMem m := by
  unfold State.store
  rw [State.device_of_no_devices h]
  split
  · exact ⟨s.mem, rfl⟩
  · dsimp only
    split
    · exact ⟨_, rfl⟩
    · exact ⟨s.mem, rfl⟩
    · exact ⟨s.mem, rfl⟩

theorem State.initDevices_of_no_devices (h : s.params.devices = []) (b : Bool) : s.initDevices b = s := by
  rw [State.initDevices, h]
  rfl

/-- `t` has the devices and the parameters of `s`, has drawn no free value, and, outside RESET, has its interrupt
requests. -/
structure State.DevicesKept (i : Instr) (s t : State) : Prop where
  params : t.params = s.params
  floppy : t.floppy = s.floppy
  ide : t.ide = s.ide
  devLog : t.devLog = s.devLog
  mapSel : t.mapSel = s.mapSel
  timerLast : t.timerLast = s.timerLast
  freeCount : t.freeCount = s.freeCount
  requests : i ≠ .reset → t.req.irq1 = s.req.irq1 ∧ t.req.irq2 = s.req.irq2 ∧ t.req.virq = s.req.virq

theorem State.DevicesKept.refl (i : Instr) (s : State) : s.DevicesKept i s :=
  ⟨rfl, rfl, rfl, rfl, rfl, rfl, rfl, fun _ => ⟨rfl, rfl, rfl⟩⟩

/-- Without devices no bus access reaches one. -/
theorem closed_devicesKept (i : Instr) (hdevices : s.params.devices = []) :
    Closed i (s.DevicesKept i) (s.DevicesKept i) where
  load t w a ht := (State.load_of_no_devices (ht.params ▸ hdevices) w a).symm ▸ ht
  store t w a v _ ht := by
    obtain ⟨m, hm⟩ := State.store_of_no_devices (ht.params ▸ hdevices) w a v
    rw [hm]
    exact { ht with }
  setReg _ _ _ _ ht := { ht with }
  psw _ _ _ ht := { ht with }
  enter _ _ _ _ _ ht := { ht with }
  run _ _ _ ht := { ht with }
  reset t hi ht := by
    rw [State.initDevices_of_no_devices (ht.params ▸ hdevices)]
    exact { ht with requests := fun hn => absurd hi hn }
  bus _ ht := { ht with }
  reserved _ _ ht := { ht with }
  done _ ht := ht

end

/-- Settles O53, by the closure of every instruction under the actions it may take. -/
theorem deviceFrame : Obligations.DeviceFrame := by
  intro i s t hdevices hexec
  have h := (exec_closed i (closed_devicesKept i hdevices) (.refl i s)).next hexec
  exact ⟨h.floppy, h.ide, h.devLog, h.mapSel, h.timerLast, h.freeCount, h.requests⟩

end Sys2Proof.Machine

/-! ## The floppy controller (62_floppy_controller.md R384 to R402) -/

namespace Sys2Proof.Machine

section
variable {p : FloppyParams} {f : Floppy}

/-! ### Rotation (R384, R385) -/

/-- R384: a rotation is a whole number of words. -/
theorem wordCount_add_rotations (p : FloppyParams) (n t : Nat) (h : 0 < p.ticksPerWord) :
    wordCount p (t + n * (p.wordsPerTrack * p.ticksPerWord)) = wordCount p t + n * p.wordsPerTrack := by
  rw [wordCount, wordCount, ← Nat.mul_assoc, Nat.add_mul_div_right _ _ h]

theorem headPos_add_rotations (p : FloppyParams) (n t : Nat) :
    headPos p (t + n * (p.wordsPerTrack * p.ticksPerWord)) = headPos p t := by
  rcases Nat.eq_zero_or_pos p.ticksPerWord with h | h
  · rw [h, Nat.mul_zero, Nat.mul_zero, Nat.add_zero]
  · rw [headPos, wordCount_add_rotations p n t h, Nat.add_mul_mod_self_right, ← headPos]

theorem indexActive_of_rotation (n : Nat) {t : Nat} (h : t < p.wordsPerTrack * p.ticksPerWord) :
    indexActive p (n * (p.wordsPerTrack * p.ticksPerWord) + t) = decide (t < p.ticksPerIndexHole) := by
  rw [indexActive, ticksPerTrack, Nat.mul_add_mod_self_right, Nat.mod_eq_of_lt h]

/-! ### The word under the head (R384, R394) -/

/-- On a track of two words or more the word after a position is another one. -/
theorem succ_mod_ne (i : Nat) {n : Nat} (hn : 1 < n) : (i + 1) % n ≠ i := by
  intro h
  have hlt : i < n := h ▸ Nat.mod_lt _ (by omega)
  rcases Nat.lt_or_ge (i + 1) n with hi | hi
  · rw [Nat.mod_eq_of_lt hi] at h
    omega
  · rw [show i + 1 = n by omega, Nat.mod_self] at h
    omega

/-! ### The track buffer of the selected drive (R382) -/

/-- A change of the selected drive sets its buffer as it sets that of a drive. -/
theorem Floppy.buffer_modifySelected {g : FloppyDrive → FloppyDrive} {i : Nat} {r : RawWord}
    (h : ∀ x, (g x).buffer = x.buffer.set i r) : (f.modifySelected g).buffer = f.buffer.set i r := by
  unfold Floppy.buffer
  rw [Floppy.modifySelected_selected]
  split
  · rfl
  · rename_i l hl
    rw [Floppy.drive_modifySelected, if_pos hl, h]

/-! ### Bringing the state up to a time (R391, R394) -/

/-- R391: the synchronous read writes no track and is no write. -/
theorem Floppy.advanceSync_buffer (p : FloppyParams) (t : Nat) (f : Floppy) :
    (f.advanceSync p t).buffer = f.buffer ∧ (f.advanceSync p t).lastWriteTime = f.lastWriteTime := by
  unfold Floppy.advanceSync
  split
  · split <;> exact ⟨rfl, rfl⟩
  · exact ⟨rfl, rfl⟩

/-- R394: the end of a write changes at most the word after the last written one. -/
theorem Floppy.advanceWrite_buffer (p : FloppyParams) (t : Nat) (f : Floppy) :
    (f.advanceWrite p t).buffer = f.buffer ∨
      ∃ r, (f.advanceWrite p t).buffer = f.buffer.set ((headPos p f.lastWriteTime + 1) % p.wordsPerTrack) r := by
  unfold Floppy.advanceWrite
  split
  · exact .inr ⟨_, Floppy.buffer_modifySelected fun x => (FloppyDrive.flush_same p _).2.2⟩
  · exact .inl rfl

theorem Floppy.advance_buffer (p : FloppyParams) (t : Nat) (f : Floppy) :
    (f.advance p t).buffer = f.buffer ∨
      ∃ r, (f.advance p t).buffer = f.buffer.set ((headPos p f.lastWriteTime + 1) % p.wordsPerTrack) r := by
  obtain ⟨hbuffer, htime⟩ := f.advanceSync_buffer p t
  rw [← hbuffer, ← htime]
  exact (f.advanceSync p t).advanceWrite_buffer p t

theorem Floppy.advance_buffer_length (p : FloppyParams) (t : Nat) (f : Floppy) :
    (f.advance p t).buffer.length = f.buffer.length := by
  obtain h | ⟨r, h⟩ := f.advance_buffer p t
  · rw [h]
  · rw [h, List.length_set]

/-- The last written word stays, though its write ends. -/
theorem Floppy.advance_last_written (t : Nat) (h : 1 < p.wordsPerTrack) :
    (f.advance p t).buffer[headPos p f.lastWriteTime]? = f.buffer[headPos p f.lastWriteTime]? := by
  obtain hb | ⟨r, hb⟩ := f.advance_buffer p t
  · rw [hb]
  · rw [hb, List.getElem?_set_ne (succ_mod_ne _ h)]

/-! ### The data register (R392, R393) -/

/-- R393: a write to the data register begins, unless one is in progress, and ends a search. -/
def Floppy.beginWrite (f : Floppy) : Floppy :=
  if f.writeState = .idle then { f with writeState := .writing, syncState := .idle } else f

theorem Floppy.beginWrite_buffer (f : Floppy) : f.beginWrite.buffer = f.buffer := by
  unfold Floppy.beginWrite
  split <;> rfl

theorem Floppy.writeData_of_not_writable (t : Nat) (v : Word) (h : f.writable = false) :
    f.writeData p t v = (false, f) := by
  rw [Floppy.writeData, h]
  rfl

/-- R393: a write that is taken puts its word, bytes exchanged, under the head, and is the last one. -/
theorem Floppy.writeData_of_writable (p : FloppyParams) (t : Nat) (v : Word) (h : f.writable = true) :
    (f.writeData p t v).1 = true ∧ (f.writeData p t v).2.lastWriteTime = t ∧
      (f.writeData p t v).2.buffer = f.buffer.set (headPos p t) ⟨swapBytes v, f.beginWrite.wm⟩ := by
  rw [Floppy.writeData, if_pos h, ← f.beginWrite_buffer]
  exact ⟨rfl, rfl, Floppy.buffer_modifySelected fun _ => rfl⟩

theorem swapBytes_swapBytes (v : Word) : swapBytes (swapBytes v) = v := by
  simp [swapBytes]

/-- R392, R402: a read with the head where the last write was gives the word written there. -/
theorem Floppy.read_last_written {t' : Nat} {r : RawWord} (hwords : 1 < p.wordsPerTrack)
    (hpos : headPos p t' = headPos p f.lastWriteTime) (h : f.buffer[headPos p f.lastWriteTime]? = some r) :
    (f.read p 1 t').1 = some (swapBytes r.word) := by
  show ((f.advance p t').buffer[headPos p t']?.map fun r => swapBytes r.word) = _
  rw [hpos, Floppy.advance_last_written t' hwords, h, Option.map_some]

end

/-- Settles O56, by the words and the ticks of a rotation. -/
theorem floppyRotation : Obligations.FloppyRotation :=
  fun p n t => ⟨rfl, headPos_add_rotations p n t, indexActive_of_rotation n⟩

/-- Settles O57: the word is put under the head, and the end of the write, which a later read may bring about, changes
only the word after it. -/
theorem floppyWordRoundTrip : Obligations.FloppyWordRoundTrip := by
  intro p f t t' v
  refine ⟨rfl, fun h => ?_, fun h hpos hwords hsame => ?_⟩
  · exact Floppy.writeData_of_not_writable t v ((f.advance_writable p t).trans h)
  · obtain ⟨htaken, htime, hbuffer⟩ :=
      Floppy.writeData_of_writable p t v ((f.advance_writable p t).trans h)
    have hword : (f.write p 1 t false v).2.buffer[headPos p (f.write p 1 t false v).2.lastWriteTime]? =
        some ⟨swapBytes v, (f.advance p t).beginWrite.wm⟩ := by
      show ((f.advance p t).writeData p t v).2.buffer[headPos p ((f.advance p t).writeData p t v).2.lastWriteTime]? = _
      rw [htime, hbuffer]
      exact List.getElem?_set_self (f.advance_buffer_length p t ▸ hpos)
    refine ⟨htaken, (Floppy.read_last_written hwords ?_ hword).trans (congrArg some (swapBytes_swapBytes v))⟩
    exact hsame.trans (congrArg (headPos p) htime.symm)

end Sys2Proof.Machine

/-! ## The IDE controller (63_ide_controller.md R425 to R434) -/

namespace Sys2Proof.Machine

section
variable {p : IdeParams} {i : IdeInterface} {d : IdeDrive} {c : Byte} {n : Nat}

/-! ### A command by its code (R427, R431) -/

/-- R427: what a command finds: the error and the status of the command before it are gone. -/
def IdeInterface.cleared (i : IdeInterface) : IdeInterface :=
  { i with error := 0, status := { bsy := false, drdy := true, drq := false, err := false } }

/-- R431 (decision D40): without a drive, or with a code that stands for no command, the command aborts. -/
theorem IdeInterface.command_aborts (h : i.drive = none ∨ commandOf p c = none) :
    i.command p c = i.cleared.abort p := by
  unfold IdeInterface.command
  dsimp only
  split
  · rfl
  · rename_i d hd
    obtain h | h := h
    · simp [h] at hd
    · rw [h]
      rfl

theorem IdeInterface.command_cleared (p : IdeParams) (b : Byte) (i : IdeInterface) :
    i.cleared.command p b = i.command p b := rfl

/-- R431: an aborted command leaves nothing that the next one sees. -/
theorem IdeInterface.command_after_abort (p : IdeParams) (b : Byte) (i : IdeInterface) :
    (i.cleared.abort p).command p b = i.command p b := by
  have hcleared : (i.cleared.abort p).cleared = i.cleared := rfl
  rw [← IdeInterface.command_cleared, hcleared, IdeInterface.command_cleared]

theorem IdeInterface.command_identify (hc : commandOf p c = some .identify) (hd : i.drive = some d) :
    i.command p c =
      ({ i.cleared with buf := fillBuffer i.buf (identifyBytes p.layout d) } : IdeInterface).start
        sectorBytes .stop := by
  unfold IdeInterface.command
  dsimp only
  split
  · rename_i h; cases hd.symm.trans h
  · rename_i h; cases hd.symm.trans h; rw [hc]; rfl

theorem IdeInterface.command_writeMultiple (hc : commandOf p c = some .writeMultiple) (hd : i.drive = some d)
    (hm : i.multiple ≠ 0) : i.command p c = ({ i.cleared with multi := true } : IdeInterface).startWrite p i.count := by
  unfold IdeInterface.command
  dsimp only
  split
  · rename_i h; cases hd.symm.trans h
  · rw [hc]; exact if_neg hm

/-! ### IDENTIFY (R428, R434) -/

/-- The byte pairs of a list, one after the other. -/
theorem getElem?_flatMap_pair {α β : Type} (f g : α → β) (l : List α) (k : Nat) :
    (l.flatMap fun x => [f x, g x])[2 * k]? = l[k]?.map f ∧
      (l.flatMap fun x => [f x, g x])[2 * k + 1]? = l[k]?.map g := by
  induction l generalizing k with
  | nil => exact ⟨rfl, rfl⟩
  | cons x l ih =>
    cases k with
    | zero => exact ⟨rfl, rfl⟩
    | succ k => exact ih k

/-- Word `k` of a transfer buffer, its low byte first (R429). -/
def bufferWord (buf : List Byte) (k : Nat) : Word := joinBytes (bufferByte buf (2 * k + 1)) (bufferByte buf (2 * k))

theorem bufferByte_fillBuffer {bs : List Byte} (buf : List Byte) {k : Nat} {b : Byte} (h : bs[k]? = some b) :
    bufferByte (fillBuffer buf bs) k = b := by
  obtain ⟨hk, -⟩ := List.getElem?_eq_some_iff.1 h
  rw [bufferByte, fillBuffer, List.getD_eq_getElem?_getD, List.getElem?_append_left hk, h, Option.getD_some]

/-- R428: the words of the IDENTIFY data are the words the host reads from the buffer. -/
theorem bufferWord_identify (buf : List Byte) (l : IdentifyLayout) (d : IdeDrive) {k : Nat} (hk : k < 256) :
    bufferWord (fillBuffer buf (identifyBytes l d)) k = identifyWord l d k := by
  obtain ⟨hlow, hhigh⟩ := getElem?_flatMap_pair (fun j => lowByte (identifyWord l d j))
    (fun j => highByte (identifyWord l d j)) (List.range 256) k
  rw [List.getElem?_range hk, Option.map_some, ← identifyBytes] at hlow hhigh
  rw [bufferWord, bufferByte_fillBuffer buf hlow, bufferByte_fillBuffer buf hhigh, joinBytes_high_low]

end

/-- Settles O58: the buffer holds the words of the IDENTIFY data, and the default layout gives each field a word of its
own. -/
theorem identifyReportsTheDrive : Obligations.IdentifyReportsTheDrive := by
  rintro p c i _ d hl hc hd rfl word
  have hword : ∀ k < 256, word k = identifyWord defaultLayout d k := fun k hk => by
    show bufferWord (i.command p c).buf k = _
    rw [IdeInterface.command_identify hc hd, ← hl]
    exact bufferWord_identify i.buf p.layout d hk
  refine ⟨?_, ?_, ?_, ?_, hword 1 (by decide), hword 3 (by decide), hword 6 (by decide), hword 60 (by decide),
    hword 61 (by decide)⟩
  all_goals rw [IdeInterface.command_identify hc hd]; rfl

/-- Settles O60: an aborted command has only set the error and the status, which every command clears first. -/
theorem ideAbort : Obligations.IdeAbort := by
  intro p i c b h
  rw [IdeInterface.command_aborts h]
  exact ⟨rfl, rfl, rfl, rfl, IdeInterface.command_after_abort p b i⟩

end Sys2Proof.Machine

/-! ## WRITE_MULTIPLE (63_ide_controller.md R425, R427, R430) -/

namespace Sys2Proof.Machine

section
variable {p : IdeParams} {i : IdeInterface} {d : IdeDrive} {n : Nat}

/-! ### The head field at its default place (R421) -/

/-- The head field is the low four bits of the drive/head register, and the LBA bit is not in it (log 25). -/
structure DefaultHead (p : IdeParams) : Prop where
  headBit : p.headBit = 0
  headWidth : p.headWidth = 4
  lbaBit : 4 ≤ p.lbaBit

theorem DefaultHead.withHead_eq (hp : DefaultHead p) (r : Byte) (h : Nat) :
    withHead p r h = (r &&& 0xf0) ||| BitVec.ofNat 8 (h % 16) := by
  rw [withHead, hp.headBit, hp.headWidth, BitVec.shiftLeft_zero, BitVec.shiftLeft_zero]
  rfl

theorem DefaultHead.withHead_mod (hp : DefaultHead p) (r : Byte) (h : Nat) : (withHead p r h).toNat % 16 = h % 16 := by
  have hkept : (r.toNat &&& 240) % 2 ^ 4 = 0 := by rw [Nat.and_mod_two_pow]; exact Nat.and_zero _
  have hnew : (BitVec.ofNat 8 (h % 16)).toNat % 2 ^ 4 = h % 16 := by rw [BitVec.toNat_ofNat]; omega
  rw [hp.withHead_eq, BitVec.toNat_or, BitVec.toNat_and]
  calc (r.toNat &&& 240 ||| (BitVec.ofNat 8 (h % 16)).toNat) % 2 ^ 4
    _ = (r.toNat &&& 240) % 2 ^ 4 ||| (BitVec.ofNat 8 (h % 16)).toNat % 2 ^ 4 := Nat.or_mod_two_pow
    _ = h % 16 := by rw [hkept, hnew, Nat.zero_or]

theorem DefaultHead.withHead_lbaBit (hp : DefaultHead p) (r : Byte) (h : Nat) :
    (withHead p r h).getLsbD p.lbaBit = r.getLsbD p.lbaBit := by
  have hbit := hp.lbaBit
  have hfield : h % 16 < 2 ^ p.lbaBit :=
    Nat.lt_of_lt_of_le (Nat.mod_lt h (by decide)) (Nat.pow_le_pow_right (n := 2) (by decide) hbit)
  have hnew : (h % 16).testBit p.lbaBit = false := Nat.testBit_lt_two_pow hfield
  rw [hp.withHead_eq, BitVec.getLsbD_or, BitVec.getLsbD_and, BitVec.getLsbD_ofNat, hnew, Bool.and_false, Bool.or_false]
  rcases Nat.lt_or_ge p.lbaBit 8 with h8 | h8
  · have hmask : (0xf0 : Byte).getLsbD p.lbaBit = true := by
      generalize p.lbaBit = k at hbit h8
      interval_cases k <;> rfl
    rw [hmask, Bool.and_true]
  · rw [BitVec.getLsbD_of_ge _ _ h8, Bool.false_and]

theorem DefaultHead.head_eq (hp : DefaultHead p) (i : IdeInterface) : i.head p = i.driveHead.toNat % 16 := by
  rw [IdeInterface.head, hp.headBit, hp.headWidth, Nat.pow_zero, Nat.div_one]
  rfl

/-! ### The address registers (R425) -/

/-- Every address below `n` has values of the address registers that stand for it. -/
def IdeInterface.Fits (p : IdeParams) (n : Nat) (i : IdeInterface) : Prop :=
  (i.lbaMode p = true → n ≤ 0x10000000) ∧
  (i.lbaMode p = false → 1 ≤ i.geometry.sectors ∧ i.geometry.sectors ≤ 255 ∧ 1 ≤ i.geometry.heads ∧
    i.geometry.heads ≤ 16 ∧ n ≤ 65536 * i.geometry.heads * i.geometry.sectors)

/-- R425: `SetLba` writes the address registers alone. -/
theorem IdeInterface.setLba_eq (p : IdeParams) (n : Nat) (i : IdeInterface) :
    ∃ s l h r, i.setLba p n = { i with sectorNumber := s, cylLow := l, cylHigh := h, driveHead := r } := by
  unfold IdeInterface.setLba
  split <;> exact ⟨_, _, _, _, rfl⟩

theorem DefaultHead.lbaMode_setLba (hp : DefaultHead p) (n : Nat) (i : IdeInterface) :
    (i.setLba p n).lbaMode p = i.lbaMode p := by
  unfold IdeInterface.setLba
  split <;> exact hp.withHead_lbaBit _ _

/-- A sector number, head and cylinder make up the address they were taken from. -/
theorem chs_recompose (n s h : Nat) : (n / s / h * h + n / s % h) * s + (n % s + 1) - 1 = n := by
  rw [Nat.div_add_mod', ← Nat.add_assoc, Nat.div_add_mod', Nat.add_sub_cancel]

/-- R425: in CHS mode sectors are counted from 1. -/
theorem IdeInterface.sectorNumber_setLba {m : Nat} (h : i.Fits p m) (hmode : i.lbaMode p = false) (n : Nat) :
    (i.setLba p n).sectorNumber.toNat = n % i.geometry.sectors + 1 := by
  obtain ⟨hs, hs', -⟩ := h.2 hmode
  have hlt := Nat.mod_lt n hs
  rw [IdeInterface.setLba, hmode]
  show (BitVec.ofNat 8 (n % i.geometry.sectors + 1)).toNat = _
  rw [BitVec.toNat_ofNat, Nat.mod_eq_of_lt (by omega)]

theorem IdeInterface.sectorNumber_setLba_ne_zero {m : Nat} (h : i.Fits p m) (hmode : i.lbaMode p = false) (n : Nat) :
    (i.setLba p n).sectorNumber ≠ 0 := by
  intro e
  have hnumber := IdeInterface.sectorNumber_setLba h hmode n
  rw [e] at hnumber
  cases hnumber

/-- R425: `SetLba` is the inverse of `GetLba`. -/
theorem DefaultHead.lba_setLba {m : Nat} (hp : DefaultHead p) (h : i.Fits p m) (hn : n < m) :
    (i.setLba p n).lba p = n := by
  rw [IdeInterface.lba, hp.lbaMode_setLba, hp.head_eq]
  cases hmode : i.lbaMode p with
  | true =>
    have hbound := h.1 hmode
    rw [if_pos rfl, IdeInterface.setLba, if_pos hmode]
    simp only [hp.withHead_mod, BitVec.toNat_ofNat]
    omega
  | false =>
    obtain ⟨hs, hs', hh, hh', hbound⟩ := h.2 hmode
    have hcyl : n / i.geometry.sectors / i.geometry.heads < 65536 := by
      rw [Nat.div_div_eq_div_mul]
      refine Nat.div_lt_of_lt_mul ?_
      calc n < 65536 * i.geometry.heads * i.geometry.sectors := Nat.lt_of_lt_of_le hn hbound
        _ = i.geometry.sectors * i.geometry.heads * 65536 := by ring
    have hhead := Nat.mod_lt (n / i.geometry.sectors) hh
    rw [if_neg nofun, IdeInterface.sectorNumber_setLba h hmode, IdeInterface.setLba, if_neg (by simp [hmode])]
    simp only [hp.withHead_mod, BitVec.toNat_ofNat]
    have hcylinder (k : Nat) (hk : k < 65536) : k / 256 % 2 ^ 8 * 256 + k % 2 ^ 8 = k := by omega
    rw [hcylinder _ hcyl, Nat.mod_eq_of_lt (by omega : n / i.geometry.sectors % i.geometry.heads < 16)]
    exact chs_recompose ..

/-! ### The sectors a command addresses (R425, decision D40) -/

theorem IdeInterface.addressable_iff (hd : i.drive = some d) :
    i.addressable p n = true ↔
      (i.lbaMode p = true ∨ i.sectorNumber ≠ 0) ∧ i.lba p + n ≤ d.totalSectors := by
  simp [IdeInterface.addressable, hd]

theorem IdeInterface.addressable_mono {m : Nat} (hd : i.drive = some d) (h : i.addressable p n = true) (hm : m ≤ n) :
    i.addressable p m = true := by
  obtain ⟨hsector, hlast⟩ := (IdeInterface.addressable_iff hd).1 h
  exact (IdeInterface.addressable_iff hd).2 ⟨hsector, by omega⟩

/-! ### A block of a write (R430) -/

/-- The bytes of the first `k` sectors of a transfer buffer. -/
def blockBytes (buf : List Byte) (k : Nat) : List Byte := (List.range (k * sectorBytes)).map (bufferByte buf)

theorem blockBytes_eq {k b : Nat} (buf : List Byte) (h : k * sectorBytes = b) :
    blockBytes buf k = (List.range b).map (bufferByte buf) := by rw [blockBytes, h]

/-- The interface with the block just received on its drive, the address and the sector count moved past it. -/
def IdeInterface.writeBlock (p : IdeParams) (i : IdeInterface) : IdeInterface :=
  { i with drive := i.drive.map fun (d : IdeDrive) => d.writeSectors (i.lba p) (blockBytes i.buf i.blk) }.advanceBlock p

/-- R430: at the end of a block that was on the drive, the next one begins, or the command ends. -/
theorem IdeInterface.endTransfer_of_write (he : i.endFn = .writeSector) (ha : i.addressable p i.blk = true) :
    i.endTransfer p =
      if i.blk < i.count then (i.writeBlock p).startWrite p (i.count - i.blk)
      else { i.writeBlock p with status := { (i.writeBlock p).status with drq := false } } := by
  unfold IdeInterface.endTransfer
  split
  · rename_i h; cases he.symm.trans h
  · rename_i h; cases he.symm.trans h
  · exact if_pos ha
  · rename_i h; cases he.symm.trans h

theorem IdeInterface.startWrite_of_addressable (h : i.addressable p (i.block n) = true) :
    i.startWrite p n = ({ i with blk := i.block n } : IdeInterface).start (sectorBytes * i.block n) .writeSector :=
  if_pos h

/-- A sector count read back, 0 standing for 256 (R427). -/
theorem IdeInterface.count_of_sectorCount (h : i.sectorCount = BitVec.ofNat 8 n) (h1 : 1 ≤ n) (h256 : n ≤ 256) :
    i.count = n := by
  have hnat : i.sectorCount.toNat = n % 256 := by rw [h, BitVec.toNat_ofNat]
  unfold IdeInterface.count
  split
  · rename_i hzero
    rw [hzero] at hnat
    have hmod : 0 = n % 256 := hnat
    omega
  · rename_i hzero
    have hne : i.sectorCount.toNat ≠ 0 := fun e => hzero (BitVec.eq_of_toNat_eq e)
    omega

/-! ### The command in progress (R430) -/

/-- The interface, in a WRITE_MULTIPLE by `u` sectors, has `m` sectors from address `a` on still to write, all of them
on the drive `d`. -/
structure IdeInterface.WriteDue (p : IdeParams) (u : Nat) (d : IdeDrive) (a m : Nat) (i : IdeInterface) : Prop where
  drive : i.drive = some d
  multi : i.multi = true
  multiple : i.multiple = u
  sectorCount : i.sectorCount = BitVec.ofNat 8 m
  someLeft : 1 ≤ m
  limit : m ≤ 256
  address : i.lba p = a
  onDrive : i.addressable p m = true
  fits : i.Fits p (a + m)
  noError : i.status.err = false

/-- And the block in progress is the next of them. -/
structure IdeInterface.WriteInBlock (p : IdeParams) (u : Nat) (d : IdeDrive) (a m : Nat) (i : IdeInterface) : Prop
    extends i.WriteDue p u d a m where
  endFn : i.endFn = .writeSector
  blk : i.blk = min u m

/-- And no word of it has been received. -/
structure IdeInterface.WriteArmed (p : IdeParams) (u : Nat) (d : IdeDrive) (a m : Nat) (i : IdeInterface) : Prop
    extends i.WriteInBlock p u d a m where
  off : i.off = 0
  fin : i.fin = sectorBytes * min u m
  drq : i.status.drq = true

section
variable {u a m : Nat}

theorem IdeInterface.WriteDue.count (h : i.WriteDue p u d a m) : i.count = m :=
  IdeInterface.count_of_sectorCount h.sectorCount h.someLeft h.limit

/-- R427, R430: the next block has the multiple of sectors, or those left if they are fewer. -/
theorem IdeInterface.WriteDue.startWrite (h : i.WriteDue p u d a m) : (i.startWrite p m).WriteArmed p u d a m := by
  have hblock : i.block m = min u m := by rw [IdeInterface.block, if_pos h.multi, h.multiple]
  have honDrive : i.addressable p (i.block m) = true :=
    IdeInterface.addressable_mono h.drive h.onDrive (hblock ▸ Nat.min_le_right u m)
  rw [IdeInterface.startWrite_of_addressable honDrive, hblock]
  exact { h with endFn := rfl, blk := rfl, off := rfl, fin := rfl, drq := rfl }

/-- R430: the advance past a block leaves the drive and the geometry alone. -/
theorem IdeInterface.advanceBlock_drive (p : IdeParams) (i : IdeInterface) :
    (i.advanceBlock p).drive = i.drive ∧ (i.advanceBlock p).geometry = i.geometry := by
  obtain ⟨_, _, _, _, h⟩ := i.setLba_eq p (i.lba p + i.blk)
  rw [IdeInterface.advanceBlock, h]
  exact ⟨rfl, rfl⟩

/-- R425, R430: after the advance past a block the command goes on with the sector behind it. -/
theorem IdeInterface.WriteDue.advanceBlock (hp : DefaultHead p) (h : i.WriteDue p u d a m) (hk : i.blk < m) :
    (i.advanceBlock p).WriteDue p u d (a + i.blk) (m - i.blk) := by
  obtain ⟨hdrive, hgeometry⟩ := i.advanceBlock_drive p
  obtain ⟨hstatus, hmulti, hmultiple⟩ := i.advanceBlock_status p
  obtain ⟨hsector, hlast⟩ := (IdeInterface.addressable_iff h.drive).1 h.onDrive
  have hrest : a + i.blk + (m - i.blk) = a + m := by omega
  have hmode : (i.advanceBlock p).lbaMode p = i.lbaMode p := hp.lbaMode_setLba _ _
  have hlba : (i.advanceBlock p).lba p = a + i.blk := by
    rw [← h.address]
    exact hp.lba_setLba h.fits (by rw [h.address]; omega)
  have hnumber : (i.advanceBlock p).lbaMode p = true ∨ (i.advanceBlock p).sectorNumber ≠ 0 := by
    rw [hmode]
    cases hm : i.lbaMode p with
    | true => exact .inl rfl
    | false => exact .inr (IdeInterface.sectorNumber_setLba_ne_zero h.fits hm _)
  exact {
    drive := hdrive.trans h.drive
    multi := hmulti.trans h.multi
    multiple := hmultiple.trans h.multiple
    sectorCount := by
      show BitVec.ofNat 8 i.count - BitVec.ofNat 8 i.blk = _
      rw [h.count]
      exact BitVec.ofNat_sub_ofNat_of_le _ _ (Nat.lt_of_lt_of_le hk h.limit) hk.le
    someLeft := by omega
    limit := (Nat.sub_le m _).trans h.limit
    address := hlba
    onDrive := (IdeInterface.addressable_iff (hdrive.trans h.drive)).2
      ⟨hnumber, by rw [hlba, hrest, ← h.address]; exact hlast⟩
    fits := by
      rw [hrest, IdeInterface.Fits, hmode, hgeometry]
      exact h.fits
    noError := (congrArg IdeStatus.err hstatus).trans h.noError }

/-- A block written to the drive changes neither its size nor the address registers. -/
theorem IdeInterface.WriteDue.withDrive (h : i.WriteDue p u d a m) (bs : List Byte) :
    ({ i with drive := i.drive.map fun (d : IdeDrive) => d.writeSectors (i.lba p) bs } : IdeInterface).WriteDue p u
      (d.writeSectors a bs) a m := by
  have hdrive : (i.drive.map fun (d : IdeDrive) => d.writeSectors (i.lba p) bs) = some (d.writeSectors a bs) := by
    rw [h.drive, h.address, Option.map_some]
  have honDrive := (IdeInterface.addressable_iff h.drive).1 h.onDrive
  exact { h with
    drive := hdrive
    onDrive := (IdeInterface.addressable_iff (d := d.writeSectors a bs) hdrive).2 honDrive }

/-- R429: the words of a block change the buffer and the cursor, and no more. -/
theorem IdeInterface.WriteInBlock.receive (h : i.WriteInBlock p u d a m) (bs : List Byte) (o : Nat) :
    ({ i with buf := bs, off := o } : IdeInterface).WriteInBlock p u d a m := { h with }

/-- R430: at the end of a block that is not the last, it is on the drive and the next block is armed. -/
theorem IdeInterface.WriteInBlock.endTransfer_of_more (hp : DefaultHead p) (h : i.WriteInBlock p u d a m) (hu : u < m) :
    (i.endTransfer p).WriteArmed p u (d.writeSectors a (blockBytes i.buf u)) (a + u) (m - u) := by
  have hblk : i.blk = u := h.blk.trans (Nat.min_eq_left hu.le)
  subst hblk
  rw [IdeInterface.endTransfer_of_write h.endFn (IdeInterface.addressable_mono h.drive h.onDrive hu.le), h.count,
    if_pos hu]
  exact ((h.withDrive (blockBytes i.buf i.blk)).advanceBlock hp hu).startWrite

/-- R430: at the end of the last block it is on the drive, and the command has ended. -/
theorem IdeInterface.WriteInBlock.endTransfer_of_last (h : i.WriteInBlock p u d a m) (hu : m ≤ u) :
    (i.endTransfer p).sectorCount = 0 ∧ (i.endTransfer p).status.drq = false ∧ (i.endTransfer p).status.err = false ∧
      (i.endTransfer p).drive = some (d.writeSectors a (blockBytes i.buf m)) := by
  have hblk : i.blk = m := h.blk.trans (Nat.min_eq_right hu)
  subst hblk
  have hwritten := h.withDrive (blockBytes i.buf i.blk)
  rw [IdeInterface.endTransfer_of_write h.endFn h.onDrive, h.count, if_neg (Nat.lt_irrefl _)]
  refine ⟨?_, rfl, ?_, ?_⟩
  · show BitVec.ofNat 8 i.count - BitVec.ofNat 8 i.blk = 0
    rw [h.count]
    exact BitVec.sub_self _
  · exact (congrArg IdeStatus.err (IdeInterface.advanceBlock_status p _).1).trans h.noError
  · exact (IdeInterface.advanceBlock_drive p _).1.trans hwritten.drive

end

/-- R427, R430: the command arms its first block. -/
theorem IdeInterface.writeArmed_of_command {c : Byte} (hc : commandOf p c = some .writeMultiple) (hd : i.drive = some d)
    (hm : i.multiple ≠ 0) (hcount : i.sectorCount = BitVec.ofNat 8 n) (h1 : 1 ≤ n) (h256 : n ≤ 256)
    (honDrive : i.addressable p n = true) (hfits : i.Fits p (i.lba p + n)) :
    (i.command p c).WriteArmed p i.multiple d (i.lba p) n := by
  rw [IdeInterface.command_writeMultiple hc hd hm, IdeInterface.count_of_sectorCount hcount h1 h256]
  exact IdeInterface.WriteDue.startWrite ⟨hd, rfl, rfl, hcount, h1, h256, rfl, honDrive, hfits, rfl⟩

end

/-- Settles O59: of five sectors by four, the first block has four and is not the last, the second has one and is. -/
theorem writeMultipleOfFiveByFour : Obligations.WriteMultipleOfFiveByFour := by
  intro p c i d bs bs' hc hd hmultiple hcount hbit hwidth hlba honDrive hfitsLba hfitsChs armed first second d4
  have hp : DefaultHead p := ⟨hbit, hwidth, hlba⟩
  have harmed : armed.WriteArmed p 4 d (i.lba p) 5 :=
    hmultiple ▸ IdeInterface.writeArmed_of_command hc hd (by simp [hmultiple]) hcount (by decide) (by decide) honDrive
      ⟨hfitsLba, hfitsChs⟩
  have hfirst := (harmed.toWriteInBlock.receive bs armed.fin).endTransfer_of_more hp (by decide)
  have hsecond := (hfirst.toWriteInBlock.receive bs' first.fin).endTransfer_of_last (by decide)
  rw [blockBytes_eq bs (show 4 * sectorBytes = 2048 by decide)] at hfirst hsecond
  rw [blockBytes_eq bs' (show 1 * sectorBytes = 512 by decide)] at hsecond
  exact ⟨⟨harmed.blk, harmed.off, harmed.fin, harmed.drq, harmed.drive⟩,
    ⟨hfirst.sectorCount, hfirst.blk, hfirst.off, hfirst.fin, hfirst.drq, hfirst.drive⟩, hsecond⟩

end Sys2Proof.Machine
